-- ==== Sys2Proof/Word.lean ====
section
/-!
DEFINITION. The command word, bytes and byte sequences (30_encoding.md R90, 20_memory.md R60, 00_scope.md R10).
Nothing here is arithmetic: quantities of the block are unsigned integers (R10, R126) and are held as Nat.
-/

namespace Sys2Proof

/-- One byte of the work memory or of a frame. -/
abbrev Byte := BitVec 8

/-- A command word `cw` (R90). -/
abbrev Word := BitVec 32

/-- A byte sequence, element 0 first (R10); a frame is one of length `FRAME_SIZE`. -/
abbrev Bytes := List Byte

end Sys2Proof
end

