-- ==== Sys2Proof/Config.lean ====
section
/-!
DEFINITION. The implementation parameters of 00_scope.md R7 as one record, the test configuration CFG-T of R9, and
the model's one free value. DESIGN CHOICE (log 1): the record is carried by the state, so that every statement is about
every configuration that meets R7.
-/

namespace Sys2Proof

/-- The open parameters (R7). `RX_STAGING_SIZE` and `TX_STAGING_SIZE` are functions of them, below. -/
structure Config where
  /-- `FRAME_SIZE`, bytes in one frame. -/
  frameSize : Nat
  /-- `IN_CAPACITY`, frames the inbound ring holds. -/
  inCapacity : Nat
  /-- `OUT_CAPACITY`, frames the outbound ring holds. -/
  outCapacity : Nat
  /-- `N_XFER`, whole frames one OUT transfer can carry. -/
  nXfer : Nat
  /-- `ALIGN`, alignment of each region carved by `XPT.INIT`. -/
  align : Nat := 1
  /-- `ADDR_W`, bits of a work-memory address. -/
  addrW : Nat := 32
  /-- `EP_IN`, the endpoint passed with `HW.WRITE`. -/
  epIn : Nat
  /-- `EP_OUT`, the endpoint passed with `HW.RDREQ`. -/
  epOut : Nat
  /-- `APP_PREEMPTIBLE`, whether events may run between the phases of an application command. -/
  appPreemptible : Bool := true
  deriving DecidableEq, Repr

/-- `LEN_W`, bits of a byte count (R7). -/
def lenW : Nat := 16

/-- `OVF_W`, bits of the overflow counter (R7). -/
def ovfW : Nat := 32

/-- `RX_STAGING_SIZE = N_XFER * FRAME_SIZE` (R7). -/
def Config.rxStagingSize (c : Config) : Nat := c.nXfer * c.frameSize

/-- `TX_STAGING_SIZE = FRAME_SIZE` (R7). -/
def Config.txStagingSize (c : Config) : Nat := c.frameSize

/-- CFG-T, the configuration of the spec's vectors (R9). -/
def Config.cfgT : Config where
  frameSize := 8
  inCapacity := 4
  outCapacity := 3
  nXfer := 3
  align := 1
  addrW := 32
  epIn := 0x81
  epOut := 0x01
  appPreemptible := true

/-- The free value behind `ret_a` when the carved end is `2^ADDR_W` and so is no `ADDR_W`-bit value (log 16, DESIGN
CHOICE). It has no body: nothing can be proved of it. The argument is the number of free values drawn before. -/
opaque Config.freeAddr : Nat → Nat

end Sys2Proof
end

