-- ==== Sys2Proof/Syntax.lean ====
section
/-!
DEFINITION. The thirteen commands, one constructor per row of the opcode map (30_encoding.md R99), with the names
that decoding needs: the two rings, the formats, the ports, the reasons for which a word is illegal.
-/

namespace Sys2Proof

/-- The two ring instances: `in` (host to device, ring select 0) and `out` (device to host, ring select 1); R10, R120. -/
inductive Ring where
  | inbound
  | outbound
  deriving DecidableEq, Repr

/-- The four formats (R92). -/
inductive Format where
  | R
  | A
  | E
  | I
  deriving DecidableEq, Repr

/-- The ports at which command words arrive (R92): the port of each ring, and one port for each other format. -/
inductive Port where
  | ring (r : Ring)
  | app
  | event
  | config
  deriving DecidableEq, Repr

/-- The commands with the operands their words carry; the other operands travel on the ports of R97. -/
inductive Instr where
  | rbInit (r : Ring)
  | rbInsert (r : Ring)
  | rbPop (r : Ring)
  | rbCount (r : Ring)
  | rbFlush (r : Ring)
  | appReadCount
  | appRead
  | appWrite
  | appFlush
  | evtInComplete
  | evtOutComplete (len : Nat)
  | evtOutNak
  | xptInit
  deriving DecidableEq, Repr

/-- Why a word is illegal, by the list of R100; `wrongLength` is for a byte string that is not one 32-bit word (R90). -/
inductive DecodeError where
  | wrongLength
  | nonzeroZ
  | reservedClass
  | reservedOp
  | nonzeroRing
  | nonzeroLen
  deriving DecidableEq, Repr

/-- The format of each command (R99). -/
def Instr.format : Instr → Format
  | .rbInit _ => .R
  | .rbInsert _ => .R
  | .rbPop _ => .R
  | .rbCount _ => .R
  | .rbFlush _ => .R
  | .appReadCount => .A
  | .appRead => .A
  | .appWrite => .A
  | .appFlush => .A
  | .evtInComplete => .E
  | .evtOutComplete _ => .E
  | .evtOutNak => .E
  | .xptInit => .I

/-- The mnemonic of each command, as the opcode map spells it (R99). -/
def Instr.mnemonic : Instr → String
  | .rbInit _ => "RB.INIT"
  | .rbInsert _ => "RB.INSERT"
  | .rbPop _ => "RB.POP"
  | .rbCount _ => "RB.COUNT"
  | .rbFlush _ => "RB.FLUSH"
  | .appReadCount => "APP.READ_COUNT"
  | .appRead => "APP.READ"
  | .appWrite => "APP.WRITE"
  | .appFlush => "APP.FLUSH"
  | .evtInComplete => "EVT.IN_COMPLETE"
  | .evtOutComplete _ => "EVT.OUT_COMPLETE"
  | .evtOutNak => "EVT.OUT_NAK"
  | .xptInit => "XPT.INIT"

end Sys2Proof
end

