-- ==== Sys2Proof/WellFormed.lean ====
section
/-!
DEFINITION. Which command terms and which configurations the spec has: the `len` field is 16 bits (30_encoding.md R91)
and the parameters meet the constraints of 00_scope.md R7.
-/

namespace Sys2Proof

/-- A term is a command of the spec: its byte count fits the `len` field (R91, `LEN_W` = 16). -/
def Instr.wellFormed : Instr → Bool
  | .rbInit _ => true
  | .rbInsert _ => true
  | .rbPop _ => true
  | .rbCount _ => true
  | .rbFlush _ => true
  | .appReadCount => true
  | .appRead => true
  | .appWrite => true
  | .appFlush => true
  | .evtInComplete => true
  | .evtOutComplete len => decide (len < 2 ^ lenW)
  | .evtOutNak => true
  | .xptInit => true

/-- The constraints of R7, in the order of its table. -/
abbrev Config.wf (c : Config) : Prop :=
  1 ≤ c.frameSize ∧
  (1 ≤ c.inCapacity ∧ c.inCapacity ≤ 2 ^ lenW - 1) ∧
  (1 ≤ c.outCapacity ∧ c.outCapacity ≤ 2 ^ lenW - 1) ∧
  1 ≤ c.nXfer ∧
  c.rxStagingSize < 2 ^ lenW ∧
  2 ^ Nat.log2 c.align = c.align

end Sys2Proof
end

