-- ==== Sys2Proof/Decode.lean ====
section
/-!
DEFINITION. The decoder, total on every word and every byte string and rejecting by name (30_encoding.md R99, R100),
the encoder (R93 to R96), the opcode map as the spec tabulates it (R99), and the decoder read at a table row.
-/

namespace Sys2Proof

/-- `cls`, bits 31:28 (R91). -/
def clsField (cw : Word) : BitVec 4 := cw.extractLsb' 28 4

/-- `op`, bits 27:24 (R91). -/
def opField (cw : Word) : BitVec 4 := cw.extractLsb' 24 4

/-- `z`, bits 23:17, must be zero (R91). -/
def zField (cw : Word) : BitVec 7 := cw.extractLsb' 17 7

/-- `ring`, bit 16 (R91). -/
def ringField (cw : Word) : BitVec 1 := cw.extractLsb' 16 1

/-- `len`, bits 15:0 (R91). -/
def lenField (cw : Word) : BitVec 16 := cw.extractLsb' 0 16

/-- The ring that the `ring` bit selects (R91): 0 inbound, 1 outbound. -/
def ringOfBit (b : BitVec 1) : Ring := if b = 0#1 then .inbound else .outbound

/-- The `ring` bit of a ring (R91). -/
def bitOfRing : Ring → BitVec 1
  | .inbound => 0#1
  | .outbound => 1#1

/-- R format: `op` 0 to 4, `len` zero (R93). -/
def decodeR (cw : Word) : Except DecodeError Instr :=
  if lenField cw ≠ 0#16 then .error .nonzeroLen
  else
    match (opField cw).toNat with
    | 0 => .ok (.rbInit (ringOfBit (ringField cw)))
    | 1 => .ok (.rbInsert (ringOfBit (ringField cw)))
    | 2 => .ok (.rbPop (ringOfBit (ringField cw)))
    | 3 => .ok (.rbCount (ringOfBit (ringField cw)))
    | 4 => .ok (.rbFlush (ringOfBit (ringField cw)))
    | _ => .error .reservedOp

/-- A format: `op` 0 to 3, `ring` and `len` zero (R94). -/
def decodeA (cw : Word) : Except DecodeError Instr :=
  if ringField cw ≠ 0#1 then .error .nonzeroRing
  else if lenField cw ≠ 0#16 then .error .nonzeroLen
  else
    match (opField cw).toNat with
    | 0 => .ok .appReadCount
    | 1 => .ok .appRead
    | 2 => .ok .appWrite
    | 3 => .ok .appFlush
    | _ => .error .reservedOp

/-- E format: `op` 0 to 2, `ring` zero, `len` zero but in `EVT.OUT_COMPLETE` (R95). -/
def decodeE (cw : Word) : Except DecodeError Instr :=
  if ringField cw ≠ 0#1 then .error .nonzeroRing
  else
    match (opField cw).toNat with
    | 0 => if lenField cw ≠ 0#16 then .error .nonzeroLen else .ok .evtInComplete
    | 1 => .ok (.evtOutComplete (lenField cw).toNat)
    | 2 => if lenField cw ≠ 0#16 then .error .nonzeroLen else .ok .evtOutNak
    | _ => .error .reservedOp

/-- I format: `op` 0, `ring` and `len` zero (R96). -/
def decodeI (cw : Word) : Except DecodeError Instr :=
  if ringField cw ≠ 0#1 then .error .nonzeroRing
  else if lenField cw ≠ 0#16 then .error .nonzeroLen
  else
    match (opField cw).toNat with
    | 0 => .ok .xptInit
    | _ => .error .reservedOp

/-- The decoder: every word is one of the thirteen commands or illegal (R100). -/
def decode (cw : Word) : Except DecodeError Instr :=
  if zField cw ≠ 0#7 then .error .nonzeroZ
  else
    match (clsField cw).toNat with
    | 1 => decodeR cw
    | 2 => decodeA cw
    | 3 => decodeE cw
    | 4 => decodeI cw
    | _ => .error .reservedClass

/-- A word as bytes, least significant byte first (R104). -/
def wordBytes (cw : Word) : Bytes :=
  [cw.extractLsb' 0 8, cw.extractLsb' 8 8, cw.extractLsb' 16 8, cw.extractLsb' 24 8]

/-- The word that four bytes spell (R104). -/
def wordOfBytes (b0 b1 b2 b3 : Byte) : Word := b3 ++ b2 ++ b1 ++ b0

/-- The decoder on a byte string: one word of four bytes, nothing shorter or longer (R90, R104). -/
def decodeBytes : Bytes → Except DecodeError Instr
  | [b0, b1, b2, b3] => decode (wordOfBytes b0 b1 b2 b3)
  | _ => .error .wrongLength

/-- The fields laid out as R91 lays them out: `cls ++ op ++ z ++ ring ++ len` with `z` zero. -/
def packWord (cls op : BitVec 4) (ring : BitVec 1) (len : BitVec 16) : Word :=
  cls ++ op ++ 0#7 ++ ring ++ len

/-- The encoder, from the formats R93 to R96. -/
def encode : Instr → Word
  | .rbInit r => packWord 1#4 0#4 (bitOfRing r) 0#16
  | .rbInsert r => packWord 1#4 1#4 (bitOfRing r) 0#16
  | .rbPop r => packWord 1#4 2#4 (bitOfRing r) 0#16
  | .rbCount r => packWord 1#4 3#4 (bitOfRing r) 0#16
  | .rbFlush r => packWord 1#4 4#4 (bitOfRing r) 0#16
  | .appReadCount => packWord 2#4 0#4 0#1 0#16
  | .appRead => packWord 2#4 1#4 0#1 0#16
  | .appWrite => packWord 2#4 2#4 0#1 0#16
  | .appFlush => packWord 2#4 3#4 0#1 0#16
  | .evtInComplete => packWord 3#4 0#4 0#1 0#16
  | .evtOutComplete len => packWord 3#4 1#4 0#1 (BitVec.ofNat 16 len)
  | .evtOutNak => packWord 3#4 2#4 0#1 0#16
  | .xptInit => packWord 4#4 0#4 0#1 0#16

/-- The bytes of a command's word (R104). -/
def encodeBytes (i : Instr) : Bytes := wordBytes (encode i)

/-- One row of the opcode map: `cw & mask = value` selects the command (R99). -/
structure OpcodeRow where
  mnemonic : String
  value : Word
  mask : Word
  deriving DecidableEq, Repr

/-- The opcode map, row by row as R99 prints it. -/
def opcodeMap : List OpcodeRow :=
  [ ⟨"RB.INIT", 0x10000000#32, 0xFFFEFFFF#32⟩,
    ⟨"RB.INSERT", 0x11000000#32, 0xFFFEFFFF#32⟩,
    ⟨"RB.POP", 0x12000000#32, 0xFFFEFFFF#32⟩,
    ⟨"RB.COUNT", 0x13000000#32, 0xFFFEFFFF#32⟩,
    ⟨"RB.FLUSH", 0x14000000#32, 0xFFFEFFFF#32⟩,
    ⟨"APP.READ_COUNT", 0x20000000#32, 0xFFFFFFFF#32⟩,
    ⟨"APP.READ", 0x21000000#32, 0xFFFFFFFF#32⟩,
    ⟨"APP.WRITE", 0x22000000#32, 0xFFFFFFFF#32⟩,
    ⟨"APP.FLUSH", 0x23000000#32, 0xFFFFFFFF#32⟩,
    ⟨"EVT.IN_COMPLETE", 0x30000000#32, 0xFFFFFFFF#32⟩,
    ⟨"EVT.OUT_COMPLETE", 0x31000000#32, 0xFFFF0000#32⟩,
    ⟨"EVT.OUT_NAK", 0x32000000#32, 0xFFFFFFFF#32⟩,
    ⟨"XPT.INIT", 0x40000000#32, 0xFFFFFFFF#32⟩ ]

/-- The row selects the word (R99). -/
def OpcodeRow.selects (row : OpcodeRow) (cw : Word) : Bool := cw &&& row.mask == row.value

/-- The command the decoder reads from a word of the opcode table; bits above `nbits` are 0, and no row is longer than
one word (R90). -/
def decodeTableWord (nbits w : Nat) : Option Instr :=
  if nbits ≤ 32 then
    match decodeBytes (wordBytes (BitVec.ofNat 32 (w % 2 ^ nbits))) with
    | .ok i => some i
    | .error _ => none
  else none

end Sys2Proof
end

