-- ==== Sys2Proof/Machine/State.lean ====
section
/-!
DEFINITION. The state of the block (10_state.md R20 to R39), the model's own fields beside it (inputs, operand and
return ports, configuration), the ways a step can stop, and the power-on state (R44, R230).
Counts, indices and addresses are Nat, with the spec's widths and ranges as invariants (DESIGN CHOICE, log 2).
-/

namespace Sys2Proof.Machine

/-- The registers of one ring (R21 to R25). -/
structure RingRegs where
  /-- `rb[r].base`, the address of slot 0 (R21). -/
  base : Nat
  /-- `rb[r].head`, the next slot to insert (R22). -/
  head : Nat
  /-- `rb[r].tail`, the next slot to remove (R23). -/
  tail : Nat
  /-- `rb[r].count`, the number of frames held (R24). -/
  count : Nat
  /-- `rb[r].ovf`, the frames evicted by overwrite, saturating (R25). -/
  ovf : Nat
  deriving DecidableEq, Repr

/-- `app.cmd` (R36). -/
inductive AppCmd where
  | idle
  | readCount
  | read
  | write
  | flush
  deriving DecidableEq, Repr

/-- The application sequencer: its position (R36) and its temporaries (R37). -/
structure AppSeq where
  cmd : AppCmd
  phase : Nat
  frame : Bytes
  n : Nat
  t : Bool
  deriving DecidableEq, Repr

/-- One hardware request of `hw_log` (R38, 60_exceptions.md R207, R208). -/
inductive HwReq where
  /-- `HW.WRITE(ep, data)`. -/
  | write (ep : Nat) (data : Bytes)
  /-- `HW.RDREQ(ep, max)`. -/
  | rdreq (ep max : Nat)
  deriving DecidableEq, Repr

/-- The operand ports that travel beside a command word (30_encoding.md R97). -/
structure Operands where
  wdata : Bytes
  opndA : Nat
  opndB : Nat
  evData : Bytes
  avail : Nat
  availData : Bytes
  deriving DecidableEq, Repr

/-- What a completed command returned at its port (30_encoding.md R98): `none` where it returned no such value. -/
structure Response where
  result : Option Nat
  rdata : Option Bytes
  deriving DecidableEq, Repr

/-- One choice of the schedule (R40, 60_exceptions.md R203): the application context runs the phase it is at, or a
command word is presented at a port with its operands. -/
inductive Stimulus where
  | appTurn
  | present (port : Port) (cw : Word) (ops : Operands)
  deriving DecidableEq, Repr

/-- The work memory `WM` (R39): the bytes that differ from what an unlisted address reads as, addresses rising. -/
abbrev Memory := List Host.Cell

/-- What an unlisted byte of `WM` reads as. The spec gives none (R44, U10): DESIGN CHOICE 0x00, unsafe (log 4). -/
def Memory.unlisted : Byte := 0#8

/-- The canonical form of a memory: addresses strictly rising, no entry that reads as an unlisted byte does. -/
abbrev Memory.wf (m : Memory) : Prop :=
  m.Pairwise (fun x y => x.1 < y.1) ∧ ∀ c ∈ m, c.2 ≠ Memory.unlisted

/-- The state. The fields down to `hwTxInflight` are the spec's (R20); the rest are the model's own. -/
structure State where
  /-- `rb[in]` (R21 to R25). -/
  rbIn : RingRegs
  /-- `rb[out]` (R21 to R25). -/
  rbOut : RingRegs
  /-- `rx_stage_base` (R26). -/
  rxStageBase : Nat
  /-- `tx_stage_base` (R26). -/
  txStageBase : Nat
  /-- `FLAGS` (R29). -/
  flags : BitVec 4
  /-- `rx_pending_bytes` (R34). -/
  rxPending : Nat
  /-- `inited` (R35). -/
  inited : Bool
  /-- `app.cmd`, `app.phase`, `app.frame`, `app.n`, `app.t` (R36, R37). -/
  app : AppSeq
  /-- `WM` (R39). -/
  wm : Memory
  /-- `hw_log`, oldest first (R38). -/
  hwLog : List HwReq
  /-- `hw_tx_inflight` (R38). -/
  hwTxInflight : Nat
  /-- The configuration (00_scope.md R7), never written (log 1). -/
  cfg : Config
  /-- The stimuli still to come, oldest first (R40; log 5). -/
  inputs : List Stimulus
  /-- The operand ports as the command being executed finds them (30_encoding.md R97; log 6). -/
  opnd : Operands
  /-- What the last completed command at a ring port returned (R98; log 7). -/
  ringOut : Response
  /-- What the last completed command at the application port returned (R98; log 7). -/
  appOut : Response
  /-- `ret_a`, `ret_b` of the last completed `XPT.INIT` (R98; log 7). -/
  cfgOut : Option (Nat × Nat)
  /-- How many free values have been drawn (log 16). -/
  freeCount : Nat
  deriving DecidableEq, Repr

/-- The faults of the model. The block itself has none (60_exceptions.md R190). -/
inductive Fault where
  /-- A byte sequence read or written would pass `2^ADDR_W` (20_memory.md R63). Raised by `load` and `store`, which
  every frame copy uses; "cannot arise" unless a test bench gave `RB.INIT` such a base. Safe: the spec defines no effect
  (log 14). -/
  | outsideMemory
  /-- `app.phase` names no phase of `app.cmd` (10_state.md R36). Raised by the phase step; unreachable. Safe (log 17). -/
  | noSuchPhase
  deriving DecidableEq, Repr

/-- The refusals: the closed list of 60_exceptions.md R192 and two of the model's own. A refused command changes no state. -/
inductive Refusal where
  /-- An instruction without a meaning in this model; raised by the dispatch only. Safe. -/
  | notModelled (mnemonic : String)
  /-- `Illegal`: the word matches no row of the opcode map (R100). Raised when a word is presented. Safe. -/
  | illegal (why : DecodeError)
  /-- `WrongPort`: a legal word at a port that is not its own (R100, R201). Raised when a word is presented. Safe. -/
  | wrongPort
  /-- `NotInited`: any command but `XPT.INIT` while `inited = 0` (R184). Raised by every other meaning. Safe. -/
  | notInited
  /-- `AlreadyInited`: `XPT.INIT` while `inited = 1` (R183). Raised by `XPT.INIT`. Safe. -/
  | alreadyInited
  /-- `NoMemory`: the region given to `XPT.INIT` is too small or passes the address space (R183). Safe. -/
  | noMemory
  /-- `AppBusy`: an A-format command while `app.cmd` is not idle (R160). Raised by the four A-format meanings. Safe. -/
  | appBusy
  /-- `EnvProtocol`: a delivery or an answer above `RX_STAGING_SIZE` (R142, R144). Raised by `EVT.OUT_COMPLETE` and an
  arming `EVT.OUT_NAK`. The spec's own choice, which errs toward proving (R192; log 19): unsafe if a real stack does it. -/
  | envProtocol
  /-- The stimulus holds no value of the operand port's width (R97): the model's own. Safe (log 13). -/
  | operandWidth
  deriving DecidableEq, Repr

/-- Nothing returned (R98). -/
def Response.nothing : Response := ⟨none, none⟩

/-- Operand ports that carry nothing. -/
def Operands.zero : Operands := ⟨[], 0, 0, [], 0, []⟩

/-- The power-on state (R44, R230). `inited`, `app.cmd`, `hw_log` and `hw_tx_inflight` are the spec's values; the
registers it leaves unspecified are zero (DESIGN CHOICE, unsafe, log 3); the configuration is CFG-T (DESIGN CHOICE, log 1). -/
def State.reset : State where
  rbIn := ⟨0, 0, 0, 0, 0⟩
  rbOut := ⟨0, 0, 0, 0, 0⟩
  rxStageBase := 0
  txStageBase := 0
  flags := 0#4
  rxPending := 0
  inited := false
  app := ⟨.idle, 0, [0#8, 0#8, 0#8, 0#8, 0#8, 0#8, 0#8, 0#8], 0, false⟩
  wm := []
  hwLog := []
  hwTxInflight := 0
  cfg := Config.cfgT
  inputs := []
  opnd := Operands.zero
  ringOut := Response.nothing
  appOut := Response.nothing
  cfgOut := none
  freeCount := 0

end Sys2Proof.Machine
end

