-- ==== Sys2Proof/Machine/Flags.lean ====
section
/-!
DEFINITION. The `FLAGS` register: its four bits (10_state.md R29), the atomic single-bit set and clear (20_memory.md
R70), and the tests of several flags, each one read of the register (R71).
-/

namespace Sys2Proof.Machine

/-- The four flags (R29). -/
inductive Flag where
  | txConnected
  | txBusy
  | rxBufferFull
  | rxBufferQueued
  deriving DecidableEq, Repr

/-- Bit positions (R29). -/
def flagBit : Flag → Nat
  | .txConnected => 0
  | .txBusy => 1
  | .rxBufferFull => 2
  | .rxBufferQueued => 3

/-- Reading one bit of `FLAGS`. -/
def flagOf (v : BitVec 4) (f : Flag) : Bool := v.getLsbD (flagBit f)

/-- `FLAGS.f`. -/
def State.flag (s : State) (f : Flag) : Bool := flagOf s.flags f

/-- `FLAGS.f <- 1`: the atomic single-bit set (R70). -/
def State.setFlag (s : State) (f : Flag) : State := { s with flags := s.flags ||| (1#4 <<< flagBit f) }

/-- `FLAGS.f <- 0`: the atomic single-bit clear (R70). -/
def State.clearFlag (s : State) (f : Flag) : State := { s with flags := s.flags &&& ~~~(1#4 <<< flagBit f) }

/-- `FLAGS` as `XPT.INIT` leaves it: `tx_connected` alone (43_initialisation.md R180). -/
def flagsAfterInit : BitVec 4 := 0b0001#4

/-- The test of `APP.WRITE` phase 2: `tx_busy = 0 and tx_connected = 1`, one read of `FLAGS` (R71, R163). -/
def mayStartTransfer (v : BitVec 4) : Bool := !flagOf v .txBusy && flagOf v .txConnected

/-- The guard of `EVT.OUT_NAK`: `rx_buffer_full = 0 and rx_buffer_queued = 0`, one read of `FLAGS` (R71, R144). -/
def mayArm (v : BitVec 4) : Bool := !flagOf v .rxBufferFull && !flagOf v .rxBufferQueued

end Sys2Proof.Machine
end

