-- ==== Sys2Proof/Machine/Ops.lean ====
section
/-!
DEFINITION. The shared operations: sequencing of outcomes, reads and writes of `WM` (20_memory.md R63, R64), ring
addressing and pointer arithmetic (00_scope.md R10), the five ring primitives (40_ring_primitives.md R121 to R125), the two
requests to the USB stack (60_exceptions.md R207, R208), and event dispatch (R197).
-/

namespace Sys2Proof.Machine

/-- The outcome of an operation that yields an `α`. -/
abbrev Result (α : Type) := Host.Outcome α Fault Refusal

/-- First `o`, then `k` on what it yields; a fault or a refusal of `o` ends it. -/
def andThen {α β : Type} (o : Result α) (k : α → Result β) : Result β :=
  match o with
  | .next a => k a
  | .fault f => .fault f
  | .refused r => .refused r

/-! ### Work memory -/

/-- `WM[a]`. -/
def Memory.read : Memory → Nat → Byte
  | [], _ => Memory.unlisted
  | (x, b) :: rest, a => if a = x then b else Memory.read rest a

/-- `WM[a] <- v`, in canonical form. -/
def Memory.write : Memory → Nat → Byte → Memory
  | [], a, v => if v = Memory.unlisted then [] else [(a, v)]
  | (x, b) :: rest, a, v =>
    if a < x then (if v = Memory.unlisted then (x, b) :: rest else (a, v) :: (x, b) :: rest)
    else if a = x then (if v = Memory.unlisted then rest else (a, v) :: rest)
    else (x, b) :: Memory.write rest a v

/-- `<WM[a], ..., WM[a+n-1]>` (R63). -/
def Memory.readBytes (m : Memory) : Nat → Nat → Bytes
  | _, 0 => []
  | a, n + 1 => m.read a :: Memory.readBytes m (a + 1) n

/-- `WM[a + k] <- v[k]` for every `k`, and no other byte (R64). -/
def Memory.writeBytes : Memory → Nat → Bytes → Memory
  | m, _, [] => m
  | m, a, b :: bs => Memory.writeBytes (m.write a b) (a + 1) bs

/-- The byte sequence lies inside the address space: `a + n <= 2^ADDR_W` (R63). -/
def insideMemory (c : Config) (a n : Nat) : Bool := decide (a + n ≤ 2 ^ c.addrW)

/-- `MemRead(a, n)` (R63). -/
def load (a n : Nat) (s : State) : Result Bytes :=
  if insideMemory s.cfg a n then .next (s.wm.readBytes a n) else .fault .outsideMemory

/-- `MemWrite(a, n, v)` with `n` the length of `v` (R64). -/
def store (a : Nat) (v : Bytes) (s : State) : Result State :=
  if insideMemory s.cfg a v.length then .next { s with wm := s.wm.writeBytes a v } else .fault .outsideMemory

/-! ### Rings -/

/-- `CAPACITY[r]` (R10). -/
def capacity (c : Config) : Ring → Nat
  | .inbound => c.inCapacity
  | .outbound => c.outCapacity

/-- `inc_r(x) = (x + 1) mod CAPACITY[r]` (R10). -/
def incIndex (cap x : Nat) : Nat := (x + 1) % cap

/-- The registers of ring `r`. -/
def State.rb (s : State) : Ring → RingRegs
  | .inbound => s.rbIn
  | .outbound => s.rbOut

/-- Ring `r` with the registers `q`. -/
def State.setRb (s : State) (r : Ring) (q : RingRegs) : State :=
  match r with
  | .inbound => { s with rbIn := q }
  | .outbound => { s with rbOut := q }

/-- `slot_r(i) = rb[r].base + i * FRAME_SIZE` (R10). -/
def slotAddr (s : State) (r : Ring) (i : Nat) : Nat := (s.rb r).base + i * s.cfg.frameSize

/-- `empty[r]` (10_state.md R28). -/
def State.ringEmpty (s : State) (r : Ring) : Bool := decide ((s.rb r).count = 0)

/-- `full[r]` (10_state.md R28). -/
def State.ringFull (s : State) (r : Ring) : Bool := decide ((s.rb r).count = capacity s.cfg r)

/-- The largest value of `ovf`, `2^OVF_W - 1` (R25). -/
def ovfMax : Nat := 2 ^ ovfW - 1

/-- The ring registers after an insert: on a full ring `tail` advances and `ovf` counts one (saturating), otherwise `count`
grows; `head` advances (R122). -/
def regsAfterInsert (cap : Nat) (q : RingRegs) : RingRegs :=
  if q.count = cap then
    { q with tail := incIndex cap q.tail, ovf := min (q.ovf + 1) ovfMax, head := incIndex cap q.head }
  else { q with count := q.count + 1, head := incIndex cap q.head }

/-- The ring registers after removing the oldest frame (R123). -/
def regsAfterPop (cap : Nat) (q : RingRegs) : RingRegs :=
  { q with tail := incIndex cap q.tail, count := q.count - 1 }

/-- The primitive `RB.INIT(r, base)` (R121). -/
def initRing (r : Ring) (base : Nat) (s : State) : State := s.setRb r ⟨base, 0, 0, 0, 0⟩

/-- The primitive `RB.INSERT(r, frame)` (R122). -/
def insertFrame (r : Ring) (frame : Bytes) (s : State) : Result State :=
  andThen (store (slotAddr s r (s.rb r).head) frame s) fun s1 =>
    .next (s1.setRb r (regsAfterInsert (capacity s.cfg r) (s.rb r)))

/-- The primitive `RB.POP(r)` (R123): the frame removed, or `none` from an empty ring, which changes nothing. -/
def popFrame (r : Ring) (s : State) : Result (Option Bytes × State) :=
  if s.ringEmpty r then .next (none, s)
  else andThen (load (slotAddr s r (s.rb r).tail) s.cfg.frameSize s) fun f =>
    .next (some f, s.setRb r (regsAfterPop (capacity s.cfg r) (s.rb r)))

/-- The `result` of a pop: `FRAME_SIZE` if a frame was removed, else 0 (R123, R129). -/
def popResult (c : Config) : Option Bytes → Nat
  | some _ => c.frameSize
  | none => 0

/-- The primitive `RB.COUNT(r)` (R124). -/
def ringCount (r : Ring) (s : State) : Nat := (s.rb r).count

/-- The primitive `RB.FLUSH(r)` (R125): `base` and `ovf` stay. -/
def flushRing (r : Ring) (s : State) : State :=
  s.setRb r { s.rb r with head := 0, tail := 0, count := 0 }

/-! ### Requests to the USB stack -/

/-- `emit HW.WRITE(EP_IN, MemRead(tx_stage_base, FRAME_SIZE))` (R207). -/
def emitWrite (s : State) : Result State :=
  andThen (load s.txStageBase s.cfg.frameSize s) fun d =>
    .next { s with hwLog := s.hwLog ++ [.write s.cfg.epIn d], hwTxInflight := s.hwTxInflight + 1 }

/-- `emit HW.RDREQ(EP_OUT, RX_STAGING_SIZE)` (R208). -/
def emitRdreq (s : State) : State :=
  { s with hwLog := s.hwLog ++ [.rdreq s.cfg.epOut s.cfg.rxStagingSize] }

/-! ### Acceptance of commands -/

/-- Every command but `XPT.INIT` is refused while `inited = 0` (43_initialisation.md R184). -/
def whenInited (s : State) (k : State → Result State) : Result State :=
  if s.inited then k s else .refused .notInited

/-- Event dispatch, the block's trap entry and return (60_exceptions.md R197, R198): the handler is chosen by the command
word, runs to completion as one transition, saves nothing and changes nothing of the application sequencer; on return there
is nothing to restore. -/
def dispatchEvent (handler : State → Result State) (s : State) : Result State := whenInited s handler

/-- A command completed at a ring port and returned `out` (30_encoding.md R98). -/
def State.ringReturn (s : State) (out : Response) : State := { s with ringOut := out }

/-- A command completed at the application port and returned `out`: `app.cmd <- idle` (R98, R160). -/
def State.appReturn (s : State) (out : Response) : State :=
  { s with appOut := out, app := { s.app with cmd := .idle } }

end Sys2Proof.Machine
end

