-- ==== Sys2Proof/Machine/Operands.lean ====
section
/-!
DEFINITION. Operands and ports: which port each command belongs to (30_encoding.md R92), acceptance of a presented word
(R100, R201), the operand ports of R97 latched and read at their widths, and when an event is held back (R203, R204).
-/

namespace Sys2Proof.Machine

/-- The port of each command (R92): R format at the port of the ring its `ring` bit selects (DEDUCED, safe, log 11). -/
def portOf : Instr → Port
  | .rbInit r => .ring r
  | .rbInsert r => .ring r
  | .rbPop r => .ring r
  | .rbCount r => .ring r
  | .rbFlush r => .ring r
  | .appReadCount => .app
  | .appRead => .app
  | .appWrite => .app
  | .appFlush => .app
  | .evtInComplete => .event
  | .evtOutComplete _ => .event
  | .evtOutNak => .event
  | .xptInit => .config

/-- A word presented at a port: `Illegal` if it is no command, `WrongPort` if it is one of another port (R100). -/
def acceptWord (port : Port) (cw : Word) : Except Refusal Instr :=
  match decode cw with
  | .error e => .error (.illegal e)
  | .ok i => if portOf i = port then .ok i else .error .wrongPort

/-- The operand ports take the values that travel beside the word (R97). -/
def State.latch (s : State) (ops : Operands) : State := { s with opnd := ops }

/-- `wdata`, a frame of `FRAME_SIZE` bytes (R97). -/
def withFrameOperand (s : State) (k : Bytes → Result State) : Result State :=
  if s.opnd.wdata.length = s.cfg.frameSize then k s.opnd.wdata else .refused .operandWidth

/-- A value fits the `ADDR_W` bits of `opnd_a` and `opnd_b` (R97). -/
def fitsAddr (c : Config) (v : Nat) : Bool := decide (v < 2 ^ c.addrW)

/-- `opnd_a` (R97). -/
def withAddrOperand (s : State) (k : Nat → Result State) : Result State :=
  if fitsAddr s.cfg s.opnd.opndA then k s.opnd.opndA else .refused .operandWidth

/-- `opnd_a` and `opnd_b` (R97). -/
def withRegionOperand (s : State) (k : Nat → Nat → Result State) : Result State :=
  if fitsAddr s.cfg s.opnd.opndA && fitsAddr s.cfg s.opnd.opndB then k s.opnd.opndA s.opnd.opndB
  else .refused .operandWidth

/-- Bytes that the environment puts into the RX staging buffer, `n` of them: `EnvProtocol` above `RX_STAGING_SIZE`
(R142, R144), else the `n` bytes of the operand (R97). -/
def withDelivery (s : State) (n : Nat) (data : Bytes) (k : Bytes → Result State) : Result State :=
  if s.cfg.rxStagingSize < n then .refused .envProtocol
  else if data.length = n then k data
  else .refused .operandWidth

/-- An event that ENV may not deliver yet: with `APP_PREEMPTIBLE = false` an event waits until the application command in
progress is over (R203 c, R204; log 10). -/
def eventHeld (port : Port) (s : State) : Bool :=
  decide (port = .event) && !s.cfg.appPreemptible && s.inited && decide (s.app.cmd ≠ .idle)

end Sys2Proof.Machine
end

