-- ==== Sys2Proof/Machine/Event.lean ====
section
/-!
DEFINITION. The E format: the interrupt event handler (41_event_handler.md R141 to R144).
-/

namespace Sys2Proof.Machine

/-- The frame-extraction loop (R143), `fuel` bounding its iterations: while `rx_pending_bytes >= FRAME_SIZE`, frame `i` of
the RX staging buffer goes into the inbound ring. -/
def extractLoop : Nat → Nat → State → Result State
  | 0, _, s => .next s
  | fuel + 1, i, s =>
    if s.cfg.frameSize ≤ s.rxPending then
      andThen (load (s.rxStageBase + i * s.cfg.frameSize) s.cfg.frameSize s) fun f =>
        andThen (insertFrame .inbound f s) fun s1 =>
          extractLoop fuel (i + 1) { s1 with rxPending := s1.rxPending - s1.cfg.frameSize }
    else .next s

/-- `extract()` (R143). A frame has at least one byte (R7), so the loop ends within `rx_pending_bytes` iterations. -/
def extract (s : State) : Result State := extractLoop s.rxPending 0 s

/-- The bytes arrive in the RX staging buffer, their number is assigned to `rx_pending_bytes` (not added), and the whole
frames among them are extracted: the common part of R142 and R144. -/
def deliver (data : Bytes) (s : State) : Result State :=
  andThen (store s.rxStageBase data s) fun s1 => extract { s1 with rxPending := data.length }

/-- One IN transfer is answered (60_exceptions.md R206, ENV1); with none outstanding the count stays 0 (DEDUCED, log 15). -/
def answerTransfer (s : State) : State := { s with hwTxInflight := s.hwTxInflight - 1 }

/-- The pop into the TX staging buffer (R141): the state after it, and whether there was a frame. -/
def popToStaging (s : State) : Result (Option Bytes × State) :=
  andThen (popFrame .outbound s) fun p =>
    match p.1 with
    | none => .next (none, p.2)
    | some f => andThen (store p.2.txStageBase f p.2) fun s2 => .next (some f, s2)

/-- The handler of IN-complete (R141). -/
def inCompleteHandler (s : State) : Result State :=
  let s1 := (answerTransfer s).clearFlag .txBusy
  if s1.ringEmpty .outbound then .next s1
  else andThen (popToStaging s1) fun p => emitWrite (p.2.setFlag .txBusy)

/-- The end of the handler of OUT-complete (R142): what becomes of `rx_buffer_queued` and `rx_buffer_full`. -/
def closeDelivery (s : State) : State :=
  if s.flag .rxBufferQueued then
    if 0 < s.rxPending then (s.clearFlag .rxBufferQueued).setFlag .rxBufferFull
    else s.clearFlag .rxBufferQueued
  else s

/-- The handler of OUT-complete (R142). -/
def outCompleteHandler (len : Nat) (s : State) : Result State :=
  withDelivery s len s.opnd.evData fun data =>
    andThen (deliver data s) fun s1 => .next (closeDelivery s1)

/-- The handler of OUT-NAK (R144): it arms if neither flag is set, and otherwise does nothing at all. -/
def outNakHandler (s : State) : Result State :=
  if mayArm s.flags then
    withDelivery s s.opnd.avail s.opnd.availData fun data =>
      andThen (deliver data (emitRdreq s)) fun s1 => .next (s1.setFlag .rxBufferQueued)
  else .next s

/-- `EVT.IN_COMPLETE` (R141). -/
def execEvtInComplete (s : State) : Result State := dispatchEvent inCompleteHandler s

/-- `EVT.OUT_COMPLETE len, ev_data` (R142). -/
def execEvtOutComplete (len : Nat) (s : State) : Result State := dispatchEvent (outCompleteHandler len) s

/-- `EVT.OUT_NAK [avail, avail_data]` (R144). -/
def execEvtOutNak (s : State) : Result State := dispatchEvent outNakHandler s

end Sys2Proof.Machine
end

