-- ==== Sys2Proof/Machine/App.lean ====
section
/-!
DEFINITION. The A format: the application interface (42_application_interface.md R160 to R164), its phases one by one, the
phase step (60_exceptions.md R203 b) and the issue of a command (R203 a, R204).
-/

namespace Sys2Proof.Machine

/-- `app.phase <- k`. -/
def State.toPhase (s : State) (k : Nat) : State := { s with app := { s.app with phase := k } }

/-- `APP.READ_COUNT` phase 1 (R161). -/
def readCountPhase1 (s : State) : Result State := .next (s.appReturn ⟨some (ringCount .inbound s), none⟩)

/-- `APP.READ` phase 1 (R162): the pop; an empty pop leaves `app.frame` as it is (R123). -/
def readPhase1 (s : State) : Result State :=
  andThen (popFrame .inbound s) fun p =>
    .next { p.2 with
      app := { s.app with n := popResult s.cfg p.1, frame := p.1.getD s.app.frame, phase := 2 } }

/-- `APP.READ` phase 2 (R162): the flag is cleared always; with `result = 0` no frame is delivered (R98; log 8). -/
def readPhase2 (s : State) : Result State :=
  .next ((s.clearFlag .rxBufferFull).appReturn
    ⟨some s.app.n, if s.app.n = 0 then none else some s.app.frame⟩)

/-- What `APP.WRITE` returns whenever it completes: `FRAME_SIZE` (R163, R165). -/
def writeResponse (s : State) : Response := ⟨some s.cfg.frameSize, none⟩

/-- `APP.WRITE` phase 1 (R163): the insert. -/
def writePhase1 (s : State) : Result State :=
  andThen (insertFrame .outbound s.app.frame s) fun s1 => .next (s1.toPhase 2)

/-- `APP.WRITE` phase 2 (R163): one read of `FLAGS` decides whether a transfer is started. -/
def writePhase2 (s : State) : Result State :=
  let s1 := { s with app := { s.app with t := mayStartTransfer s.flags } }
  if s1.app.t then .next (s1.toPhase 3) else .next (s1.appReturn (writeResponse s1))

/-- `APP.WRITE` phase 3 (R163): the pop into the TX staging buffer; on an empty ring the command ends (corner case e). -/
def writePhase3 (s : State) : Result State :=
  andThen (popToStaging s) fun p =>
    let s1 := { p.2 with app := { p.2.app with n := popResult s.cfg p.1 } }
    if s1.app.n ≠ 0 then .next (s1.toPhase 4) else .next (s1.appReturn (writeResponse s1))

/-- `APP.WRITE` phase 4 (R163): `tx_busy` is set before the request (R239). -/
def writePhase4 (s : State) : Result State := .next ((s.setFlag .txBusy).toPhase 5)

/-- `APP.WRITE` phase 5 (R163): the request, and the command returns. -/
def writePhase5 (s : State) : Result State :=
  andThen (emitWrite s) fun s1 => .next (s1.appReturn (writeResponse s1))

/-- `APP.FLUSH` phase 1 (R164). -/
def flushPhase1 (s : State) : Result State := .next ((flushRing .inbound s).toPhase 2)

/-- `APP.FLUSH` phase 2 (R164). -/
def flushPhase2 (s : State) : Result State := .next ((flushRing .outbound s).appReturn Response.nothing)

/-- The phase step: the phase `app.phase` of the command `app.cmd` (R36, R160, R203 b). -/
def appPhase (s : State) : Result State :=
  match s.app.cmd, s.app.phase with
  | .idle, _ => .next s
  | .readCount, 1 => readCountPhase1 s
  | .read, 1 => readPhase1 s
  | .read, 2 => readPhase2 s
  | .write, 1 => writePhase1 s
  | .write, 2 => writePhase2 s
  | .write, 3 => writePhase3 s
  | .write, 4 => writePhase4 s
  | .write, 5 => writePhase5 s
  | .flush, 1 => flushPhase1 s
  | .flush, 2 => flushPhase2 s
  | _, _ => .fault .noSuchPhase

/-- At most `n` phase steps back to back, until the sequencer is idle (30_encoding.md R102, R204). -/
def runPhases : Nat → State → Result State
  | 0, s => .next s
  | n + 1, s => if s.app.cmd = .idle then .next s else andThen (appPhase s) (runPhases n)

/-- The most phases a command has (R163). -/
def maxPhases : Nat := 5

/-- The turn of the application context in the schedule (R203 b): the next phase, if a command is in progress. From
`inited = 0` no phase runs (R203). -/
def appTurn (s : State) : Result State :=
  if s.inited && decide (s.app.cmd ≠ .idle) then appPhase s else .next s

/-- Issuing sets `app.cmd` to the command and `app.phase` to 1 (R160). -/
def State.issue (s : State) (cmd : AppCmd) : State := { s with app := { s.app with cmd := cmd, phase := 1 } }

/-- A command is issued: a step of its own when `APP_PREEMPTIBLE` (R203 a), the whole command otherwise (R204). -/
def startCommand (cmd : AppCmd) (s : State) : Result State :=
  if s.cfg.appPreemptible then .next (s.issue cmd) else runPhases maxPhases (s.issue cmd)

/-- A command is accepted after initialisation (R184) and only when the sequencer is idle, else `AppBusy` (R160). -/
def whenIdle (s : State) (k : State → Result State) : Result State :=
  whenInited s fun s => if s.app.cmd = .idle then k s else .refused .appBusy

/-- `APP.READ_COUNT` (R161). -/
def execAppReadCount (s : State) : Result State := whenIdle s (startCommand .readCount)

/-- `APP.READ` (R162). -/
def execAppRead (s : State) : Result State := whenIdle s (startCommand .read)

/-- `APP.WRITE frame` (R163): the frame is latched into `app.frame` at issue (R160). -/
def execAppWrite (s : State) : Result State :=
  whenIdle s fun s => withFrameOperand s fun frame =>
    startCommand .write { s with app := { s.app with frame := frame } }

/-- `APP.FLUSH` (R164). -/
def execAppFlush (s : State) : Result State := whenIdle s (startCommand .flush)

end Sys2Proof.Machine
end

