-- ==== Sys2Proof/Machine/Init.lean ====
section
/-!
DEFINITION. The I format: transport initialisation (43_initialisation.md R180 to R184).
-/

namespace Sys2Proof.Machine

/-- `align_up(a) = ceil(a / ALIGN) * ALIGN` (R181). -/
def alignUp (c : Config) (a : Nat) : Nat := (a + (c.align - 1)) / c.align * c.align

/-- The five addresses of R181, unbounded naturals. -/
structure Layout where
  a0 : Nat
  a1 : Nat
  a2 : Nat
  a3 : Nat
  a4 : Nat
  deriving DecidableEq, Repr

/-- The layout formulas (R181). -/
def carve (c : Config) (memBase : Nat) : Layout :=
  let a0 := alignUp c memBase
  let a1 := alignUp c (a0 + c.rxStagingSize)
  let a2 := alignUp c (a1 + c.txStagingSize)
  let a3 := alignUp c (a2 + c.inCapacity * c.frameSize)
  let a4 := alignUp c (a3 + c.outCapacity * c.frameSize)
  ⟨a0, a1, a2, a3, a4⟩

/-- What `XPT.INIT` writes, but for what it returns (R180). -/
def initialise (l : Layout) (s : State) : State :=
  let s1 := initRing .outbound l.a3 (initRing .inbound l.a2 { s with rxStageBase := l.a0, txStageBase := l.a1 })
  { s1 with flags := flagsAfterInit, rxPending := 0, app := { s1.app with cmd := .idle }, inited := true }

/-- `ret_a <- a4`, `ret_b <- b` (R180). `ret_a` has `ADDR_W` bits (R98): for `a4 = 2^ADDR_W` the spec states no value, and
it is a free value of that width (DESIGN CHOICE, log 16). -/
def returnRegion (a4 b : Nat) (s : State) : State :=
  if fitsAddr s.cfg a4 then { s with cfgOut := some (a4, b) }
  else { s with cfgOut := some (Config.freeAddr s.freeCount % 2 ^ s.cfg.addrW, b), freeCount := s.freeCount + 1 }

/-- The four regions do not fit in the region given, or pass the top of the address space (R183 a). -/
def noRoom (c : Config) (l : Layout) (memBase memSize : Nat) : Bool :=
  decide (memSize < l.a4 - memBase) || decide (2 ^ c.addrW < l.a4)

/-- `XPT.INIT mem_base, mem_size` (R180, R183). -/
def execXptInit (s : State) : Result State :=
  if s.inited then .refused .alreadyInited
  else withRegionOperand s fun memBase memSize =>
    let l := carve s.cfg memBase
    if noRoom s.cfg l memBase memSize then .refused .noMemory
    else .next (returnRegion l.a4 (memSize - (l.a4 - memBase)) (initialise l s))

/-! ### Placing one command (log 20) -/

/-- Operand ports of the right widths for a command placed by `State.withFetchWord`: zero bytes, `mem_base` 0, and a
`mem_size` that is just enough (DESIGN CHOICE, log 20). -/
def placedOperands (c : Config) (i : Instr) : Operands where
  wdata := List.replicate c.frameSize 0#8
  opndA := 0
  opndB := (carve c 0).a4
  evData := match i with
    | .evtOutComplete len => List.replicate len 0#8
    | _ => []
  avail := 0
  availData := []

/-- A state in which the block accepts the placed command: every command but `XPT.INIT` needs `inited = 1` (R184), so the
step that comes before it from power-on, `XPT.INIT` with `mem_base` 0, is taken to have run (log 20). -/
def readyFor (i : Instr) (s : State) : State :=
  if i = .xptInit || s.inited then s else initialise (carve s.cfg 0) s

/-- The stimulus that presents a placed word: a command at its own port, an illegal word at the configuration port. -/
def placedStimulus (c : Config) (cw : Word) : Stimulus :=
  match decode cw with
  | .ok i => .present (portOf i) cw (placedOperands c i)
  | .error _ => .present .config cw Operands.zero

/-- The state that `placedStimulus` needs. -/
def readyForWord (cw : Word) (s : State) : State :=
  match decode cw with
  | .ok i => readyFor i s
  | .error _ => s

end Sys2Proof.Machine
end

