-- ==== Sys2Proof/Machine/RingPort.lean ====
section
/-!
DEFINITION. The R format: the five ring primitives as commands at a ring port (40_ring_primitives.md R121 to R125).
-/

namespace Sys2Proof.Machine

/-- `RB.INIT r, base` (R121). -/
def execRbInit (r : Ring) (s : State) : Result State :=
  whenInited s fun s => withAddrOperand s fun base => .next ((initRing r base s).ringReturn Response.nothing)

/-- `RB.INSERT r, frame` (R122). -/
def execRbInsert (r : Ring) (s : State) : Result State :=
  whenInited s fun s => withFrameOperand s fun frame =>
    andThen (insertFrame r frame s) fun s1 => .next (s1.ringReturn Response.nothing)

/-- `RB.POP r` (R123): the result, and the frame if there was one. -/
def execRbPop (r : Ring) (s : State) : Result State :=
  whenInited s fun s => andThen (popFrame r s) fun p =>
    .next (p.2.ringReturn ⟨some (popResult s.cfg p.1), p.1⟩)

/-- `RB.COUNT r` (R124). -/
def execRbCount (r : Ring) (s : State) : Result State :=
  whenInited s fun s => .next (s.ringReturn ⟨some (ringCount r s), none⟩)

/-- `RB.FLUSH r` (R125). -/
def execRbFlush (r : Ring) (s : State) : Result State :=
  whenInited s fun s => .next ((flushRing r s).ringReturn Response.nothing)

end Sys2Proof.Machine
end

