-- ==== Sys2Proof/Machine/Dispatch.lean ====
section
/-!
DEFINITION. The dispatch: one arm per constructor of Instr, each one direct call of its meaning.
-/

namespace Sys2Proof.Machine

def exec (i : Instr) (s : State) : Host.Outcome State Fault Refusal :=
  match i with
  | .rbInit r => Sys2Proof.Machine.execRbInit r s
  | .rbInsert r => Sys2Proof.Machine.execRbInsert r s
  | .rbPop r => Sys2Proof.Machine.execRbPop r s
  | .rbCount r => Sys2Proof.Machine.execRbCount r s
  | .rbFlush r => Sys2Proof.Machine.execRbFlush r s
  | .appReadCount => Sys2Proof.Machine.execAppReadCount s
  | .appRead => Sys2Proof.Machine.execAppRead s
  | .appWrite => Sys2Proof.Machine.execAppWrite s
  | .appFlush => Sys2Proof.Machine.execAppFlush s
  | .evtInComplete => Sys2Proof.Machine.execEvtInComplete s
  | .evtOutComplete len => Sys2Proof.Machine.execEvtOutComplete len s
  | .evtOutNak => Sys2Proof.Machine.execEvtOutNak s
  | .xptInit => Sys2Proof.Machine.execXptInit s

end Sys2Proof.Machine
end

