-- ==== Sys2Proof/Machine/Step.lean ====
section
/-!
DEFINITION. The step (60_exceptions.md R203): the first stimulus of `inputs` says which agent moves; and the placing of one
command word as the next thing the machine runs.
-/

namespace Sys2Proof.Machine

/-- One step. With no stimulus left an open application command goes on and an idle block waits (log 5). A held event stays
in `inputs` while the application command in progress goes on (R204). -/
def step (s : State) : Host.Outcome State Fault Refusal :=
  match s.inputs with
  | [] => appTurn s
  | .appTurn :: rest => appTurn { s with inputs := rest }
  | .present port cw ops :: rest =>
    if eventHeld port s then appPhase s
    else
      match acceptWord port cw with
      | .error r => .refused r
      | .ok i => exec i ({ s with inputs := rest }.latch ops)

/-- The command word `w` (bits above `nbits` zero) placed as the next stimulus, at its own port, with operands of the right
widths, in a block that accepts it (log 20). -/
def State.withFetchWord (s : State) (nbits w : Nat) : State :=
  let cw := BitVec.ofNat 32 (w % 2 ^ nbits)
  let s1 := readyForWord cw s
  { s1 with inputs := placedStimulus s1.cfg cw :: s1.inputs }

end Sys2Proof.Machine
end

