-- ==== Sys2Proof/Safety.lean ====
section
/-!
DEFINITION. The terms in which claims about the block are stated: what the next step is going to run, the premises about
the environment (60_exceptions.md R206), runs that keep them, the named TX and RX states (41_event_handler.md R148, R149),
the frames a ring holds (10_state.md R27), the regions of the work memory (20_memory.md R61), and the invariants.
-/

namespace Sys2Proof.Machine

/-- The state an outcome leads to, if it is a next state. -/
def nextOf {α : Type} (o : Result α) : Option α :=
  match o with
  | .next a => some a
  | .fault _ => none
  | .refused _ => none

/-! ### What a step runs -/

/-- What the next step runs (R203). -/
inductive Action where
  /-- Nothing: no command in progress, or no stimulus left for an idle block. -/
  | wait
  /-- A phase of the application command in progress. -/
  | phase (cmd : AppCmd) (k : Nat)
  /-- A presented command. -/
  | command (i : Instr)
  /-- A presented word that is refused. -/
  | reject (why : Refusal)
  deriving DecidableEq, Repr

/-- The turn of the application context. -/
def turnAction (s : State) : Action :=
  if s.inited && decide (s.app.cmd ≠ .idle) then .phase s.app.cmd s.app.phase else .wait

/-- What the next step of `s` runs. -/
def nextAction (s : State) : Action :=
  match s.inputs with
  | [] => turnAction s
  | .appTurn :: _ => turnAction s
  | .present port cw _ :: _ =>
    if eventHeld port s then .phase s.app.cmd s.app.phase
    else
      match acceptWord port cw with
      | .error r => .reject r
      | .ok i => .command i

/-- The operands beside the next stimulus; none if it is not a presented word. -/
def nextOperands (s : State) : Operands :=
  match s.inputs with
  | .present _ _ ops :: _ => ops
  | .appTurn :: _ => Operands.zero
  | [] => Operands.zero

/-! ### Premises (R206) and runs -/

/-- ENV1: an IN-complete is delivered only while an IN transfer is outstanding. -/
def env1 (s : State) : Bool :=
  if nextAction s = .command .evtInComplete then decide (1 ≤ s.hwTxInflight) else true

/-- The composed block: no R-format command arrives from outside, the sequencers alone cause ring primitives (R120). -/
def noTestBench (s : State) : Bool :=
  match nextAction s with
  | .command i => decide (i.format ≠ .R)
  | .wait => true
  | .phase _ _ => true
  | .reject _ => true

/-- A step of the composed block under ENV1. ENV2 to ENV5 need no premise: a step that breaks ENV2 or ENV5 is refused, and
ENV3 and ENV4 hold of every step. -/
def SafeStep (s t : State) : Prop := env1 s = true ∧ noTestBench s = true ∧ step s = .next t

/-- Runs of safe steps. -/
inductive SafeRun (s : State) : State → Prop where
  | start : SafeRun s s
  | snoc {t u : State} (run : SafeRun s t) (last : SafeStep t u) : SafeRun s u

/-- A power-on state (R44, R230): the values the spec gives, and ANY value of its width in every register it leaves
unspecified; any memory. -/
abbrev AtPowerOn (s : State) : Prop :=
  s.inited = false ∧ s.app.cmd = .idle ∧ s.hwLog = [] ∧ s.hwTxInflight = 0 ∧
  s.app.frame.length = s.cfg.frameSize ∧ s.app.n < 2 ^ lenW ∧ s.wm.wf

/-- The power-on state of a block of configuration `c` with the schedule `l` before it: `State.reset` but for these. -/
def powerOn (c : Config) (l : List Stimulus) : State :=
  { State.reset with
    cfg := c, inputs := l, app := { State.reset.app with frame := List.replicate c.frameSize 0#8 } }

/-- Quiescent: no application command half done, no IN transfer outstanding (R211). -/
def quiescent (s : State) : Bool := decide (s.app.cmd = .idle) && decide (s.hwTxInflight = 0)

/-! ### The two state machines -/

/-- The TX states (R148). -/
inductive TxState where
  | idle
  | busy
  deriving DecidableEq, Repr

/-- The RX states (R149). -/
inductive RxState where
  | armable
  | armed
  | full
  deriving DecidableEq, Repr

/-- The TX state is a function of `tx_busy` (R148). -/
def txState (s : State) : TxState := if s.flag .txBusy then .busy else .idle

/-- The RX state is a function of `rx_buffer_full` and `rx_buffer_queued`; both set has no name (R149). -/
def rxState (s : State) : Option RxState :=
  match s.flag .rxBufferFull, s.flag .rxBufferQueued with
  | false, false => some .armable
  | false, true => some .armed
  | true, false => some .full
  | true, true => none

/-! ### Rings and regions -/

/-- The frames ring `r` holds, oldest first: the slots `tail, inc_r(tail), ...`, `count` of them (R27 c). -/
def contents (s : State) (r : Ring) : List Bytes :=
  (List.range (s.rb r).count).map fun k =>
    s.wm.readBytes (slotAddr s r (((s.rb r).tail + k) % capacity s.cfg r)) s.cfg.frameSize

/-- The bytes of ring storage of `r` (R61). -/
def ringBytes (c : Config) (r : Ring) : Nat := capacity c r * c.frameSize

/-- `a` lies in the `n` bytes from `base`. -/
def inSpan (base n a : Nat) : Bool := decide (base ≤ a) && decide (a < base + n)

/-- The storage of ring `r` (R61). -/
def inStorage (s : State) (r : Ring) (a : Nat) : Bool := inSpan (s.rb r).base (ringBytes s.cfg r) a

/-- The four regions of the block (R61). -/
def inRegions (s : State) (a : Nat) : Bool :=
  inSpan s.rxStageBase s.cfg.rxStagingSize a || inSpan s.txStageBase s.cfg.txStagingSize a ||
    inStorage s .inbound a || inStorage s .outbound a

/-- The storage of ring `r` lies inside `WM` (R121). -/
abbrev StorageInside (s : State) (r : Ring) : Prop := (s.rb r).base + ringBytes s.cfg r ≤ 2 ^ s.cfg.addrW

/-- The four regions stand in the order of R181, disjoint, inside `WM` (R62). -/
abbrev LayoutOk (s : State) : Prop :=
  s.rxStageBase + s.cfg.rxStagingSize ≤ s.txStageBase ∧
  s.txStageBase + s.cfg.txStagingSize ≤ s.rbIn.base ∧
  s.rbIn.base + ringBytes s.cfg .inbound ≤ s.rbOut.base ∧
  s.rbOut.base + ringBytes s.cfg .outbound ≤ 2 ^ s.cfg.addrW

/-! ### Invariants -/

/-- The pointers of a ring of capacity `cap`: R22, R23, R25 and R27 (a), (b). -/
abbrev RingRegs.ok (cap : Nat) (q : RingRegs) : Prop :=
  q.head < cap ∧ q.tail < cap ∧ q.count ≤ cap ∧ q.head = (q.tail + q.count) % cap ∧ q.ovf ≤ ovfMax

/-- The pointers of both rings, once `inited = 1` (R27). -/
abbrev RingsOk (s : State) : Prop :=
  s.inited = true →
    (s.rb .inbound).ok (capacity s.cfg .inbound) ∧ (s.rb .outbound).ok (capacity s.cfg .outbound)

/-- `rx_buffer_full` and `rx_buffer_queued` are not both set, once `inited = 1` (R41). -/
abbrev RxFlagsOk (s : State) : Prop :=
  s.inited = true → ¬ (s.flag .rxBufferFull = true ∧ s.flag .rxBufferQueued = true)

/-- How `tx_busy` and the outstanding transfers stand to each other at each position of the sequencer (R42, R209): none
before initialisation; none in phases 3 and 4 of `APP.WRITE` with the flag clear; none in phase 5 with the flag set;
elsewhere the flag is set exactly while one transfer is outstanding. -/
abbrev TxOk (s : State) : Prop :=
  if s.inited = false then s.hwTxInflight = 0
  else if s.app.cmd = .write ∧ (s.app.phase = 3 ∨ s.app.phase = 4) then
    s.hwTxInflight = 0 ∧ s.flag .txBusy = false
  else if s.app.cmd = .write ∧ s.app.phase = 5 then
    s.hwTxInflight = 0 ∧ s.flag .txBusy = true
  else (s.hwTxInflight = 0 ∧ s.flag .txBusy = false) ∨ (s.hwTxInflight = 1 ∧ s.flag .txBusy = true)

/-- `app.phase` names a phase of `app.cmd` (R36, R161 to R164). -/
def phaseOk (a : AppSeq) : Bool :=
  match a.cmd with
  | .idle => true
  | .readCount => decide (a.phase = 1)
  | .read => decide (1 ≤ a.phase) && decide (a.phase ≤ 2)
  | .write => decide (1 ≤ a.phase) && decide (a.phase ≤ 5)
  | .flush => decide (1 ≤ a.phase) && decide (a.phase ≤ 2)

/-- The sequencer: a legal phase, `app.frame` a frame, `app.n` a pop's result (R36, R37). -/
abbrev AppOk (s : State) : Prop :=
  phaseOk s.app = true ∧ s.app.frame.length = s.cfg.frameSize ∧ s.app.n < 2 ^ lenW

/-- After initialisation `rx_pending_bytes` is a remainder below `FRAME_SIZE` (R34). -/
abbrev PendingOk (s : State) : Prop := s.inited = true → s.rxPending < s.cfg.frameSize

/-- The layout, once `inited = 1` (R62). -/
abbrev RegionsOk (s : State) : Prop := s.inited = true → LayoutOk s

/-- What every state of the composed block meets. -/
structure MachineOk (s : State) : Prop where
  config : s.cfg.wf
  memory : s.wm.wf
  rings : RingsOk s
  regions : RegionsOk s
  rxFlags : RxFlagsOk s
  pending : PendingOk s
  app : AppOk s
  tx : TxOk s

/-! ### A ring as a queue (40_ring_primitives.md R127 to R129) -/

/-- A bounded queue that drops its oldest element when full: an insert. -/
def queueInsert (cap : Nat) (q : List Bytes) (f : Bytes) : List Bytes :=
  if q.length = cap then q.drop 1 ++ [f] else q ++ [f]

/-- The registers of a ring of capacity `cap` after `k` inserts, in one formula (R122): `base` stays, `head` advances `k` slots,
`count` grows up to `cap`, and every insert beyond that evicts the oldest frame, which advances `tail` and counts in
`ovf` up to `2^32 - 1`. -/
def regsAfterInserts (cap : Nat) (q : RingRegs) (k : Nat) : RingRegs where
  base := q.base
  head := (q.head + k) % cap
  tail := (q.tail + (q.count + k - cap)) % cap
  count := min (q.count + k) cap
  ovf := min (q.ovf + (q.count + k - cap)) ovfMax

/-- A ring command from a test bench (R120). -/
inductive RingOp where
  | insert (f : Bytes)
  | pop
  | flush
  deriving DecidableEq, Repr

/-- What the queue holds after an operation. -/
def queueAfter (cap : Nat) (q : List Bytes) : RingOp → List Bytes
  | .insert f => queueInsert cap q f
  | .pop => q.drop 1
  | .flush => []

/-- The frame an operation returns. -/
def queueOut (q : List Bytes) : RingOp → Option Bytes
  | .insert _ => none
  | .pop => q.head?
  | .flush => none

/-- The command of an operation on ring `r`, with its operand at the port. -/
def ringOpExec (r : Ring) (s : State) : RingOp → Result State
  | .insert f => exec (.rbInsert r) (s.latch { Operands.zero with wdata := f })
  | .pop => exec (.rbPop r) s
  | .flush => exec (.rbFlush r) s

/-- The frames returned by a sequence of operations on the queue, in order, and what it then holds. -/
def queueRun (cap : Nat) : List Bytes → List RingOp → List (Option Bytes) × List Bytes
  | q, [] => ([], q)
  | q, op :: ops =>
    let rest := queueRun cap (queueAfter cap q op) ops
    (queueOut q op :: rest.1, rest.2)

/-- The frames returned by the same sequence on ring `r` of the machine, and the state after it. -/
def ringRun (r : Ring) : State → List RingOp → Result (List (Option Bytes) × State)
  | s, [] => .next ([], s)
  | s, op :: ops =>
    andThen (ringOpExec r s op) fun s1 =>
      andThen (ringRun r s1 ops) fun p => .next (s1.ringOut.rdata :: p.1, p.2)

/-! ### The transmit path -/

/-- The frames of the `HW.WRITE` requests of a log, in order. -/
def sentFrames : List HwReq → List Bytes
  | [] => []
  | .write _ d :: rest => d :: sentFrames rest
  | .rdreq _ _ :: rest => sentFrames rest

/-- The frame that `APP.WRITE` has popped and not yet sent: the TX staging buffer in phases 4 and 5 (R163). -/
def stagedFrame (s : State) : List Bytes :=
  if s.app.cmd = .write ∧ (s.app.phase = 4 ∨ s.app.phase = 5) then
    [s.wm.readBytes s.txStageBase s.cfg.frameSize]
  else []

/-- Every outbound frame still in the block's hands or sent, oldest first: sent, staged, queued. -/
def transmitPath (s : State) : List Bytes :=
  sentFrames s.hwLog ++ stagedFrame s ++ contents s .outbound

/-- The whole frames among delivered bytes, in order (R146). -/
def framesOf (fs : Nat) (data : Bytes) : List Bytes :=
  (List.range (data.length / fs)).map fun j => (data.drop (j * fs)).take fs

/-- A queue after several inserts. -/
def queueInsertAll (cap : Nat) (q : List Bytes) (fs : List Bytes) : List Bytes := fs.foldl (queueInsert cap) q

/-! ### Repeated completions, and states the block cannot tell apart -/

/-- `n` events IN-complete, one after the other (R145). -/
def completions : Nat → State → Result State
  | 0, s => .next s
  | n + 1, s => andThen (exec .evtInComplete s) (completions n)

/-- The states differ in bytes of `WM` only, and in none that holds a frame queued in a ring or staged for a request: in
particular not in a byte written since and still of use (R76). -/
def Alike (s t : State) : Prop :=
  t = { s with wm := t.wm } ∧ (∀ r, contents t r = contents s r) ∧ stagedFrame t = stagedFrame s

end Sys2Proof.Machine
end

