-- ==== Sys2Proof/Certificates/Slice0/Obligations.lean ====
section
/-!
DEFINITION. The statements for the provers. Each docstring names the rules it formalises; numbers such as 0b1101 are the
flag masks of 10_state.md R29 (bit 0 `tx_connected`, 1 `tx_busy`, 2 `rx_buffer_full`, 3 `rx_buffer_queued`).
A conclusion of the form `t = { s with f := t.f, ... }` says that every field of the state but those named is unchanged.
-/

open Sys2Proof Sys2Proof.Machine

/-! ## Encoding -/

/-- Every well-formed command is read back from its word and from the four bytes of its word (R93 to R96, R104). -/
def Obligations.EveryCommandDecodesFromItsOwnWord : Prop :=
  ∀ i : Instr, i.wellFormed = true → decode (encode i) = .ok i ∧ decodeBytes (encodeBytes i) = .ok i

/-- A word that decodes to a command is that command's one word, and the command is well-formed: no two words mean the same
(R99, R101). -/
def Obligations.ADecodedWordIsItsCommandsOnlyWord : Prop :=
  ∀ (cw : Word) (i : Instr), decode cw = .ok i → encode i = cw ∧ i.wellFormed = true

/-- The decoder against the opcode map of R99: a word decodes to a command exactly when one row of the map, and only one,
selects it, and that row is the command's; every other word is illegal (R100). -/
def Obligations.EveryWordIsOneCommandOrIllegal : Prop :=
  ∀ cw : Word,
    match decode cw with
    | .ok i => (opcodeMap.filter fun row => row.selects cw).map (fun row => row.mnemonic) = [i.mnemonic]
    | .error _ => (opcodeMap.filter fun row => row.selects cw) = []

/-- Words written out from the encodings R93 to R96 (vectors N1 to N15). -/
def Obligations.SampleWordsDecodeAsTabulated : Prop :=
  decode 0x10000000#32 = .ok (.rbInit .inbound) ∧ decode 0x11010000#32 = .ok (.rbInsert .outbound) ∧
  decode 0x12010000#32 = .ok (.rbPop .outbound) ∧ decode 0x13000000#32 = .ok (.rbCount .inbound) ∧
  decode 0x14010000#32 = .ok (.rbFlush .outbound) ∧ decode 0x20000000#32 = .ok .appReadCount ∧
  decode 0x21000000#32 = .ok .appRead ∧ decode 0x22000000#32 = .ok .appWrite ∧
  decode 0x23000000#32 = .ok .appFlush ∧ decode 0x30000000#32 = .ok .evtInComplete ∧
  decode 0x31000014#32 = .ok (.evtOutComplete 20) ∧ decode 0x32000000#32 = .ok .evtOutNak ∧
  decode 0x40000000#32 = .ok .xptInit ∧ decodeBytes [0x14#8, 0x00#8, 0x00#8, 0x31#8] = .ok (.evtOutComplete 20) ∧
  decode 0x50000000#32 = .error .reservedClass ∧ decode 0x24000000#32 = .error .reservedOp ∧
  decode 0x20010000#32 = .error .nonzeroRing ∧ decode 0x12000001#32 = .error .nonzeroLen ∧
  decode 0x11020000#32 = .error .nonzeroZ

/-! ## The step -/

/-- A presented word that is a command of its port runs: the step takes it off the schedule, latches its operands and is
the command's meaning (R97, R203 a and c), unless it is an event that an indivisible command holds back (R204). -/
def Obligations.StepRunsThePresentedCommand : Prop :=
  ∀ (s : State) (port : Port) (cw : Word) (ops : Operands) (rest : List Stimulus) (i : Instr),
    s.inputs = .present port cw ops :: rest → decode cw = .ok i → portOf i = port →
    (port = .event → s.inited = true → s.cfg.appPreemptible = false → s.app.cmd = .idle) →
    step s = exec i { s with inputs := rest, opnd := ops }

/-- A word that is no command is refused `Illegal`, and a command at the port of another is refused `WrongPort`
(R100, R201), in every state in which no event is held back. Two clauses are the model's: before `XPT.INIT` these reasons
come before the `NotInited` of R184 (the order of refusals, log 12), and an R-format word at the other ring's port is
`WrongPort` (one port for each ring, log 11). -/
def Obligations.StepRefusesIllegalAndMisdirectedWords : Prop :=
  ∀ (s : State) (port : Port) (cw : Word) (ops : Operands) (rest : List Stimulus),
    s.inputs = .present port cw ops :: rest →
    (port = .event → s.inited = true → s.cfg.appPreemptible = false → s.app.cmd = .idle) →
    (∀ e, decode cw = .error e → step s = .refused (.illegal e)) ∧
    (∀ i, decode cw = .ok i → portOf i ≠ port → step s = .refused .wrongPort)

/-- The application's turn runs the phase its sequencer is at, and nothing when no command is in progress (R203 b); with no
stimulus left an open command goes on in the same way (the model's choice, log 5). -/
def Obligations.ApplicationTurnRunsThePhaseInProgress : Prop :=
  ∀ (s : State) (rest : List Stimulus),
    (s.inputs = .appTurn :: rest → s.inited = true → s.app.cmd ≠ .idle → step s = appPhase { s with inputs := rest }) ∧
    (s.inputs = .appTurn :: rest → s.app.cmd = .idle → step s = .next { s with inputs := rest }) ∧
    (s.inputs = [] → s.inited = true → s.app.cmd ≠ .idle → step s = appPhase s) ∧
    (s.inputs = [] → s.app.cmd = .idle → step s = .next s)

/-- With `APP_PREEMPTIBLE = false` an event delivered while a command is in progress is not enabled: the command's phase
runs and the event stays for a later step (R203 c). -/
def Obligations.EventWaitsWhileCommandIsIndivisible : Prop :=
  ∀ (s : State) (cw : Word) (ops : Operands) (rest : List Stimulus),
    s.inputs = .present .event cw ops :: rest → s.inited = true → s.cfg.appPreemptible = false → s.app.cmd ≠ .idle →
    step s = appPhase s

/-! ## Refusals -/

/-- Before initialisation every command but `XPT.INIT` is refused `NotInited` (R184). -/
def Obligations.UninitialisedBlockRefusesEveryOtherCommand : Prop :=
  ∀ (i : Instr) (s : State), s.inited = false → i ≠ .xptInit → exec i s = .refused .notInited

/-- An application command presented while another is in progress is refused `AppBusy` (R160). -/
def Obligations.ApplicationCommandWhileBusyIsRefused : Prop :=
  ∀ (i : Instr) (s : State), i.format = .A → s.inited = true → s.app.cmd ≠ .idle → exec i s = .refused .appBusy

/-- `b = align_up(a)` of R181, said without the model's formula: the least multiple of `ALIGN` that is at least `a`. -/
def AlignedUp (c : Config) (a b : Nat) : Prop := c.align ∣ b ∧ a ≤ b ∧ b < a + c.align

/-- `XPT.INIT` is refused `AlreadyInited` once it has run, and `NoMemory` when the region it is given is shorter than the
four regions need or they would pass the top of the address space (R183); the addresses are those of R181. -/
def Obligations.InitialisationRefusedWithoutRoomOrTwice : Prop :=
  ∀ s : State, s.cfg.wf →
    (s.inited = true → exec .xptInit s = .refused .alreadyInited) ∧
    (∀ a0 a1 a2 a3 a4, s.inited = false → s.opnd.opndA < 2 ^ s.cfg.addrW → s.opnd.opndB < 2 ^ s.cfg.addrW →
      AlignedUp s.cfg s.opnd.opndA a0 → AlignedUp s.cfg (a0 + s.cfg.nXfer * s.cfg.frameSize) a1 →
      AlignedUp s.cfg (a1 + s.cfg.frameSize) a2 → AlignedUp s.cfg (a2 + s.cfg.inCapacity * s.cfg.frameSize) a3 →
      AlignedUp s.cfg (a3 + s.cfg.outCapacity * s.cfg.frameSize) a4 →
      (s.opnd.opndB < a4 - s.opnd.opndA ∨ 2 ^ s.cfg.addrW < a4) → exec .xptInit s = .refused .noMemory)

/-! ## Initialisation -/

/-- What `XPT.INIT` leaves (R180, R181, R231): the bases of the four regions, both rings empty, `FLAGS = 0b0001`, nothing
pending, the sequencer idle, `inited`; it returns the remaining region. Where the carved end is `2^ADDR_W`, `ret_a` is the
model's free value (log 16). -/
def Obligations.InitialisationLeavesTheInitialState : Prop :=
  ∀ (s : State) (a0 a1 a2 a3 a4 : Nat), s.cfg.wf →
    s.inited = false → s.opnd.opndA < 2 ^ s.cfg.addrW → s.opnd.opndB < 2 ^ s.cfg.addrW →
    AlignedUp s.cfg s.opnd.opndA a0 → AlignedUp s.cfg (a0 + s.cfg.nXfer * s.cfg.frameSize) a1 →
    AlignedUp s.cfg (a1 + s.cfg.frameSize) a2 → AlignedUp s.cfg (a2 + s.cfg.inCapacity * s.cfg.frameSize) a3 →
    AlignedUp s.cfg (a3 + s.cfg.outCapacity * s.cfg.frameSize) a4 →
    a4 - s.opnd.opndA ≤ s.opnd.opndB → a4 ≤ 2 ^ s.cfg.addrW →
    ∃ t ra, exec .xptInit s = .next t ∧ t.app.cmd = .idle ∧
      t = { s with
        rxStageBase := a0, txStageBase := a1, rbIn := ⟨a2, 0, 0, 0, 0⟩, rbOut := ⟨a3, 0, 0, 0, 0⟩,
        flags := 0b0001#4, rxPending := 0, app := t.app, inited := true,
        cfgOut := some (ra, s.opnd.opndB - (a4 - s.opnd.opndA)), freeCount := t.freeCount } ∧
      ra < 2 ^ s.cfg.addrW ∧ (a4 < 2 ^ s.cfg.addrW → ra = a4)

/-- The four regions `XPT.INIT` carves are disjoint, in the order of R181, inside the region given and inside `WM` (R62). The
size returned is what the carved end `a4` leaves of the region given; for `a4` below `2^ADDR_W` the region returned starts
past the four and is the rest of the region given (R182). At `a4 = 2^ADDR_W` its base is the model's free value (log 16). -/
def Obligations.CarvedRegionsAreDisjointAndInside : Prop :=
  ∀ s t : State, s.cfg.wf → exec .xptInit s = .next t →
    LayoutOk t ∧ s.opnd.opndA ≤ t.rxStageBase ∧
    t.rbOut.base + ringBytes t.cfg .outbound ≤ s.opnd.opndA + s.opnd.opndB ∧
    ∃ ra rb, t.cfgOut = some (ra, rb) ∧ rb ≤ s.opnd.opndB ∧
      ∀ a0 a1 a2 a3 a4,
        AlignedUp s.cfg s.opnd.opndA a0 → AlignedUp s.cfg (a0 + s.cfg.nXfer * s.cfg.frameSize) a1 →
        AlignedUp s.cfg (a1 + s.cfg.frameSize) a2 → AlignedUp s.cfg (a2 + s.cfg.inCapacity * s.cfg.frameSize) a3 →
        AlignedUp s.cfg (a3 + s.cfg.outCapacity * s.cfg.frameSize) a4 →
        rb = s.opnd.opndB - (a4 - s.opnd.opndA) ∧
        (a4 < 2 ^ s.cfg.addrW →
          t.rbOut.base + ringBytes t.cfg .outbound ≤ ra ∧ ra + rb = s.opnd.opndA + s.opnd.opndB)

/-! ## Ring primitives -/

/-- `RB.INIT r, base` (R121): base taken, pointers, count and overflow zero, no memory byte and nothing else changed. -/
def Obligations.RingInitSetsTheRingRegisters : Prop :=
  ∀ (r : Ring) (s : State), s.inited = true → s.opnd.opndA < 2 ^ s.cfg.addrW →
    ∃ t, exec (.rbInit r) s = .next t ∧ t.rb r = ⟨s.opnd.opndA, 0, 0, 0, 0⟩ ∧ (∀ r', r' ≠ r → t.rb r' = s.rb r') ∧
      t = { s with rbIn := t.rbIn, rbOut := t.rbOut, ringOut := ⟨none, none⟩ }

/-- `RB.INSERT r, frame` (R122): the frame goes into the slot at `head`; on a full ring `tail` advances and `ovf` counts
one, saturating, otherwise `count` grows; `head` advances; no other byte, no other ring and nothing else changes. -/
def Obligations.InsertWritesTheHeadSlotAndAdvances : Prop :=
  ∀ (r : Ring) (s : State), s.inited = true → s.wm.wf → s.opnd.wdata.length = s.cfg.frameSize →
    slotAddr s r (s.rb r).head + s.cfg.frameSize ≤ 2 ^ s.cfg.addrW →
    ∃ t, exec (.rbInsert r) s = .next t ∧
      t.rb r =
        (if (s.rb r).count = capacity s.cfg r then
          { s.rb r with
            head := ((s.rb r).head + 1) % capacity s.cfg r
            tail := ((s.rb r).tail + 1) % capacity s.cfg r
            ovf := min ((s.rb r).ovf + 1) (2 ^ 32 - 1) }
        else { s.rb r with head := ((s.rb r).head + 1) % capacity s.cfg r, count := (s.rb r).count + 1 }) ∧
      (∀ k, (h : k < s.opnd.wdata.length) → t.wm.read (slotAddr s r (s.rb r).head + k) = s.opnd.wdata[k]) ∧
      (∀ a, a < slotAddr s r (s.rb r).head ∨ slotAddr s r (s.rb r).head + s.cfg.frameSize ≤ a →
        t.wm.read a = s.wm.read a) ∧
      (∀ r', r' ≠ r → t.rb r' = s.rb r') ∧
      t = { s with rbIn := t.rbIn, rbOut := t.rbOut, wm := t.wm, ringOut := ⟨none, none⟩ }

/-- `RB.POP r` (R123): from an empty ring result 0, no frame and no register changed; otherwise the frame of the slot at
`tail`, result `FRAME_SIZE`, `tail` advanced and `count` one less. No byte of memory changes. -/
def Obligations.PopReturnsTheTailSlotOrZero : Prop :=
  ∀ (r : Ring) (s : State), s.inited = true →
    ((s.rb r).count = 0 → exec (.rbPop r) s = .next { s with ringOut := ⟨some 0, none⟩ }) ∧
    ((s.rb r).count ≠ 0 → slotAddr s r (s.rb r).tail + s.cfg.frameSize ≤ 2 ^ s.cfg.addrW →
      ∃ t, exec (.rbPop r) s = .next t ∧
        t.rb r = { s.rb r with
          tail := ((s.rb r).tail + 1) % capacity s.cfg r
          count := (s.rb r).count - 1 } ∧
        (∀ r', r' ≠ r → t.rb r' = s.rb r') ∧
        t = { s with
          rbIn := t.rbIn, rbOut := t.rbOut
          ringOut := ⟨some s.cfg.frameSize,
            some (s.wm.readBytes (slotAddr s r (s.rb r).tail) s.cfg.frameSize)⟩ })

/-- `RB.COUNT r` (R124) returns the number of frames held and changes nothing. -/
def Obligations.CountReturnsTheFramesHeld : Prop :=
  ∀ (r : Ring) (s : State), s.inited = true →
    exec (.rbCount r) s = .next { s with ringOut := ⟨some (s.rb r).count, none⟩ }

/-- `RB.FLUSH r` (R125) zeroes `head`, `tail` and `count`; `base`, `ovf`, the bytes and everything else stay. -/
def Obligations.FlushZeroesPointersAndCount : Prop :=
  ∀ (r : Ring) (s : State), s.inited = true →
    ∃ t, exec (.rbFlush r) s = .next t ∧ t.rb r = ⟨(s.rb r).base, 0, 0, 0, (s.rb r).ovf⟩ ∧
      (∀ r', r' ≠ r → t.rb r' = s.rb r') ∧
      t = { s with rbIn := t.rbIn, rbOut := t.rbOut, ringOut := ⟨none, none⟩ }

/-- A ring is a bounded first-in first-out queue that drops its oldest frame when full: for every sequence of inserts, pops
and flushes at a ring port the frames returned, in order, are the queue's, and the ring then holds what the queue holds
(R127, R128, R27 c). -/
def Obligations.RingActsAsALossyQueue : Prop :=
  ∀ (r : Ring) (s : State) (ops : List RingOp), s.inited = true → s.cfg.wf → s.wm.wf →
    (s.rb r).ok (capacity s.cfg r) → StorageInside s r →
    (∀ op ∈ ops, ∀ f, op = .insert f → f.length = s.cfg.frameSize) →
    ∃ t, ringRun r s ops = .next ((queueRun (capacity s.cfg r) (contents s r) ops).1, t) ∧
      contents t r = (queueRun (capacity s.cfg r) (contents s r) ops).2

/-- First in, first out without loss (R127): frames inserted into an empty ring, no more than it holds, come out of as many
pops in the order they went in. -/
def Obligations.FramesWithinCapacityComeOutInOrder : Prop :=
  ∀ (r : Ring) (s : State) (fs : List Bytes), s.inited = true → s.cfg.wf → s.wm.wf →
    (s.rb r).ok (capacity s.cfg r) → (s.rb r).count = 0 → StorageInside s r →
    fs.length ≤ capacity s.cfg r → (∀ f ∈ fs, f.length = s.cfg.frameSize) →
    ∃ t, ringRun r s (fs.map RingOp.insert ++ List.replicate fs.length RingOp.pop) =
        .next (List.replicate fs.length none ++ fs.map some, t) ∧ (t.rb r).count = 0

/-! ## Events -/

/-- `EVT.IN_COMPLETE` (R141): with the outbound ring empty `tx_busy` is cleared and nothing is sent; otherwise the oldest
frame goes through the TX staging buffer to one `HW.WRITE` and `tx_busy` is set. A delivery that answers an outstanding
transfer lowers their number by one before the write raises it (R206, R207). -/
def Obligations.InCompleteSendsTheOldestFrameOrGoesIdle : Prop :=
  ∀ s : State, s.inited = true →
    (s.rbOut.count = 0 →
      ∃ t, exec .evtInComplete s = .next t ∧
        t = { s with flags := s.flags &&& 0b1101#4, hwTxInflight := t.hwTxInflight } ∧
        (1 ≤ s.hwTxInflight → t.hwTxInflight = s.hwTxInflight - 1)) ∧
    (s.rbOut.count ≠ 0 → s.wm.wf → slotAddr s .outbound s.rbOut.tail + s.cfg.frameSize ≤ 2 ^ s.cfg.addrW →
      s.txStageBase + s.cfg.frameSize ≤ 2 ^ s.cfg.addrW →
      ∃ t, exec .evtInComplete s = .next t ∧
        t.wm.readBytes s.txStageBase s.cfg.frameSize =
          s.wm.readBytes (slotAddr s .outbound s.rbOut.tail) s.cfg.frameSize ∧
        (∀ a, a < s.txStageBase ∨ s.txStageBase + s.cfg.frameSize ≤ a → t.wm.read a = s.wm.read a) ∧
        t = { s with
          rbOut := { s.rbOut with tail := (s.rbOut.tail + 1) % s.cfg.outCapacity, count := s.rbOut.count - 1 }
          wm := t.wm
          flags := s.flags ||| 0b0010#4
          hwLog := s.hwLog ++
            [.write s.cfg.epIn (s.wm.readBytes (slotAddr s .outbound s.rbOut.tail) s.cfg.frameSize)]
          hwTxInflight := t.hwTxInflight } ∧
        (1 ≤ s.hwTxInflight → t.hwTxInflight = s.hwTxInflight))

/-- TX chaining (R145): with `N` frames queued, the first `N` consecutive IN-completes send one frame each, in order, and
the next finds the ring empty, sends nothing and leaves TX IDLE. -/
def Obligations.ConsecutiveCompletionsDrainTheQueue : Prop :=
  ∀ (s : State) (n : Nat), s.inited = true → s.cfg.wf → s.wm.wf → LayoutOk s → s.rbOut.ok s.cfg.outCapacity →
    (n ≤ s.rbOut.count →
      ∃ t, completions n s = .next t ∧
        sentFrames t.hwLog = sentFrames s.hwLog ++ (contents s .outbound).take n ∧
        contents t .outbound = (contents s .outbound).drop n ∧ t.hwLog.length = s.hwLog.length + n ∧
        (0 < n → txState t = .busy)) ∧
    (n = s.rbOut.count →
      ∃ t u, completions n s = .next t ∧ exec .evtInComplete t = .next u ∧ txState u = .idle ∧ u.hwLog = t.hwLog)

/-- `EVT.OUT_COMPLETE len` (R142, R146): refused above `RX_STAGING_SIZE`; otherwise `len = k*FRAME_SIZE + r` gives `k` frames,
in order, into the inbound ring, whose registers advance by `k` inserts (R122, R143; `base` stays, R21), `r` bytes pending;
the delivered bytes stand in the RX staging buffer, and no byte outside it and the inbound storage changes;
`rx_buffer_queued` is cleared if it was set, and then a remainder sets `rx_buffer_full`; with `rx_buffer_queued` clear no
flag changes. -/
def Obligations.OutCompleteSplitsTheTransferIntoFrames : Prop :=
  ∀ (len : Nat) (s : State), s.inited = true →
    (s.cfg.rxStagingSize < len → exec (.evtOutComplete len) s = .refused .envProtocol) ∧
    (s.cfg.wf → s.wm.wf → LayoutOk s → s.rbIn.ok s.cfg.inCapacity →
      len ≤ s.cfg.rxStagingSize → s.opnd.evData.length = len →
      ∃ t, exec (.evtOutComplete len) s = .next t ∧
        contents t .inbound =
          queueInsertAll s.cfg.inCapacity (contents s .inbound) (framesOf s.cfg.frameSize s.opnd.evData) ∧
        t.rbIn = regsAfterInserts s.cfg.inCapacity s.rbIn (len / s.cfg.frameSize) ∧
        t.rxPending = len % s.cfg.frameSize ∧
        t.flags =
          (if s.flag .rxBufferQueued then
            if 0 < len % s.cfg.frameSize then (s.flags &&& 0b0111#4) ||| 0b0100#4 else s.flags &&& 0b0111#4
          else s.flags) ∧
        t.wm.readBytes s.rxStageBase len = s.opnd.evData ∧
        (∀ a, inSpan s.rxStageBase len a = false → inStorage s .inbound a = false → t.wm.read a = s.wm.read a) ∧
        t = { s with rbIn := t.rbIn, wm := t.wm, rxPending := t.rxPending, flags := t.flags })

/-- `EVT.OUT_NAK` (R144, R147): with either flag set nothing at all; otherwise an answer above `RX_STAGING_SIZE` is refused,
and a lawful one arms: one `HW.RDREQ` for the whole staging buffer, the bytes already available into the staging buffer and
cut into frames as in R143 (the inbound ring's registers advance by as many inserts, `base` stays, R21), `rx_buffer_queued`
set, `rx_buffer_full` not written. -/
def Obligations.OutNakArmsOrDoesNothing : Prop :=
  ∀ s : State, s.inited = true →
    ((s.flag .rxBufferFull = true ∨ s.flag .rxBufferQueued = true) → exec .evtOutNak s = .next s) ∧
    (s.flag .rxBufferFull = false → s.flag .rxBufferQueued = false → s.cfg.rxStagingSize < s.opnd.avail →
      exec .evtOutNak s = .refused .envProtocol) ∧
    (s.flag .rxBufferFull = false → s.flag .rxBufferQueued = false → s.cfg.wf → s.wm.wf → LayoutOk s →
      s.rbIn.ok s.cfg.inCapacity → s.opnd.avail ≤ s.cfg.rxStagingSize → s.opnd.availData.length = s.opnd.avail →
      ∃ t, exec .evtOutNak s = .next t ∧
        t.hwLog = s.hwLog ++ [.rdreq s.cfg.epOut s.cfg.rxStagingSize] ∧
        contents t .inbound =
          queueInsertAll s.cfg.inCapacity (contents s .inbound) (framesOf s.cfg.frameSize s.opnd.availData) ∧
        t.rbIn = regsAfterInserts s.cfg.inCapacity s.rbIn (s.opnd.avail / s.cfg.frameSize) ∧
        t.rxPending = s.opnd.avail % s.cfg.frameSize ∧
        t.flags = s.flags ||| 0b1000#4 ∧
        t.wm.readBytes s.rxStageBase s.opnd.avail = s.opnd.availData ∧
        (∀ a, inSpan s.rxStageBase s.opnd.avail a = false → inStorage s .inbound a = false →
          t.wm.read a = s.wm.read a) ∧
        t = { s with rbIn := t.rbIn, wm := t.wm, rxPending := t.rxPending, flags := t.flags, hwLog := t.hwLog })

/-- The bytes a delivery writes (R142, R143, R144): the delivered bytes from the start of the RX staging buffer, and the
slots from `head` on, one for each whole frame; every other byte of memory reads as before. -/
def Obligations.DeliveryWritesOnlyStagingAndHeadSlots : Prop :=
  ∀ (s t : State) (i : Instr) (n : Nat), s.cfg.wf →
    s.rbIn.head < s.cfg.inCapacity →
    ((i = .evtOutComplete n) ∨ (i = .evtOutNak ∧ n = s.opnd.avail)) → exec i s = .next t →
    ∀ a, (a < s.rxStageBase ∨ s.rxStageBase + n ≤ a) →
      (∀ j, j < n / s.cfg.frameSize →
        a < slotAddr s .inbound ((s.rbIn.head + j) % s.cfg.inCapacity) ∨
          slotAddr s .inbound ((s.rbIn.head + j) % s.cfg.inCapacity) + s.cfg.frameSize ≤ a) →
      t.wm.read a = s.wm.read a

/-- Dispatch of an event saves nothing and changes nothing of the application sequencer (R197, R198), nor of the staging bases,
which `XPT.INIT` alone writes (R26). It leaves the operand ports, the schedule and what the ports returned: an event returns
nothing (R98), and that those fields hold their values is the model's (log 5, 6, 7). -/
def Obligations.EventsLeaveTheApplicationSequencer : Prop :=
  ∀ (i : Instr) (s t : State), i.format = .E → exec i s = .next t →
    t.app = s.app ∧ t.appOut = s.appOut ∧ t.ringOut = s.ringOut ∧ t.cfgOut = s.cfgOut ∧ t.inputs = s.inputs ∧
    t.opnd = s.opnd ∧ t.rxStageBase = s.rxStageBase ∧ t.txStageBase = s.txStageBase

/-- An event never reads the application sequencer (R36, R37, R197): whatever it holds, the event does the same, and leaves
it. -/
def Obligations.EventsDoNotReadTheApplicationSequencer : Prop :=
  ∀ (i : Instr) (s : State) (a : AppSeq), i.format = .E →
    exec i { s with app := a } = andThen (exec i s) fun t => .next { t with app := a }

/-- The RX states after an event (R149, with C2): OUT-NAK takes ARMABLE to ARMED and leaves ARMED and FULL; OUT-complete takes
ARMED to FULL on a remainder and to ARMABLE without one, and leaves ARMABLE and FULL; IN-complete leaves every RX state. -/
def Obligations.ReceiveStateFollowsItsTransitions : Prop :=
  ∀ s t : State, s.cfg.wf →
    (exec .evtOutNak s = .next t → rxState s = some .armable → rxState t = some .armed) ∧
    (exec .evtOutNak s = .next t → rxState s = some .armed → rxState t = some .armed) ∧
    (exec .evtOutNak s = .next t → rxState s = some .full → rxState t = some .full) ∧
    (∀ len, exec (.evtOutComplete len) s = .next t → rxState s = some .armed →
      rxState t = if len % s.cfg.frameSize = 0 then some .armable else some .full) ∧
    (∀ len, exec (.evtOutComplete len) s = .next t → rxState s = some .armable → rxState t = some .armable) ∧
    (∀ len, exec (.evtOutComplete len) s = .next t → rxState s = some .full → rxState t = some .full) ∧
    (exec .evtInComplete s = .next t → rxState t = rxState s)

/-! ## The application interface -/

/-- Issuing an application command (R160, R203 a): `app.cmd` becomes the command, `app.phase` 1, a write's frame is latched
into `app.frame`; nothing else changes. That the issue is a step of its own is log 9; that `app.n`, `app.t` and an unlatched
`app.frame` keep over it the values R37 leaves unspecified while idle is log 18. -/
def Obligations.IssueLatchesTheCommand : Prop :=
  ∀ s : State, s.inited = true → s.app.cmd = .idle → s.cfg.appPreemptible = true →
    exec .appReadCount s = .next { s with app := { s.app with cmd := .readCount, phase := 1 } } ∧
    exec .appRead s = .next { s with app := { s.app with cmd := .read, phase := 1 } } ∧
    exec .appFlush s = .next { s with app := { s.app with cmd := .flush, phase := 1 } } ∧
    (s.opnd.wdata.length = s.cfg.frameSize →
      exec .appWrite s = .next { s with app := { s.app with cmd := .write, phase := 1, frame := s.opnd.wdata } })

/-- `APP.READ_COUNT` phase 1 (R161) returns the inbound count; phases of `APP.FLUSH` (R164) empty the inbound ring, then
the outbound ring, and touch no flag, no `ovf`, no byte and no log. Of the sequencer's temporaries nothing is said once
the command is over (R37). -/
def Obligations.ReadCountAndFlushPhases : Prop :=
  ∀ s : State,
    (s.app.cmd = .readCount → s.app.phase = 1 →
      ∃ t, appPhase s = .next t ∧ t.app.cmd = .idle ∧
        t = { s with appOut := ⟨some s.rbIn.count, none⟩, app := t.app }) ∧
    (s.app.cmd = .flush → s.app.phase = 1 → appPhase s =
      .next { s with rbIn := ⟨s.rbIn.base, 0, 0, 0, s.rbIn.ovf⟩, app := { s.app with phase := 2 } }) ∧
    (s.app.cmd = .flush → s.app.phase = 2 →
      ∃ t, appPhase s = .next t ∧ t.app.cmd = .idle ∧
        t = { s with rbOut := ⟨s.rbOut.base, 0, 0, 0, s.rbOut.ovf⟩, appOut := ⟨none, none⟩, app := t.app })

/-- The phases of `APP.READ` (R162): the pop of the oldest inbound frame, or 0 from an empty ring; then `rx_buffer_full` is
cleared whatever the pop found, and the result returned, with the frame unless it is 0. -/
def Obligations.ReadPopsThenClearsTheFullFlag : Prop :=
  ∀ s : State, s.app.cmd = .read →
    (s.app.phase = 1 → s.rbIn.count = 0 → appPhase s = .next { s with app := { s.app with n := 0, phase := 2 } }) ∧
    (s.app.phase = 1 → s.rbIn.count ≠ 0 → slotAddr s .inbound s.rbIn.tail + s.cfg.frameSize ≤ 2 ^ s.cfg.addrW →
      appPhase s = .next { s with
        rbIn := { s.rbIn with tail := (s.rbIn.tail + 1) % s.cfg.inCapacity, count := s.rbIn.count - 1 }
        app := { s.app with
          n := s.cfg.frameSize
          frame := s.wm.readBytes (slotAddr s .inbound s.rbIn.tail) s.cfg.frameSize
          phase := 2 } }) ∧
    (s.app.phase = 2 →
      ∃ t, appPhase s = .next t ∧ t.app.cmd = .idle ∧
        t = { s with
          flags := s.flags &&& 0b1011#4
          appOut := ⟨some s.app.n, if s.app.n = 0 then none else some s.app.frame⟩
          app := t.app })

/-- The phases of `APP.WRITE` (R163). 1: the latched frame is inserted into the outbound ring. 2: one read of `FLAGS`
decides; `tx_busy` clear and `tx_connected` set go on to phase 3, otherwise the command returns `FRAME_SIZE`. 3: the oldest
outbound frame into the TX staging buffer; an empty ring ends the command. 4: `tx_busy` is set. 5: one `HW.WRITE` of the
staging buffer and the result `FRAME_SIZE`. -/
def Obligations.WriteRunsItsFivePhases : Prop :=
  ∀ s : State, s.app.cmd = .write → 1 ≤ s.cfg.frameSize →
    (s.app.phase = 1 → s.wm.wf → s.app.frame.length = s.cfg.frameSize →
      slotAddr s .outbound s.rbOut.head + s.cfg.frameSize ≤ 2 ^ s.cfg.addrW →
      ∃ t, appPhase s = .next t ∧
        t.wm.readBytes (slotAddr s .outbound s.rbOut.head) s.cfg.frameSize = s.app.frame ∧
        (∀ a, a < slotAddr s .outbound s.rbOut.head ∨ slotAddr s .outbound s.rbOut.head + s.cfg.frameSize ≤ a →
          t.wm.read a = s.wm.read a) ∧
        t = { s with
          rbOut :=
            (if s.rbOut.count = s.cfg.outCapacity then
              { s.rbOut with
                head := (s.rbOut.head + 1) % s.cfg.outCapacity
                tail := (s.rbOut.tail + 1) % s.cfg.outCapacity
                ovf := min (s.rbOut.ovf + 1) (2 ^ 32 - 1) }
            else { s.rbOut with head := (s.rbOut.head + 1) % s.cfg.outCapacity, count := s.rbOut.count + 1 })
          wm := t.wm
          app := { s.app with phase := 2 } }) ∧
    (s.app.phase = 2 → s.flag .txBusy = false → s.flag .txConnected = true →
      appPhase s = .next { s with app := { s.app with t := true, phase := 3 } }) ∧
    (s.app.phase = 2 → (s.flag .txBusy = true ∨ s.flag .txConnected = false) →
      ∃ t, appPhase s = .next t ∧ t.app.cmd = .idle ∧
        t = { s with app := t.app, appOut := ⟨some s.cfg.frameSize, none⟩ }) ∧
    (s.app.phase = 3 → s.rbOut.count = 0 →
      ∃ t, appPhase s = .next t ∧ t.app.cmd = .idle ∧
        t = { s with app := t.app, appOut := ⟨some s.cfg.frameSize, none⟩ }) ∧
    (s.app.phase = 3 → s.rbOut.count ≠ 0 → s.wm.wf →
      slotAddr s .outbound s.rbOut.tail + s.cfg.frameSize ≤ 2 ^ s.cfg.addrW →
      s.txStageBase + s.cfg.frameSize ≤ 2 ^ s.cfg.addrW →
      ∃ t, appPhase s = .next t ∧
        t.wm.readBytes s.txStageBase s.cfg.frameSize =
          s.wm.readBytes (slotAddr s .outbound s.rbOut.tail) s.cfg.frameSize ∧
        (∀ a, a < s.txStageBase ∨ s.txStageBase + s.cfg.frameSize ≤ a → t.wm.read a = s.wm.read a) ∧
        t = { s with
          rbOut := { s.rbOut with tail := (s.rbOut.tail + 1) % s.cfg.outCapacity, count := s.rbOut.count - 1 }
          wm := t.wm
          app := { s.app with n := s.cfg.frameSize, phase := 4 } }) ∧
    (s.app.phase = 4 → appPhase s = .next { s with flags := s.flags ||| 0b0010#4, app := { s.app with phase := 5 } }) ∧
    (s.app.phase = 5 → s.txStageBase + s.cfg.frameSize ≤ 2 ^ s.cfg.addrW →
      ∃ t, appPhase s = .next t ∧ t.app.cmd = .idle ∧
        t = { s with
          hwLog := s.hwLog ++ [.write s.cfg.epIn (s.wm.readBytes s.txStageBase s.cfg.frameSize)]
          hwTxInflight := s.hwTxInflight + 1
          appOut := ⟨some s.cfg.frameSize, none⟩
          app := t.app })

/-- With `APP_PREEMPTIBLE = false` the whole of `APP.READ_COUNT`, `APP.READ` and `APP.FLUSH` is one transition (R204, R161,
R162, R164). -/
def Obligations.IndivisibleReadsAndFlush : Prop :=
  ∀ s : State, s.inited = true → s.app.cmd = .idle → s.cfg.appPreemptible = false → 1 ≤ s.cfg.frameSize →
    (∃ t, exec .appReadCount s = .next t ∧ t.app.cmd = .idle ∧
      t = { s with appOut := ⟨some s.rbIn.count, none⟩, app := t.app }) ∧
    (s.rbIn.count = 0 →
      ∃ t, exec .appRead s = .next t ∧ t.app.cmd = .idle ∧
        t = { s with flags := s.flags &&& 0b1011#4, appOut := ⟨some 0, none⟩, app := t.app }) ∧
    (s.rbIn.count ≠ 0 → slotAddr s .inbound s.rbIn.tail + s.cfg.frameSize ≤ 2 ^ s.cfg.addrW →
      ∃ t, exec .appRead s = .next t ∧ t.app.cmd = .idle ∧
        t = { s with
          rbIn := { s.rbIn with tail := (s.rbIn.tail + 1) % s.cfg.inCapacity, count := s.rbIn.count - 1 }
          flags := s.flags &&& 0b1011#4
          appOut := ⟨some s.cfg.frameSize, some (s.wm.readBytes (slotAddr s .inbound s.rbIn.tail) s.cfg.frameSize)⟩
          app := t.app }) ∧
    (∃ t, exec .appFlush s = .next t ∧ t.app.cmd = .idle ∧
      t = { s with
        rbIn := ⟨s.rbIn.base, 0, 0, 0, s.rbIn.ovf⟩
        rbOut := ⟨s.rbOut.base, 0, 0, 0, s.rbOut.ovf⟩
        appOut := ⟨none, none⟩
        app := t.app })

/-- With `APP_PREEMPTIBLE = false` the whole of `APP.WRITE` is one transition (R204, R163): the frame joins the outbound
queue; if `tx_busy` is clear and `tx_connected` set, the OLDEST frame is sent at once and `tx_busy` set; the result is
`FRAME_SIZE`. `q` is the ring after the insert. -/
def Obligations.IndivisibleWriteQueuesAndMayStart : Prop :=
  ∀ (s : State) (q : RingRegs), s.inited = true → s.app.cmd = .idle → s.cfg.appPreemptible = false → s.cfg.wf → s.wm.wf →
    LayoutOk s → s.rbOut.ok s.cfg.outCapacity → s.opnd.wdata.length = s.cfg.frameSize →
    q = (if s.rbOut.count = s.cfg.outCapacity then
          { s.rbOut with
            head := (s.rbOut.head + 1) % s.cfg.outCapacity
            tail := (s.rbOut.tail + 1) % s.cfg.outCapacity
            ovf := min (s.rbOut.ovf + 1) (2 ^ 32 - 1) }
        else { s.rbOut with head := (s.rbOut.head + 1) % s.cfg.outCapacity, count := s.rbOut.count + 1 }) →
    ∃ t, exec .appWrite s = .next t ∧ t.app.cmd = .idle ∧ t.appOut = ⟨some s.cfg.frameSize, none⟩ ∧
      (s.flag .txBusy = false ∧ s.flag .txConnected = true →
        t.rbOut = { q with tail := (q.tail + 1) % s.cfg.outCapacity, count := q.count - 1 } ∧
        ∃ f rest, queueInsert s.cfg.outCapacity (contents s .outbound) s.opnd.wdata = f :: rest ∧
          contents t .outbound = rest ∧ t.flags = s.flags ||| 0b0010#4 ∧
          t.hwLog = s.hwLog ++ [.write s.cfg.epIn f] ∧ t.hwTxInflight = s.hwTxInflight + 1) ∧
      (s.flag .txBusy = true ∨ s.flag .txConnected = false →
        t.rbOut = q ∧
        contents t .outbound = queueInsert s.cfg.outCapacity (contents s .outbound) s.opnd.wdata ∧
          t.flags = s.flags ∧ t.hwLog = s.hwLog ∧ t.hwTxInflight = s.hwTxInflight) ∧
      contents t .inbound = contents s .inbound ∧
      (∀ a, inSpan s.txStageBase s.cfg.txStagingSize a = false → inStorage s .outbound a = false →
        t.wm.read a = s.wm.read a) ∧
      t = { s with
        rbOut := t.rbOut, wm := t.wm, flags := t.flags, app := t.app, hwLog := t.hwLog
        hwTxInflight := t.hwTxInflight, appOut := t.appOut }

/-- No phase waits (R160): from every state with the storage and the TX staging buffer inside memory, the phases of an
issued command run back to back end with the sequencer idle, after 1, 2, 5 and 2 of them at most. -/
def Obligations.ApplicationCommandCompletesInItsPhases : Prop :=
  ∀ s : State, s.cfg.wf → RingsOk s → s.inited = true → StorageInside s .inbound → StorageInside s .outbound →
    s.txStageBase + s.cfg.frameSize ≤ 2 ^ s.cfg.addrW → s.app.frame.length = s.cfg.frameSize → s.app.phase = 1 →
    (s.app.cmd = .readCount → ∃ t, runPhases 1 s = .next t ∧ t.app.cmd = .idle) ∧
    (s.app.cmd = .read → ∃ t, runPhases 2 s = .next t ∧ t.app.cmd = .idle) ∧
    (s.app.cmd = .write → ∃ t, runPhases 5 s = .next t ∧ t.app.cmd = .idle) ∧
    (s.app.cmd = .flush → ∃ t, runPhases 2 s = .next t ∧ t.app.cmd = .idle)

/-! ## Whole-machine rules -/

/-- Power-on (R230): `inited` is 0, the sequencer idle, no request logged, no transfer outstanding. The other fields of the
reset state are the model's choice (log 1, 3, 4) and nothing is said of them here. -/
def Obligations.PowerOnState : Prop :=
  State.reset.inited = false ∧ State.reset.app.cmd = .idle ∧ State.reset.hwLog = [] ∧ State.reset.hwTxInflight = 0

/-- The reset state of the model is a power-on state, and every power-on state of a configuration that meets R7 meets the
machine's invariant, whatever its unspecified registers, its memory and its schedule hold (R44, R230). -/
def Obligations.PowerOnMeetsTheInvariants : Prop :=
  State.reset.cfg.wf ∧ AtPowerOn State.reset ∧ ∀ s : State, s.cfg.wf → AtPowerOn s → MachineOk s

/-- Every step keeps the memory in canonical form. -/
def Obligations.EveryStepKeepsMemoryCanonical : Prop :=
  ∀ s t : State, s.wm.wf → step s = .next t → t.wm.wf

/-- Every step, a test bench's too, keeps the ring pointers in range, `0 <= count <= CAPACITY` and
`head = (tail + count) mod CAPACITY` (R27 a and b, R22 to R25). -/
def Obligations.EveryStepKeepsTheRingPointers : Prop :=
  ∀ s t : State, s.cfg.wf → RingsOk s → step s = .next t → RingsOk t

/-- Every step keeps `rx_buffer_full` and `rx_buffer_queued` from being both set (R41). -/
def Obligations.EveryStepKeepsReceiveFlagsExclusive : Prop :=
  ∀ s t : State, RxFlagsOk s → step s = .next t → RxFlagsOk t

/-- Under ENV1 every step keeps the relation of `tx_busy` to the transfers outstanding (R42, R209): at most one in flight,
and `tx_busy` set without one only between phases 4 and 5 of `APP.WRITE`. -/
def Obligations.EveryStepKeepsOneTransferInFlight : Prop :=
  ∀ s t : State, TxOk s → env1 s = true → step s = .next t → TxOk t

/-- Every safe step of the composed block keeps the machine's invariant: configuration, canonical memory, ring pointers,
disjoint regions, exclusive receive flags, a remainder below `FRAME_SIZE`, a legal sequencer, one transfer in flight. -/
def Obligations.EverySafeStepKeepsTheMachineInvariant : Prop :=
  ∀ s t : State, MachineOk s → SafeStep s t → MachineOk t

/-- The composed block never faults (R190, R203): from every state of the machine's invariant, under every schedule without a
test bench, no step copies past the address space and no phase is missing. The faults `outsideMemory` (log 14) and
`noSuchPhase` (log 17) are thus unreachable, ENV1 or not. -/
def Obligations.NoStepOfTheComposedBlockFaults : Prop :=
  ∀ (s : State) (f : Fault), MachineOk s → noTestBench s = true → step s ≠ .fault f

/-- At most one IN transfer is in flight in every state a safe run reaches from any power-on state, under every schedule
(R209, R42). -/
def Obligations.AtMostOneTransferInEveryReachableState : Prop :=
  ∀ s t : State, s.cfg.wf → AtPowerOn s → SafeRun s t →
    t.hwTxInflight ≤ 1 ∧ (t.hwTxInflight = 1 → t.flag .txBusy = true)

/-- The source-side derivation in R209 and U8 that phase 3 of `APP.WRITE` never finds the outbound ring empty under ENV1.
It is stated to be refuted: two IN-completes between phases 1 and 2 can empty the ring and clear `tx_busy`. -/
def Obligations.WritePhaseThreeNeverFindsTheRingEmpty : Prop :=
  ∀ s t : State, s.cfg.wf → AtPowerOn s → SafeRun s t →
    t.app.cmd = .write → t.app.phase = 3 → t.rbOut.count ≠ 0

/-- The block never writes a `WM` address outside its four regions (R62), whatever the step, a test bench's too. -/
def Obligations.EveryStepWritesOnlyTheFourRegions : Prop :=
  ∀ s t : State, s.cfg.wf → RingsOk s → AppOk s → step s = .next t →
    ∀ a, inRegions s a = false → t.wm.read a = s.wm.read a

/-- `inited` is never cleared (R35), `tx_connected` never changes after initialisation (R30), the staging bases are written by
`XPT.INIT` only (R26), the configuration never. -/
def Obligations.InitialisationIsForever : Prop :=
  ∀ s t : State, step s = .next t →
    t.cfg = s.cfg ∧
    (s.inited = true → t.inited = true ∧ t.flag .txConnected = s.flag .txConnected ∧
      t.rxStageBase = s.rxStageBase ∧ t.txStageBase = s.txStageBase)

/-- `hw_log` is a history (R38): every step leaves the requests already logged and appends at most one; a logged write is of
`EP_IN` and one frame, a logged read request of `EP_OUT` and the whole staging buffer (R207, R208). -/
def Obligations.EveryStepLogsAtMostOneRequest : Prop :=
  ∀ s t : State, step s = .next t →
    t.hwLog = s.hwLog ∨
    (∃ d, t.hwLog = s.hwLog ++ [.write s.cfg.epIn d] ∧ d.length = s.cfg.frameSize) ∨
    (t.hwLog = s.hwLog ++ [.rdreq s.cfg.epOut s.cfg.rxStagingSize] ∧ t.flag .rxBufferQueued = true)

/-- Only `APP.READ` clears `rx_buffer_full` after initialisation (R32, R237): a step that clears it runs phase 2 of
`APP.READ`, or the whole of it where application commands are indivisible. -/
def Obligations.OnlyReadClearsTheFullFlag : Prop :=
  ∀ s t : State, s.inited = true → step s = .next t → s.flag .rxBufferFull = true → t.flag .rxBufferFull = false →
    nextAction s = .phase .read 2 ∨ (nextAction s = .command .appRead ∧ s.cfg.appPreemptible = false)

/-- What a step does to the outbound queue: an insert in phase 1 of `APP.WRITE`, a flush in phase 2 of `APP.FLUSH`, or the
whole command where application commands are indivisible; no other step adds or drops a frame. -/
def outboundAfter (s : State) : List Bytes :=
  match nextAction s with
  | .phase .write 1 => queueInsert s.cfg.outCapacity (contents s .outbound) s.app.frame
  | .phase .flush 2 => []
  | .command .appWrite =>
    if s.cfg.appPreemptible then contents s .outbound
    else queueInsert s.cfg.outCapacity (contents s .outbound) (nextOperands s).wdata
  | .command .appFlush => if s.cfg.appPreemptible then contents s .outbound else []
  | _ => contents s .outbound

/-- No outbound frame is lost, duplicated or reordered but by an overwrite or a flush: across every safe step the frames
sent, staged and queued, in order, are those before it with the queue changed as `outboundAfter` says (R127, R145, R163,
R166, R240). -/
def Obligations.TransmitPathKeepsEveryFrameInOrder : Prop :=
  ∀ s t : State, s.inited = true → MachineOk s → SafeStep s t →
    transmitPath t = sentFrames s.hwLog ++ stagedFrame s ++ outboundAfter s

/-- What a step does to the inbound queue: a delivery inserts its whole frames, phase 1 of `APP.READ` takes the oldest,
phase 1 of `APP.FLUSH` empties it, or the whole command where application commands are indivisible. -/
def inboundAfter (s : State) : List Bytes :=
  match nextAction s with
  | .phase .read 1 => (contents s .inbound).drop 1
  | .phase .flush 1 => []
  | .command .appRead => if s.cfg.appPreemptible then contents s .inbound else (contents s .inbound).drop 1
  | .command .appFlush => if s.cfg.appPreemptible then contents s .inbound else []
  | .command (.evtOutComplete _) =>
    queueInsertAll s.cfg.inCapacity (contents s .inbound) (framesOf s.cfg.frameSize (nextOperands s).evData)
  | .command .evtOutNak =>
    if mayArm s.flags then
      queueInsertAll s.cfg.inCapacity (contents s .inbound) (framesOf s.cfg.frameSize (nextOperands s).availData)
    else contents s .inbound
  | _ => contents s .inbound

/-- The frames the inbound ring holds change across every safe step as `inboundAfter` says, and in no other way (R78, R142,
R144, R162, R164, R234). -/
def Obligations.ReceivePathKeepsEveryFrameInOrder : Prop :=
  ∀ s t : State, s.inited = true → MachineOk s → SafeStep s t → contents t .inbound = inboundAfter s

/-- Nothing but the application lowers the inbound count (R235, R161): a safe step after which fewer frames are held runs
phase 1 of `APP.READ` or of `APP.FLUSH`, or the whole of it where application commands are indivisible. -/
def Obligations.OnlyTheApplicationLowersTheInboundCount : Prop :=
  ∀ s t : State, s.inited = true → MachineOk s → SafeStep s t → t.rbIn.count < s.rbIn.count →
    nextAction s = .phase .read 1 ∨ nextAction s = .phase .flush 1 ∨
      (s.cfg.appPreemptible = false ∧ (nextAction s = .command .appRead ∨ nextAction s = .command .appFlush))

/-- No byte of `WM` is seen that was not written for a frame still held (R76): two states that differ in other bytes only
take the same step, return the same values, issue the same requests, and differ again in such bytes only. What the model
lets an unwritten byte read as (log 4) is therefore never observed. -/
def Obligations.UnwrittenMemoryIsNeverSeen : Prop :=
  ∀ s s' t : State, MachineOk s → s'.wm.wf → Alike s s' → SafeStep s t → ∃ t', step s' = .next t' ∧ Alike t t'

/-- The race of program P4: with a transfer outstanding, a frame queued and `APP.WRITE` about to test the flags, the event
and the test may come in either order, and the state after both is the same. -/
def Obligations.InCompleteAndTheBusyTestCommute : Prop :=
  ∀ s : State, s.inited = true → s.app.cmd = .write → s.app.phase = 2 → s.flag .txBusy = true → s.rbOut.count ≠ 0 →
    slotAddr s .outbound s.rbOut.tail + s.cfg.frameSize ≤ 2 ^ s.cfg.addrW →
    s.txStageBase + s.cfg.frameSize ≤ 2 ^ s.cfg.addrW →
    ∃ t, andThen (exec .evtInComplete s) appPhase = .next t ∧ andThen (appPhase s) (exec .evtInComplete) = .next t

/-- The hazard of R238: a set of `rx_buffer_full` by an OUT-complete between the two phases of `APP.READ` is lost, and the RX
state is ARMABLE with a remainder pending. -/
def Obligations.FullFlagSetInsideAReadIsLost : Prop :=
  ∀ (s t u : State) (len : Nat), s.cfg.wf → s.app.cmd = .read → s.app.phase = 2 → rxState s = some .armed →
    exec (.evtOutComplete len) s = .next t → 0 < len % s.cfg.frameSize → appPhase t = .next u →
    rxState t = some .full ∧ rxState u = some .armable ∧ u.rxPending = len % s.cfg.frameSize
end

