-- ==== Sys2Proof/Laws/State.lean ====
section
/-!
SUPPORT. The small lemmas of the state: for each named update, one lemma per field (true by definition), one for the ring
accessor and one for the flag accessor. No later proof unfolds a record update.
-/

namespace Sys2Proof.Machine

/-! ### setRb -/

@[simp] theorem setRb_rxStageBase (s : State) (r : Ring) (q : RingRegs) : (s.setRb r q).rxStageBase = s.rxStageBase := by cases r <;> rfl
@[simp] theorem setRb_txStageBase (s : State) (r : Ring) (q : RingRegs) : (s.setRb r q).txStageBase = s.txStageBase := by cases r <;> rfl
@[simp] theorem setRb_flags (s : State) (r : Ring) (q : RingRegs) : (s.setRb r q).flags = s.flags := by cases r <;> rfl
@[simp] theorem setRb_rxPending (s : State) (r : Ring) (q : RingRegs) : (s.setRb r q).rxPending = s.rxPending := by cases r <;> rfl
@[simp] theorem setRb_inited (s : State) (r : Ring) (q : RingRegs) : (s.setRb r q).inited = s.inited := by cases r <;> rfl
@[simp] theorem setRb_app (s : State) (r : Ring) (q : RingRegs) : (s.setRb r q).app = s.app := by cases r <;> rfl
@[simp] theorem setRb_wm (s : State) (r : Ring) (q : RingRegs) : (s.setRb r q).wm = s.wm := by cases r <;> rfl
@[simp] theorem setRb_hwLog (s : State) (r : Ring) (q : RingRegs) : (s.setRb r q).hwLog = s.hwLog := by cases r <;> rfl
@[simp] theorem setRb_hwTxInflight (s : State) (r : Ring) (q : RingRegs) : (s.setRb r q).hwTxInflight = s.hwTxInflight := by cases r <;> rfl
@[simp] theorem setRb_cfg (s : State) (r : Ring) (q : RingRegs) : (s.setRb r q).cfg = s.cfg := by cases r <;> rfl
@[simp] theorem setRb_inputs (s : State) (r : Ring) (q : RingRegs) : (s.setRb r q).inputs = s.inputs := by cases r <;> rfl
@[simp] theorem setRb_opnd (s : State) (r : Ring) (q : RingRegs) : (s.setRb r q).opnd = s.opnd := by cases r <;> rfl
@[simp] theorem setRb_ringOut (s : State) (r : Ring) (q : RingRegs) : (s.setRb r q).ringOut = s.ringOut := by cases r <;> rfl
@[simp] theorem setRb_appOut (s : State) (r : Ring) (q : RingRegs) : (s.setRb r q).appOut = s.appOut := by cases r <;> rfl
@[simp] theorem setRb_cfgOut (s : State) (r : Ring) (q : RingRegs) : (s.setRb r q).cfgOut = s.cfgOut := by cases r <;> rfl
@[simp] theorem setRb_freeCount (s : State) (r : Ring) (q : RingRegs) : (s.setRb r q).freeCount = s.freeCount := by cases r <;> rfl

@[simp] theorem setRb_rb_same (s : State) (r : Ring) (q : RingRegs) : (s.setRb r q).rb r = q := by cases r <;> rfl

theorem setRb_rb_other (s : State) (r r' : Ring) (q : RingRegs) (h : r' ≠ r) : (s.setRb r q).rb r' = s.rb r' := by
  cases r <;> cases r' <;> first | rfl | exact absurd rfl h

@[simp] theorem setRb_in_rbIn (s : State) (q : RingRegs) : (s.setRb .inbound q).rbIn = q := rfl
@[simp] theorem setRb_in_rbOut (s : State) (q : RingRegs) : (s.setRb .inbound q).rbOut = s.rbOut := rfl
@[simp] theorem setRb_out_rbIn (s : State) (q : RingRegs) : (s.setRb .outbound q).rbIn = s.rbIn := rfl
@[simp] theorem setRb_out_rbOut (s : State) (q : RingRegs) : (s.setRb .outbound q).rbOut = q := rfl
@[simp] theorem setRb_in_rb_out (s : State) (q : RingRegs) : (s.setRb .inbound q).rb .outbound = s.rb .outbound := rfl
@[simp] theorem setRb_out_rb_in (s : State) (q : RingRegs) : (s.setRb .outbound q).rb .inbound = s.rb .inbound := rfl
@[simp] theorem setRb_flag (s : State) (r : Ring) (q : RingRegs) (g : Flag) : (s.setRb r q).flag g = s.flag g := by cases r <;> rfl

/-! ### setFlag -/

@[simp] theorem setFlag_rbIn (s : State) (f : Flag) : (s.setFlag f).rbIn = s.rbIn := rfl
@[simp] theorem setFlag_rbOut (s : State) (f : Flag) : (s.setFlag f).rbOut = s.rbOut := rfl
@[simp] theorem setFlag_rxStageBase (s : State) (f : Flag) : (s.setFlag f).rxStageBase = s.rxStageBase := rfl
@[simp] theorem setFlag_txStageBase (s : State) (f : Flag) : (s.setFlag f).txStageBase = s.txStageBase := rfl
@[simp] theorem setFlag_flags (s : State) (f : Flag) : (s.setFlag f).flags = s.flags ||| (1#4 <<< flagBit f) := rfl
@[simp] theorem setFlag_rxPending (s : State) (f : Flag) : (s.setFlag f).rxPending = s.rxPending := rfl
@[simp] theorem setFlag_inited (s : State) (f : Flag) : (s.setFlag f).inited = s.inited := rfl
@[simp] theorem setFlag_app (s : State) (f : Flag) : (s.setFlag f).app = s.app := rfl
@[simp] theorem setFlag_wm (s : State) (f : Flag) : (s.setFlag f).wm = s.wm := rfl
@[simp] theorem setFlag_hwLog (s : State) (f : Flag) : (s.setFlag f).hwLog = s.hwLog := rfl
@[simp] theorem setFlag_hwTxInflight (s : State) (f : Flag) : (s.setFlag f).hwTxInflight = s.hwTxInflight := rfl
@[simp] theorem setFlag_cfg (s : State) (f : Flag) : (s.setFlag f).cfg = s.cfg := rfl
@[simp] theorem setFlag_inputs (s : State) (f : Flag) : (s.setFlag f).inputs = s.inputs := rfl
@[simp] theorem setFlag_opnd (s : State) (f : Flag) : (s.setFlag f).opnd = s.opnd := rfl
@[simp] theorem setFlag_ringOut (s : State) (f : Flag) : (s.setFlag f).ringOut = s.ringOut := rfl
@[simp] theorem setFlag_appOut (s : State) (f : Flag) : (s.setFlag f).appOut = s.appOut := rfl
@[simp] theorem setFlag_cfgOut (s : State) (f : Flag) : (s.setFlag f).cfgOut = s.cfgOut := rfl
@[simp] theorem setFlag_freeCount (s : State) (f : Flag) : (s.setFlag f).freeCount = s.freeCount := rfl
@[simp] theorem setFlag_rb (s : State) (f : Flag) (r' : Ring) : (s.setFlag f).rb r' = s.rb r' := by cases r' <;> rfl

/-! ### clearFlag -/

@[simp] theorem clearFlag_rbIn (s : State) (f : Flag) : (s.clearFlag f).rbIn = s.rbIn := rfl
@[simp] theorem clearFlag_rbOut (s : State) (f : Flag) : (s.clearFlag f).rbOut = s.rbOut := rfl
@[simp] theorem clearFlag_rxStageBase (s : State) (f : Flag) : (s.clearFlag f).rxStageBase = s.rxStageBase := rfl
@[simp] theorem clearFlag_txStageBase (s : State) (f : Flag) : (s.clearFlag f).txStageBase = s.txStageBase := rfl
@[simp] theorem clearFlag_flags (s : State) (f : Flag) : (s.clearFlag f).flags = s.flags &&& ~~~(1#4 <<< flagBit f) := rfl
@[simp] theorem clearFlag_rxPending (s : State) (f : Flag) : (s.clearFlag f).rxPending = s.rxPending := rfl
@[simp] theorem clearFlag_inited (s : State) (f : Flag) : (s.clearFlag f).inited = s.inited := rfl
@[simp] theorem clearFlag_app (s : State) (f : Flag) : (s.clearFlag f).app = s.app := rfl
@[simp] theorem clearFlag_wm (s : State) (f : Flag) : (s.clearFlag f).wm = s.wm := rfl
@[simp] theorem clearFlag_hwLog (s : State) (f : Flag) : (s.clearFlag f).hwLog = s.hwLog := rfl
@[simp] theorem clearFlag_hwTxInflight (s : State) (f : Flag) : (s.clearFlag f).hwTxInflight = s.hwTxInflight := rfl
@[simp] theorem clearFlag_cfg (s : State) (f : Flag) : (s.clearFlag f).cfg = s.cfg := rfl
@[simp] theorem clearFlag_inputs (s : State) (f : Flag) : (s.clearFlag f).inputs = s.inputs := rfl
@[simp] theorem clearFlag_opnd (s : State) (f : Flag) : (s.clearFlag f).opnd = s.opnd := rfl
@[simp] theorem clearFlag_ringOut (s : State) (f : Flag) : (s.clearFlag f).ringOut = s.ringOut := rfl
@[simp] theorem clearFlag_appOut (s : State) (f : Flag) : (s.clearFlag f).appOut = s.appOut := rfl
@[simp] theorem clearFlag_cfgOut (s : State) (f : Flag) : (s.clearFlag f).cfgOut = s.cfgOut := rfl
@[simp] theorem clearFlag_freeCount (s : State) (f : Flag) : (s.clearFlag f).freeCount = s.freeCount := rfl
@[simp] theorem clearFlag_rb (s : State) (f : Flag) (r' : Ring) : (s.clearFlag f).rb r' = s.rb r' := by cases r' <;> rfl

/-! ### latch -/

@[simp] theorem latch_rbIn (s : State) (ops : Operands) : (s.latch ops).rbIn = s.rbIn := rfl
@[simp] theorem latch_rbOut (s : State) (ops : Operands) : (s.latch ops).rbOut = s.rbOut := rfl
@[simp] theorem latch_rxStageBase (s : State) (ops : Operands) : (s.latch ops).rxStageBase = s.rxStageBase := rfl
@[simp] theorem latch_txStageBase (s : State) (ops : Operands) : (s.latch ops).txStageBase = s.txStageBase := rfl
@[simp] theorem latch_flags (s : State) (ops : Operands) : (s.latch ops).flags = s.flags := rfl
@[simp] theorem latch_rxPending (s : State) (ops : Operands) : (s.latch ops).rxPending = s.rxPending := rfl
@[simp] theorem latch_inited (s : State) (ops : Operands) : (s.latch ops).inited = s.inited := rfl
@[simp] theorem latch_app (s : State) (ops : Operands) : (s.latch ops).app = s.app := rfl
@[simp] theorem latch_wm (s : State) (ops : Operands) : (s.latch ops).wm = s.wm := rfl
@[simp] theorem latch_hwLog (s : State) (ops : Operands) : (s.latch ops).hwLog = s.hwLog := rfl
@[simp] theorem latch_hwTxInflight (s : State) (ops : Operands) : (s.latch ops).hwTxInflight = s.hwTxInflight := rfl
@[simp] theorem latch_cfg (s : State) (ops : Operands) : (s.latch ops).cfg = s.cfg := rfl
@[simp] theorem latch_inputs (s : State) (ops : Operands) : (s.latch ops).inputs = s.inputs := rfl
@[simp] theorem latch_opnd (s : State) (ops : Operands) : (s.latch ops).opnd = ops := rfl
@[simp] theorem latch_ringOut (s : State) (ops : Operands) : (s.latch ops).ringOut = s.ringOut := rfl
@[simp] theorem latch_appOut (s : State) (ops : Operands) : (s.latch ops).appOut = s.appOut := rfl
@[simp] theorem latch_cfgOut (s : State) (ops : Operands) : (s.latch ops).cfgOut = s.cfgOut := rfl
@[simp] theorem latch_freeCount (s : State) (ops : Operands) : (s.latch ops).freeCount = s.freeCount := rfl
@[simp] theorem latch_rb (s : State) (ops : Operands) (r' : Ring) : (s.latch ops).rb r' = s.rb r' := by cases r' <;> rfl
@[simp] theorem latch_flag (s : State) (ops : Operands) (g : Flag) : (s.latch ops).flag g = s.flag g := rfl

/-! ### ringReturn -/

@[simp] theorem ringReturn_rbIn (s : State) (out : Response) : (s.ringReturn out).rbIn = s.rbIn := rfl
@[simp] theorem ringReturn_rbOut (s : State) (out : Response) : (s.ringReturn out).rbOut = s.rbOut := rfl
@[simp] theorem ringReturn_rxStageBase (s : State) (out : Response) : (s.ringReturn out).rxStageBase = s.rxStageBase := rfl
@[simp] theorem ringReturn_txStageBase (s : State) (out : Response) : (s.ringReturn out).txStageBase = s.txStageBase := rfl
@[simp] theorem ringReturn_flags (s : State) (out : Response) : (s.ringReturn out).flags = s.flags := rfl
@[simp] theorem ringReturn_rxPending (s : State) (out : Response) : (s.ringReturn out).rxPending = s.rxPending := rfl
@[simp] theorem ringReturn_inited (s : State) (out : Response) : (s.ringReturn out).inited = s.inited := rfl
@[simp] theorem ringReturn_app (s : State) (out : Response) : (s.ringReturn out).app = s.app := rfl
@[simp] theorem ringReturn_wm (s : State) (out : Response) : (s.ringReturn out).wm = s.wm := rfl
@[simp] theorem ringReturn_hwLog (s : State) (out : Response) : (s.ringReturn out).hwLog = s.hwLog := rfl
@[simp] theorem ringReturn_hwTxInflight (s : State) (out : Response) : (s.ringReturn out).hwTxInflight = s.hwTxInflight := rfl
@[simp] theorem ringReturn_cfg (s : State) (out : Response) : (s.ringReturn out).cfg = s.cfg := rfl
@[simp] theorem ringReturn_inputs (s : State) (out : Response) : (s.ringReturn out).inputs = s.inputs := rfl
@[simp] theorem ringReturn_opnd (s : State) (out : Response) : (s.ringReturn out).opnd = s.opnd := rfl
@[simp] theorem ringReturn_ringOut (s : State) (out : Response) : (s.ringReturn out).ringOut = out := rfl
@[simp] theorem ringReturn_appOut (s : State) (out : Response) : (s.ringReturn out).appOut = s.appOut := rfl
@[simp] theorem ringReturn_cfgOut (s : State) (out : Response) : (s.ringReturn out).cfgOut = s.cfgOut := rfl
@[simp] theorem ringReturn_freeCount (s : State) (out : Response) : (s.ringReturn out).freeCount = s.freeCount := rfl
@[simp] theorem ringReturn_rb (s : State) (out : Response) (r' : Ring) : (s.ringReturn out).rb r' = s.rb r' := by cases r' <;> rfl
@[simp] theorem ringReturn_flag (s : State) (out : Response) (g : Flag) : (s.ringReturn out).flag g = s.flag g := rfl

/-! ### appReturn -/

@[simp] theorem appReturn_rbIn (s : State) (out : Response) : (s.appReturn out).rbIn = s.rbIn := rfl
@[simp] theorem appReturn_rbOut (s : State) (out : Response) : (s.appReturn out).rbOut = s.rbOut := rfl
@[simp] theorem appReturn_rxStageBase (s : State) (out : Response) : (s.appReturn out).rxStageBase = s.rxStageBase := rfl
@[simp] theorem appReturn_txStageBase (s : State) (out : Response) : (s.appReturn out).txStageBase = s.txStageBase := rfl
@[simp] theorem appReturn_flags (s : State) (out : Response) : (s.appReturn out).flags = s.flags := rfl
@[simp] theorem appReturn_rxPending (s : State) (out : Response) : (s.appReturn out).rxPending = s.rxPending := rfl
@[simp] theorem appReturn_inited (s : State) (out : Response) : (s.appReturn out).inited = s.inited := rfl
@[simp] theorem appReturn_app (s : State) (out : Response) : (s.appReturn out).app = { s.app with cmd := .idle } := rfl
@[simp] theorem appReturn_wm (s : State) (out : Response) : (s.appReturn out).wm = s.wm := rfl
@[simp] theorem appReturn_hwLog (s : State) (out : Response) : (s.appReturn out).hwLog = s.hwLog := rfl
@[simp] theorem appReturn_hwTxInflight (s : State) (out : Response) : (s.appReturn out).hwTxInflight = s.hwTxInflight := rfl
@[simp] theorem appReturn_cfg (s : State) (out : Response) : (s.appReturn out).cfg = s.cfg := rfl
@[simp] theorem appReturn_inputs (s : State) (out : Response) : (s.appReturn out).inputs = s.inputs := rfl
@[simp] theorem appReturn_opnd (s : State) (out : Response) : (s.appReturn out).opnd = s.opnd := rfl
@[simp] theorem appReturn_ringOut (s : State) (out : Response) : (s.appReturn out).ringOut = s.ringOut := rfl
@[simp] theorem appReturn_appOut (s : State) (out : Response) : (s.appReturn out).appOut = out := rfl
@[simp] theorem appReturn_cfgOut (s : State) (out : Response) : (s.appReturn out).cfgOut = s.cfgOut := rfl
@[simp] theorem appReturn_freeCount (s : State) (out : Response) : (s.appReturn out).freeCount = s.freeCount := rfl
@[simp] theorem appReturn_rb (s : State) (out : Response) (r' : Ring) : (s.appReturn out).rb r' = s.rb r' := by cases r' <;> rfl
@[simp] theorem appReturn_flag (s : State) (out : Response) (g : Flag) : (s.appReturn out).flag g = s.flag g := rfl

/-! ### toPhase -/

@[simp] theorem toPhase_rbIn (s : State) (k : Nat) : (s.toPhase k).rbIn = s.rbIn := rfl
@[simp] theorem toPhase_rbOut (s : State) (k : Nat) : (s.toPhase k).rbOut = s.rbOut := rfl
@[simp] theorem toPhase_rxStageBase (s : State) (k : Nat) : (s.toPhase k).rxStageBase = s.rxStageBase := rfl
@[simp] theorem toPhase_txStageBase (s : State) (k : Nat) : (s.toPhase k).txStageBase = s.txStageBase := rfl
@[simp] theorem toPhase_flags (s : State) (k : Nat) : (s.toPhase k).flags = s.flags := rfl
@[simp] theorem toPhase_rxPending (s : State) (k : Nat) : (s.toPhase k).rxPending = s.rxPending := rfl
@[simp] theorem toPhase_inited (s : State) (k : Nat) : (s.toPhase k).inited = s.inited := rfl
@[simp] theorem toPhase_app (s : State) (k : Nat) : (s.toPhase k).app = { s.app with phase := k } := rfl
@[simp] theorem toPhase_wm (s : State) (k : Nat) : (s.toPhase k).wm = s.wm := rfl
@[simp] theorem toPhase_hwLog (s : State) (k : Nat) : (s.toPhase k).hwLog = s.hwLog := rfl
@[simp] theorem toPhase_hwTxInflight (s : State) (k : Nat) : (s.toPhase k).hwTxInflight = s.hwTxInflight := rfl
@[simp] theorem toPhase_cfg (s : State) (k : Nat) : (s.toPhase k).cfg = s.cfg := rfl
@[simp] theorem toPhase_inputs (s : State) (k : Nat) : (s.toPhase k).inputs = s.inputs := rfl
@[simp] theorem toPhase_opnd (s : State) (k : Nat) : (s.toPhase k).opnd = s.opnd := rfl
@[simp] theorem toPhase_ringOut (s : State) (k : Nat) : (s.toPhase k).ringOut = s.ringOut := rfl
@[simp] theorem toPhase_appOut (s : State) (k : Nat) : (s.toPhase k).appOut = s.appOut := rfl
@[simp] theorem toPhase_cfgOut (s : State) (k : Nat) : (s.toPhase k).cfgOut = s.cfgOut := rfl
@[simp] theorem toPhase_freeCount (s : State) (k : Nat) : (s.toPhase k).freeCount = s.freeCount := rfl
@[simp] theorem toPhase_rb (s : State) (k : Nat) (r' : Ring) : (s.toPhase k).rb r' = s.rb r' := by cases r' <;> rfl
@[simp] theorem toPhase_flag (s : State) (k : Nat) (g : Flag) : (s.toPhase k).flag g = s.flag g := rfl

/-! ### issue -/

@[simp] theorem issue_rbIn (s : State) (c : AppCmd) : (s.issue c).rbIn = s.rbIn := rfl
@[simp] theorem issue_rbOut (s : State) (c : AppCmd) : (s.issue c).rbOut = s.rbOut := rfl
@[simp] theorem issue_rxStageBase (s : State) (c : AppCmd) : (s.issue c).rxStageBase = s.rxStageBase := rfl
@[simp] theorem issue_txStageBase (s : State) (c : AppCmd) : (s.issue c).txStageBase = s.txStageBase := rfl
@[simp] theorem issue_flags (s : State) (c : AppCmd) : (s.issue c).flags = s.flags := rfl
@[simp] theorem issue_rxPending (s : State) (c : AppCmd) : (s.issue c).rxPending = s.rxPending := rfl
@[simp] theorem issue_inited (s : State) (c : AppCmd) : (s.issue c).inited = s.inited := rfl
@[simp] theorem issue_app (s : State) (c : AppCmd) : (s.issue c).app = { s.app with cmd := c, phase := 1 } := rfl
@[simp] theorem issue_wm (s : State) (c : AppCmd) : (s.issue c).wm = s.wm := rfl
@[simp] theorem issue_hwLog (s : State) (c : AppCmd) : (s.issue c).hwLog = s.hwLog := rfl
@[simp] theorem issue_hwTxInflight (s : State) (c : AppCmd) : (s.issue c).hwTxInflight = s.hwTxInflight := rfl
@[simp] theorem issue_cfg (s : State) (c : AppCmd) : (s.issue c).cfg = s.cfg := rfl
@[simp] theorem issue_inputs (s : State) (c : AppCmd) : (s.issue c).inputs = s.inputs := rfl
@[simp] theorem issue_opnd (s : State) (c : AppCmd) : (s.issue c).opnd = s.opnd := rfl
@[simp] theorem issue_ringOut (s : State) (c : AppCmd) : (s.issue c).ringOut = s.ringOut := rfl
@[simp] theorem issue_appOut (s : State) (c : AppCmd) : (s.issue c).appOut = s.appOut := rfl
@[simp] theorem issue_cfgOut (s : State) (c : AppCmd) : (s.issue c).cfgOut = s.cfgOut := rfl
@[simp] theorem issue_freeCount (s : State) (c : AppCmd) : (s.issue c).freeCount = s.freeCount := rfl
@[simp] theorem issue_rb (s : State) (c : AppCmd) (r' : Ring) : (s.issue c).rb r' = s.rb r' := by cases r' <;> rfl
@[simp] theorem issue_flag (s : State) (c : AppCmd) (g : Flag) : (s.issue c).flag g = s.flag g := rfl

/-! ### emitRdreq -/

@[simp] theorem emitRdreq_rbIn (s : State) : (emitRdreq s).rbIn = s.rbIn := rfl
@[simp] theorem emitRdreq_rbOut (s : State) : (emitRdreq s).rbOut = s.rbOut := rfl
@[simp] theorem emitRdreq_rxStageBase (s : State) : (emitRdreq s).rxStageBase = s.rxStageBase := rfl
@[simp] theorem emitRdreq_txStageBase (s : State) : (emitRdreq s).txStageBase = s.txStageBase := rfl
@[simp] theorem emitRdreq_flags (s : State) : (emitRdreq s).flags = s.flags := rfl
@[simp] theorem emitRdreq_rxPending (s : State) : (emitRdreq s).rxPending = s.rxPending := rfl
@[simp] theorem emitRdreq_inited (s : State) : (emitRdreq s).inited = s.inited := rfl
@[simp] theorem emitRdreq_app (s : State) : (emitRdreq s).app = s.app := rfl
@[simp] theorem emitRdreq_wm (s : State) : (emitRdreq s).wm = s.wm := rfl
@[simp] theorem emitRdreq_hwLog (s : State) : (emitRdreq s).hwLog = s.hwLog ++ [.rdreq s.cfg.epOut s.cfg.rxStagingSize] := rfl
@[simp] theorem emitRdreq_hwTxInflight (s : State) : (emitRdreq s).hwTxInflight = s.hwTxInflight := rfl
@[simp] theorem emitRdreq_cfg (s : State) : (emitRdreq s).cfg = s.cfg := rfl
@[simp] theorem emitRdreq_inputs (s : State) : (emitRdreq s).inputs = s.inputs := rfl
@[simp] theorem emitRdreq_opnd (s : State) : (emitRdreq s).opnd = s.opnd := rfl
@[simp] theorem emitRdreq_ringOut (s : State) : (emitRdreq s).ringOut = s.ringOut := rfl
@[simp] theorem emitRdreq_appOut (s : State) : (emitRdreq s).appOut = s.appOut := rfl
@[simp] theorem emitRdreq_cfgOut (s : State) : (emitRdreq s).cfgOut = s.cfgOut := rfl
@[simp] theorem emitRdreq_freeCount (s : State) : (emitRdreq s).freeCount = s.freeCount := rfl
@[simp] theorem emitRdreq_rb (s : State) (r' : Ring) : (emitRdreq s).rb r' = s.rb r' := by cases r' <;> rfl
@[simp] theorem emitRdreq_flag (s : State) (g : Flag) : (emitRdreq s).flag g = s.flag g := rfl

/-! ### answerTransfer -/

@[simp] theorem answerTransfer_rbIn (s : State) : (answerTransfer s).rbIn = s.rbIn := rfl
@[simp] theorem answerTransfer_rbOut (s : State) : (answerTransfer s).rbOut = s.rbOut := rfl
@[simp] theorem answerTransfer_rxStageBase (s : State) : (answerTransfer s).rxStageBase = s.rxStageBase := rfl
@[simp] theorem answerTransfer_txStageBase (s : State) : (answerTransfer s).txStageBase = s.txStageBase := rfl
@[simp] theorem answerTransfer_flags (s : State) : (answerTransfer s).flags = s.flags := rfl
@[simp] theorem answerTransfer_rxPending (s : State) : (answerTransfer s).rxPending = s.rxPending := rfl
@[simp] theorem answerTransfer_inited (s : State) : (answerTransfer s).inited = s.inited := rfl
@[simp] theorem answerTransfer_app (s : State) : (answerTransfer s).app = s.app := rfl
@[simp] theorem answerTransfer_wm (s : State) : (answerTransfer s).wm = s.wm := rfl
@[simp] theorem answerTransfer_hwLog (s : State) : (answerTransfer s).hwLog = s.hwLog := rfl
@[simp] theorem answerTransfer_hwTxInflight (s : State) : (answerTransfer s).hwTxInflight = s.hwTxInflight - 1 := rfl
@[simp] theorem answerTransfer_cfg (s : State) : (answerTransfer s).cfg = s.cfg := rfl
@[simp] theorem answerTransfer_inputs (s : State) : (answerTransfer s).inputs = s.inputs := rfl
@[simp] theorem answerTransfer_opnd (s : State) : (answerTransfer s).opnd = s.opnd := rfl
@[simp] theorem answerTransfer_ringOut (s : State) : (answerTransfer s).ringOut = s.ringOut := rfl
@[simp] theorem answerTransfer_appOut (s : State) : (answerTransfer s).appOut = s.appOut := rfl
@[simp] theorem answerTransfer_cfgOut (s : State) : (answerTransfer s).cfgOut = s.cfgOut := rfl
@[simp] theorem answerTransfer_freeCount (s : State) : (answerTransfer s).freeCount = s.freeCount := rfl
@[simp] theorem answerTransfer_rb (s : State) (r' : Ring) : (answerTransfer s).rb r' = s.rb r' := by cases r' <;> rfl
@[simp] theorem answerTransfer_flag (s : State) (g : Flag) : (answerTransfer s).flag g = s.flag g := rfl

/-! ### The ring accessor -/

@[simp] theorem rb_inbound (s : State) : s.rb .inbound = s.rbIn := rfl
@[simp] theorem rb_outbound (s : State) : s.rb .outbound = s.rbOut := rfl

end Sys2Proof.Machine
end

