-- ==== Sys2Proof/Laws/Flags.lean ====
section
/-!
SUPPORT. What a flag reads after a set or a clear: the flag itself is set or clear, every other flag is as it was
(20_memory.md R70).
-/

namespace Sys2Proof.Machine

@[simp] theorem flagOf_set_same (v : BitVec 4) (f : Flag) : flagOf (v ||| (1#4 <<< flagBit f)) f = true := by
  cases f <;> simp [flagOf, flagBit]

@[simp] theorem flagOf_clear_same (v : BitVec 4) (f : Flag) :
    flagOf (v &&& ~~~(1#4 <<< flagBit f)) f = false := by
  cases f <;> simp [flagOf, flagBit]

theorem flagOf_set_other (v : BitVec 4) (f g : Flag) (h : g ≠ f) :
    flagOf (v ||| (1#4 <<< flagBit f)) g = flagOf v g := by
  cases f <;> cases g <;> first | exact absurd rfl h | simp [flagOf, flagBit]

theorem flagOf_clear_other (v : BitVec 4) (f g : Flag) (h : g ≠ f) :
    flagOf (v &&& ~~~(1#4 <<< flagBit f)) g = flagOf v g := by
  cases f <;> cases g <;> first | exact absurd rfl h | simp [flagOf, flagBit]

/-- A set, read back: one lemma for every pair of flags. -/
@[simp] theorem setFlag_flag (s : State) (f g : Flag) :
    (s.setFlag f).flag g = (decide (g = f) || s.flag g) := by
  by_cases h : g = f
  · subst h; simp [State.flag]
  · simp [State.flag, flagOf_set_other _ _ _ h, h]

/-- A clear, read back: one lemma for every pair of flags. -/
@[simp] theorem clearFlag_flag (s : State) (f g : Flag) :
    (s.clearFlag f).flag g = (!decide (g = f) && s.flag g) := by
  by_cases h : g = f
  · subst h; simp [State.flag]
  · simp [State.flag, flagOf_clear_other _ _ _ h, h]

/-- Setting and clearing leave the other bits of `FLAGS` (R70). -/
theorem mayArm_iff (s : State) :
    mayArm s.flags = true ↔ s.flag .rxBufferFull = false ∧ s.flag .rxBufferQueued = false := by
  simp [mayArm, State.flag]

/-- The test of `APP.WRITE` phase 2 (R163). -/
theorem mayStartTransfer_iff (s : State) :
    mayStartTransfer s.flags = true ↔ s.flag .txBusy = false ∧ s.flag .txConnected = true := by
  simp [mayStartTransfer, State.flag]

/-- Two values of `FLAGS` with the same four flags are equal (R29: no other bit). -/
theorem flags_ext {v w : BitVec 4} (h : ∀ f, flagOf v f = flagOf w f) : v = w := by
  apply BitVec.eq_of_getLsbD_eq
  intro i hi
  match i, hi with
  | 0, _ => exact h .txConnected
  | 1, _ => exact h .txBusy
  | 2, _ => exact h .rxBufferFull
  | 3, _ => exact h .rxBufferQueued

end Sys2Proof.Machine
end

