-- ==== Sys2Proof/Laws/Memory.lean ====
section
/-!
SUPPORT. The laws of the work memory: what a read gives after a write (20_memory.md R63, R64), and that every write keeps
the canonical form.
-/

namespace Sys2Proof.Machine

theorem Memory.nil_wf : Memory.wf [] := by simp [Memory.wf]

/-- A write leaves every other address alone (R64). -/
theorem Memory.read_write_other (m : Memory) (a b : Nat) (v : Byte) (h : b ≠ a) :
    (Memory.write m a v).read b = m.read b := by
  induction m with
  | nil =>
    simp only [Memory.write]
    split <;> simp [Memory.read, h]
  | cons c rest ih =>
    obtain ⟨x, w⟩ := c
    simp only [Memory.write]
    split
    · split <;> simp [Memory.read, h]
    · split
      · rename_i hax
        subst hax
        split <;> simp [Memory.read, h]
      · simp [Memory.read, ih]

/-- Every address below all the listed ones reads as unlisted. -/
theorem Memory.read_of_lt (m : Memory) (a : Nat) (h : ∀ c ∈ m, a < c.1) : m.read a = Memory.unlisted := by
  induction m with
  | nil => rfl
  | cons c rest ih =>
    obtain ⟨x, w⟩ := c
    have hx : a < x := h (x, w) (by simp)
    simp only [Memory.read, Nat.ne_of_lt hx, if_false]
    exact ih fun c hc => h c (by simp [hc])

/-- A read after a write to the same address gives the value written (R64). -/
theorem Memory.read_write_same (m : Memory) (a : Nat) (v : Byte) (hm : m.wf) : (Memory.write m a v).read a = v := by
  obtain ⟨hs, hz⟩ := hm
  induction m with
  | nil =>
    simp only [Memory.write]
    split
    · rename_i h; rw [h]; rfl
    · simp [Memory.read]
  | cons c rest ih =>
    obtain ⟨x, w⟩ := c
    have hrest := List.pairwise_cons.mp hs
    simp only [Memory.write]
    split
    · rename_i hax
      split
      · rename_i hv
        rw [hv]
        exact Memory.read_of_lt _ _ (by
          intro c hc
          rcases List.mem_cons.mp hc with rfl | hc
          · exact hax
          · exact Nat.lt_trans hax (hrest.1 c hc))
      · simp [Memory.read]
    · split
      · rename_i hax
        subst hax
        split
        · rename_i hv
          rw [hv]
          exact Memory.read_of_lt _ _ fun c hc => hrest.1 c hc
        · simp [Memory.read]
      · rename_i hne
        simp only [Memory.read, hne, if_false]
        exact ih hrest.2 fun c hc => hz c (by simp [hc])

/-- An address listed after a write was listed before or is the one written. -/
theorem Memory.mem_write {m : Memory} {a : Nat} {v : Byte} {c : Host.Cell} (h : c ∈ Memory.write m a v) :
    c ∈ m ∨ (c = (a, v) ∧ v ≠ Memory.unlisted) := by
  induction m with
  | nil =>
    simp only [Memory.write] at h
    split at h
    · simp at h
    · rename_i hv; exact .inr ⟨by simpa using h, hv⟩
  | cons d rest ih =>
    obtain ⟨x, w⟩ := d
    simp only [Memory.write] at h
    split at h
    · split at h
      · exact .inl h
      · rename_i hv
        rcases List.mem_cons.mp h with rfl | h
        · exact .inr ⟨rfl, hv⟩
        · exact .inl h
    · split at h
      · split at h
        · exact .inl (by simp [h])
        · rename_i hv
          rcases List.mem_cons.mp h with rfl | h
          · exact .inr ⟨rfl, hv⟩
          · exact .inl (by simp [h])
      · rcases List.mem_cons.mp h with rfl | h
        · exact .inl (by simp)
        · rcases ih h with h | h
          · exact .inl (by simp [h])
          · exact .inr h

/-- A write of one byte keeps the canonical form. -/
theorem Memory.write_wf (m : Memory) (a : Nat) (v : Byte) (hm : m.wf) : (Memory.write m a v).wf := by
  refine ⟨?_, fun c hc => ?_⟩
  · have hs := hm.1
    clear hm
    induction m with
    | nil =>
      simp only [Memory.write]
      split <;> simp
    | cons d rest ih =>
      obtain ⟨x, w⟩ := d
      have hrest := List.pairwise_cons.mp hs
      simp only [Memory.write]
      split
      · rename_i hax
        split
        · exact hs
        · refine List.pairwise_cons.mpr ⟨fun c hc => ?_, hs⟩
          rcases List.mem_cons.mp hc with rfl | hc
          · exact hax
          · exact Nat.lt_trans hax (hrest.1 c hc)
      · rename_i hnlt
        split
        · rename_i hax
          subst hax
          split
          · exact hrest.2
          · exact List.pairwise_cons.mpr ⟨hrest.1, hrest.2⟩
        · rename_i hne
          refine List.pairwise_cons.mpr ⟨fun c hc => ?_, ih hrest.2⟩
          rcases Memory.mem_write hc with hc | ⟨rfl, _⟩
          · exact hrest.1 c hc
          · exact Nat.lt_of_le_of_ne (Nat.le_of_not_lt hnlt) fun h => hne h.symm
  · rcases Memory.mem_write hc with hc | ⟨rfl, hv⟩
    · exact hm.2 c hc
    · exact hv

/-- A write of a byte sequence keeps the canonical form (R64). -/
theorem Memory.writeBytes_wf (m : Memory) (a : Nat) (bs : Bytes) (hm : m.wf) : (m.writeBytes a bs).wf := by
  induction bs generalizing m a with
  | nil => exact hm
  | cons b bs ih => exact ih _ _ (Memory.write_wf m a b hm)

/-- Outside the bytes written every address reads as before (R64). -/
theorem Memory.read_writeBytes_outside (m : Memory) (a x : Nat) (bs : Bytes) (h : x < a ∨ a + bs.length ≤ x) :
    (m.writeBytes a bs).read x = m.read x := by
  induction bs generalizing m a with
  | nil => rfl
  | cons b bs ih =>
    simp only [List.length_cons] at h
    simp only [Memory.writeBytes]
    rw [ih _ _ (by omega), Memory.read_write_other _ _ _ _ (by omega)]

/-- Inside them it reads as the byte written (R64). -/
theorem Memory.read_writeBytes_inside (m : Memory) (a k : Nat) (bs : Bytes) (hm : m.wf) (hk : k < bs.length) :
    (m.writeBytes a bs).read (a + k) = bs[k] := by
  induction bs generalizing m a k with
  | nil => simp at hk
  | cons b bs ih =>
    simp only [Memory.writeBytes]
    cases k with
    | zero =>
      rw [Memory.read_writeBytes_outside _ _ _ _ (by omega)]
      exact Memory.read_write_same m a b hm
    | succ k =>
      have := ih (m.write a b) (a + 1) k (Memory.write_wf m a b hm) (by simpa using hk)
      rw [show a + (k + 1) = a + 1 + k by omega, this]
      rfl

@[simp] theorem Memory.readBytes_length (m : Memory) (a n : Nat) : (m.readBytes a n).length = n := by
  induction n generalizing a with
  | zero => rfl
  | succ n ih => simp [Memory.readBytes, ih]

/-- Byte `k` of `MemRead(a, n)` is `WM[a + k]` (R63). -/
theorem Memory.getElem_readBytes (m : Memory) (a n k : Nat) (hk : k < (m.readBytes a n).length) :
    (m.readBytes a n)[k] = m.read (a + k) := by
  induction n generalizing a k with
  | zero => simp [Memory.readBytes] at hk
  | succ n ih =>
    simp only [Memory.readBytes]
    cases k with
    | zero => rfl
    | succ k =>
      simp only [List.getElem_cons_succ]
      rw [ih (a + 1) k (by simpa [Memory.readBytes] using hk)]
      congr 1
      omega

/-- Two reads agree when the memories agree on the bytes read (R63). -/
theorem Memory.readBytes_congr {m m' : Memory} {a n : Nat} (h : ∀ k < n, m'.read (a + k) = m.read (a + k)) :
    m'.readBytes a n = m.readBytes a n := by
  apply List.ext_getElem (by simp)
  intro k h1 h2
  rw [Memory.getElem_readBytes, Memory.getElem_readBytes]
  exact h k (by simpa using h1)

/-- A sequence read back where it was written (R63, R64). -/
theorem Memory.readBytes_writeBytes_same (m : Memory) (a : Nat) (bs : Bytes) (hm : m.wf) :
    (m.writeBytes a bs).readBytes a bs.length = bs := by
  apply List.ext_getElem (by simp)
  intro k h1 h2
  rw [Memory.getElem_readBytes, Memory.read_writeBytes_inside _ _ _ _ hm h2]

/-- A sequence read elsewhere than it was written (R64). -/
theorem Memory.readBytes_writeBytes_apart (m : Memory) (a b n : Nat) (bs : Bytes)
    (h : b + n ≤ a ∨ a + bs.length ≤ b) : (m.writeBytes a bs).readBytes b n = m.readBytes b n :=
  Memory.readBytes_congr fun k hk => Memory.read_writeBytes_outside _ _ _ _ (by omega)

/-- Part of a sequence just written (R63, R64). -/
theorem Memory.readBytes_writeBytes_part (m : Memory) (a i n : Nat) (bs : Bytes) (hm : m.wf)
    (h : i + n ≤ bs.length) : (m.writeBytes a bs).readBytes (a + i) n = (bs.drop i).take n := by
  apply List.ext_getElem (by simp; omega)
  intro k h1 h2
  have hk : k < n := by simpa using h1
  rw [Memory.getElem_readBytes, Nat.add_assoc, Memory.read_writeBytes_inside _ _ _ _ hm (by omega)]
  simp

end Sys2Proof.Machine
end

