-- ==== Sys2Proof/Laws/Ops.lean ====
section
/-!
SUPPORT. One lemma for each shared operation that says everything it can do: when it answers a next state, and which.
Callers cite these and do not unfold the operation.
-/

namespace Sys2Proof.Machine

/-! ### Sequencing -/

@[simp] theorem andThen_next {α β : Type} (a : α) (k : α → Result β) : andThen (.next a) k = k a := rfl
@[simp] theorem andThen_fault {α β : Type} (f : Fault) (k : α → Result β) :
    andThen (.fault f : Result α) k = .fault f := rfl
@[simp] theorem andThen_refused {α β : Type} (r : Refusal) (k : α → Result β) :
    andThen (.refused r : Result α) k = .refused r := rfl

/-- A sequence answers a next value exactly when both parts do. -/
theorem andThen_eq_next {α β : Type} {o : Result α} {k : α → Result β} {b : β} :
    andThen o k = .next b ↔ ∃ a, o = .next a ∧ k a = .next b := by
  cases o <;> simp

/-! ### Work memory -/

theorem load_eq (a n : Nat) (s : State) (h : a + n ≤ 2 ^ s.cfg.addrW) : load a n s = .next (s.wm.readBytes a n) := by
  simp [load, insideMemory, h]

theorem load_next {a n : Nat} {s : State} {d : Bytes} :
    load a n s = .next d ↔ a + n ≤ 2 ^ s.cfg.addrW ∧ s.wm.readBytes a n = d := by
  simp only [load, insideMemory, decide_eq_true_eq]
  split <;> simp_all

theorem store_eq (a : Nat) (v : Bytes) (s : State) (h : a + v.length ≤ 2 ^ s.cfg.addrW) :
    store a v s = .next { s with wm := s.wm.writeBytes a v } := by
  simp [store, insideMemory, h]

theorem store_next {a : Nat} {v : Bytes} {s t : State} :
    store a v s = .next t ↔ a + v.length ≤ 2 ^ s.cfg.addrW ∧ { s with wm := s.wm.writeBytes a v } = t := by
  simp only [store, insideMemory, decide_eq_true_eq]
  split <;> simp_all

/-! ### Ring primitives -/

theorem insertFrame_eq (r : Ring) (f : Bytes) (s : State)
    (h : slotAddr s r (s.rb r).head + f.length ≤ 2 ^ s.cfg.addrW) :
    insertFrame r f s = .next
      ({ s with wm := s.wm.writeBytes (slotAddr s r (s.rb r).head) f }.setRb r
        (regsAfterInsert (capacity s.cfg r) (s.rb r))) := by
  simp [insertFrame, store_eq _ _ _ h]

theorem insertFrame_next {r : Ring} {f : Bytes} {s t : State} :
    insertFrame r f s = .next t ↔ slotAddr s r (s.rb r).head + f.length ≤ 2 ^ s.cfg.addrW ∧
      { s with wm := s.wm.writeBytes (slotAddr s r (s.rb r).head) f }.setRb r
        (regsAfterInsert (capacity s.cfg r) (s.rb r)) = t := by
  simp [insertFrame, andThen_eq_next, store_next, and_assoc]

theorem popFrame_empty (r : Ring) (s : State) (h : (s.rb r).count = 0) : popFrame r s = .next (none, s) := by
  simp [popFrame, State.ringEmpty, h]

theorem popFrame_eq (r : Ring) (s : State) (h : (s.rb r).count ≠ 0)
    (hin : slotAddr s r (s.rb r).tail + s.cfg.frameSize ≤ 2 ^ s.cfg.addrW) :
    popFrame r s = .next (some (s.wm.readBytes (slotAddr s r (s.rb r).tail) s.cfg.frameSize),
      s.setRb r (regsAfterPop (capacity s.cfg r) (s.rb r))) := by
  simp [popFrame, State.ringEmpty, h, load_eq _ _ _ hin]

/-- A pop answers either `none` from an empty ring, or the frame at `tail`. -/
theorem popFrame_next {r : Ring} {s : State} {p : Option Bytes × State} (h : popFrame r s = .next p) :
    ((s.rb r).count = 0 ∧ p = (none, s)) ∨
    ((s.rb r).count ≠ 0 ∧ slotAddr s r (s.rb r).tail + s.cfg.frameSize ≤ 2 ^ s.cfg.addrW ∧
      p = (some (s.wm.readBytes (slotAddr s r (s.rb r).tail) s.cfg.frameSize),
        s.setRb r (regsAfterPop (capacity s.cfg r) (s.rb r)))) := by
  by_cases hc : (s.rb r).count = 0
  · rw [popFrame_empty _ _ hc] at h
    exact .inl ⟨hc, by simpa using h.symm⟩
  · simp only [popFrame, State.ringEmpty, hc, decide_false, Bool.false_eq_true, if_false, andThen_eq_next, load_next] at h
    obtain ⟨_, ⟨hin, rfl⟩, h⟩ := h
    exact .inr ⟨hc, hin, by simpa using h.symm⟩

/-! ### Requests -/

theorem emitWrite_eq (s : State) (h : s.txStageBase + s.cfg.frameSize ≤ 2 ^ s.cfg.addrW) :
    emitWrite s = .next { s with
      hwLog := s.hwLog ++ [.write s.cfg.epIn (s.wm.readBytes s.txStageBase s.cfg.frameSize)]
      hwTxInflight := s.hwTxInflight + 1 } := by
  simp [emitWrite, load_eq _ _ _ h]

theorem emitWrite_next {s t : State} :
    emitWrite s = .next t ↔ s.txStageBase + s.cfg.frameSize ≤ 2 ^ s.cfg.addrW ∧
      { s with
        hwLog := s.hwLog ++ [.write s.cfg.epIn (s.wm.readBytes s.txStageBase s.cfg.frameSize)]
        hwTxInflight := s.hwTxInflight + 1 } = t := by
  simp [emitWrite, andThen_eq_next, load_next, and_assoc]

/-! ### Acceptance -/

theorem whenInited_next {s t : State} {k : State → Result State} :
    whenInited s k = .next t ↔ s.inited = true ∧ k s = .next t := by
  simp only [whenInited]
  split <;> simp_all

theorem whenInited_eq {s : State} (k : State → Result State) (h : s.inited = true) : whenInited s k = k s := by
  simp [whenInited, h]

/-! ### Ring arithmetic -/

/-- Advancing stays in range (R126). -/
theorem incIndex_lt {cap x : Nat} (h : 0 < cap) : incIndex cap x < cap := Nat.mod_lt _ h

/-- The pointers stay in order across an insert (R27). -/
theorem regsAfterInsert_head (cap : Nat) (q : RingRegs) : (regsAfterInsert cap q).head = incIndex cap q.head := by
  simp only [regsAfterInsert]; split <;> rfl

@[simp] theorem regsAfterInsert_base (cap : Nat) (q : RingRegs) : (regsAfterInsert cap q).base = q.base := by
  simp only [regsAfterInsert]; split <;> rfl

@[simp] theorem regsAfterPop_base (cap : Nat) (q : RingRegs) : (regsAfterPop cap q).base = q.base := rfl

end Sys2Proof.Machine
end

