-- ==== Sys2Proof/Laws/Ring.lean ====
section
/-!
SUPPORT. Ring arithmetic and ring contents: slots are disjoint, what an insert, a pop and a flush do to the frames held, and
that writes outside a ring's storage leave them (10_state.md R27, 40_ring_primitives.md R126).
-/

namespace Sys2Proof.Machine

/-! ### Index arithmetic -/

/-- An index below twice the capacity, taken modulo the capacity. -/
theorem mod_of_lt_two {cap x : Nat} (h : x < 2 * cap) : x % cap = if x < cap then x else x - cap := by
  split
  · exact Nat.mod_eq_of_lt ‹_›
  · rw [Nat.mod_eq_sub_mod (by omega), Nat.mod_eq_of_lt (by omega)]

/-- Different slots do not overlap. -/
theorem slots_apart {fs base i j : Nat} (h : i ≠ j) :
    base + i * fs + fs ≤ base + j * fs ∨ base + j * fs + fs ≤ base + i * fs := by
  rcases Nat.lt_or_gt_of_ne h with h | h
  · exact .inl (by have := Nat.mul_le_mul_right fs h; rw [Nat.succ_mul] at this; omega)
  · exact .inr (by have := Nat.mul_le_mul_right fs h; rw [Nat.succ_mul] at this; omega)

/-- A slot lies inside the ring's storage (R126). -/
theorem slot_inside {s : State} {r : Ring} {i : Nat} (h : i < capacity s.cfg r) :
    slotAddr s r i + s.cfg.frameSize ≤ (s.rb r).base + ringBytes s.cfg r := by
  have := Nat.mul_le_mul_right s.cfg.frameSize (show i + 1 ≤ capacity s.cfg r from h)
  rw [Nat.succ_mul] at this
  simp only [slotAddr, ringBytes]
  omega

/-! ### Spans -/

theorem inSpan_true {base n a : Nat} : inSpan base n a = true ↔ base ≤ a ∧ a < base + n := by simp [inSpan]

theorem inSpan_false {base n a : Nat} : inSpan base n a = false ↔ a < base ∨ base + n ≤ a := by
  simp only [inSpan, Bool.and_eq_false_iff, decide_eq_false_iff_not]; omega

theorem inStorage_true {s : State} {r : Ring} {a : Nat} :
    inStorage s r a = true ↔ (s.rb r).base ≤ a ∧ a < (s.rb r).base + ringBytes s.cfg r := inSpan_true

theorem inStorage_false {s : State} {r : Ring} {a : Nat} :
    inStorage s r a = false ↔ a < (s.rb r).base ∨ (s.rb r).base + ringBytes s.cfg r ≤ a := inSpan_false

/-- Bytes written into a slot of a ring lie in its storage: every address outside it reads as before (R62). -/
theorem read_outside_storage {s : State} {r : Ring} {i a : Nat} {f : Bytes} (h : i < capacity s.cfg r)
    (hf : f.length = s.cfg.frameSize) (ha : inStorage s r a = false) :
    (s.wm.writeBytes (slotAddr s r i) f).read a = s.wm.read a := by
  refine Memory.read_writeBytes_outside _ _ _ _ ?_
  have h1 := slot_inside (s := s) h
  have h2 : (s.rb r).base ≤ slotAddr s r i := Nat.le_add_right _ _
  have h3 := inStorage_false.mp ha
  omega

/-! ### The pointer invariant -/

theorem RingRegs.ok_insert {cap : Nat} {q : RingRegs} (h : q.ok cap) : (regsAfterInsert cap q).ok cap := by
  obtain ⟨hh, ht, hc, he, ho⟩ := h
  have hcap : 0 < cap := by omega
  by_cases hf : q.count = cap
  · simp only [regsAfterInsert, hf, if_true, RingRegs.ok]
    refine ⟨incIndex_lt hcap, incIndex_lt hcap, Nat.le_refl _, ?_, Nat.min_le_right _ _⟩
    rw [he, hf]
    simp [incIndex, Nat.mod_eq_of_lt ht]
  · simp only [regsAfterInsert, hf, if_false, RingRegs.ok]
    refine ⟨incIndex_lt hcap, ht, by omega, ?_, ho⟩
    rw [he]
    simp [incIndex, Nat.add_assoc]

/-- No insert leaves the registers (R22 to R25). -/
theorem regsAfterInserts_zero {cap : Nat} {q : RingRegs} (h : q.ok cap) : regsAfterInserts cap q 0 = q := by
  obtain ⟨hh, ht, hc, _, ho⟩ := h
  have h0 : q.count - cap = 0 := by omega
  simp only [regsAfterInserts, Nat.add_zero, h0, Nat.mod_eq_of_lt hh, Nat.mod_eq_of_lt ht, Nat.min_eq_left hc,
    Nat.min_eq_left ho]

/-- `k + 1` inserts are one and then `k` (R122). -/
theorem regsAfterInserts_succ {cap : Nat} {q : RingRegs} (h : q.ok cap) (k : Nat) :
    regsAfterInserts cap q (k + 1) = regsAfterInserts cap (regsAfterInsert cap q) k := by
  obtain ⟨_, _, hc, _, ho⟩ := h
  simp only [regsAfterInsert, regsAfterInserts]
  generalize ovfMax = top at ho ⊢
  by_cases hf : q.count = cap
  · simp only [hf, if_true, incIndex, Nat.mod_add_mod, RingRegs.mk.injEq]
    exact ⟨trivial, by congr 1; omega, by congr 1; omega, by omega, by omega⟩
  · simp only [hf, if_false, incIndex, Nat.mod_add_mod, RingRegs.mk.injEq]
    exact ⟨trivial, by congr 1; omega, by congr 2; omega, by omega, by congr 2; omega⟩

theorem RingRegs.ok_pop {cap : Nat} {q : RingRegs} (h : q.ok cap) (hne : q.count ≠ 0) : (regsAfterPop cap q).ok cap := by
  obtain ⟨hh, ht, hc, he, ho⟩ := h
  have hcap : 0 < cap := by omega
  refine ⟨hh, incIndex_lt hcap, by simp only [regsAfterPop]; omega, ?_, ho⟩
  simp only [regsAfterPop, incIndex, Nat.mod_add_mod]
  rw [he]
  congr 1
  omega

theorem RingRegs.ok_zero {cap base ovf : Nat} (h : 1 ≤ cap) (ho : ovf ≤ ovfMax) : RingRegs.ok cap ⟨base, 0, 0, 0, ovf⟩ :=
  ⟨h, h, Nat.zero_le _, by simp, ho⟩

/-- A configuration that meets R7 gives every ring a slot. -/
theorem capacity_pos {c : Config} (h : c.wf) (r : Ring) : 1 ≤ capacity c r := by
  obtain ⟨_, ⟨hi, _⟩, ⟨ho, _⟩, _⟩ := h
  cases r
  · exact hi
  · exact ho

/-! ### Contents -/

@[simp] theorem contents_length (s : State) (r : Ring) : (contents s r).length = (s.rb r).count := by
  simp [contents]

theorem getElem_contents (s : State) (r : Ring) (k : Nat) (hk : k < (contents s r).length) :
    (contents s r)[k] =
      s.wm.readBytes (slotAddr s r (((s.rb r).tail + k) % capacity s.cfg r)) s.cfg.frameSize := by
  simp [contents]

/-- The frames held depend on the ring's registers and on the bytes of its storage only. -/
theorem contents_congr {s t : State} {r : Ring} (hc : t.cfg = s.cfg) (hr : t.rb r = s.rb r)
    (hcap : 1 ≤ capacity s.cfg r) (hm : ∀ a, inStorage s r a = true → t.wm.read a = s.wm.read a) :
    contents t r = contents s r := by
  apply List.ext_getElem (by simp [hr])
  intro k h1 h2
  rw [getElem_contents, getElem_contents]
  simp only [slotAddr, hr, hc]
  refine Memory.readBytes_congr fun j hj => hm _ ?_
  have := slot_inside (s := s) (r := r) (Nat.mod_lt ((s.rb r).tail + k) hcap)
  simp only [inStorage, inSpan, slotAddr, Bool.and_eq_true, decide_eq_true_eq] at *
  omega

/-- The frames held do not depend on fields other than the registers, the memory and the configuration. -/
theorem contents_same {s t : State} {r : Ring} (hc : t.cfg = s.cfg) (hr : t.rb r = s.rb r) (hm : t.wm = s.wm) :
    contents t r = contents s r := by
  simp only [contents, slotAddr, hc, hr, hm]

/-- An insert (R122, R128): the frame joins at the end, and the oldest leaves a full ring. -/
theorem contents_insert (s : State) (r : Ring) (f : Bytes) (hm : s.wm.wf) (ho : (s.rb r).ok (capacity s.cfg r))
    (hf : f.length = s.cfg.frameSize) :
    contents ({ s with wm := s.wm.writeBytes (slotAddr s r (s.rb r).head) f }.setRb r
      (regsAfterInsert (capacity s.cfg r) (s.rb r))) r = queueInsert (capacity s.cfg r) (contents s r) f := by
  obtain ⟨hh, ht, hc, he, _⟩ := ho
  have hcap : 0 < capacity s.cfg r := by omega
  generalize hcp : capacity s.cfg r = cap at *
  have hnew : ∀ i, i < cap → (s.wm.writeBytes (slotAddr s r (s.rb r).head) f).readBytes (slotAddr s r i) s.cfg.frameSize =
      if i = (s.rb r).head then f else s.wm.readBytes (slotAddr s r i) s.cfg.frameSize := by
    intro i _
    split
    · rename_i h; rw [h, ← hf]; exact Memory.readBytes_writeBytes_same _ _ _ hm
    · rename_i h
      refine Memory.readBytes_writeBytes_apart _ _ _ _ _ ?_
      rw [hf]
      exact slots_apart h
  have hslot : ∀ i, slotAddr ({ s with wm := s.wm.writeBytes (slotAddr s r (s.rb r).head) f }.setRb r
      (regsAfterInsert cap (s.rb r))) r i = slotAddr s r i := by
    intro i; simp [slotAddr]
  by_cases hfull : (s.rb r).count = cap
  · have hhead : (s.rb r).head = (s.rb r).tail := by
      rw [he, hfull, Nat.add_mod_right, Nat.mod_eq_of_lt ht]
    simp only [queueInsert, contents_length, hfull, if_true]
    apply List.ext_getElem (by simp [regsAfterInsert, hfull]; omega)
    intro k h1 h2
    have hk : k < cap := by simpa [regsAfterInsert, hfull] using h1
    rw [getElem_contents, hslot]
    simp only [setRb_rb_same, setRb_wm, setRb_cfg, hcp, regsAfterInsert, hfull, if_true, incIndex, Nat.mod_add_mod]
    rw [hnew _ (Nat.mod_lt _ hcap), hhead]
    by_cases hlast : k + 1 = cap
    · have hx : ((s.rb r).tail + 1 + k) % cap = (s.rb r).tail := by
        rw [show (s.rb r).tail + 1 + k = (s.rb r).tail + cap by omega, Nat.add_mod_right, Nat.mod_eq_of_lt ht]
      rw [hx, if_pos rfl, List.getElem_append_right (by simp; omega)]
      simp
    · have hx : ((s.rb r).tail + 1 + k) % cap ≠ (s.rb r).tail := by
        rw [mod_of_lt_two (by omega)]; split <;> omega
      rw [if_neg hx, List.getElem_append_left (by simp; omega), List.getElem_drop, getElem_contents, hcp,
        Nat.add_assoc]
  · have hne : ¬ (contents s r).length = cap := by simpa using hfull
    simp only [queueInsert, hne, if_false]
    apply List.ext_getElem (by simp [regsAfterInsert, hfull])
    intro k h1 h2
    have hk : k < (s.rb r).count + 1 := by simpa [regsAfterInsert, hfull] using h1
    rw [getElem_contents, hslot]
    simp only [setRb_rb_same, setRb_wm, setRb_cfg, hcp, regsAfterInsert, hfull, if_false]
    rw [hnew _ (Nat.mod_lt _ hcap)]
    by_cases hlast : k = (s.rb r).count
    · subst hlast
      rw [if_pos he.symm, List.getElem_append_right (by simp)]
      simp
    · have hx : ((s.rb r).tail + k) % cap ≠ (s.rb r).head := by
        rw [he, mod_of_lt_two (by omega), mod_of_lt_two (by omega)]
        split <;> split <;> omega
      rw [if_neg hx, List.getElem_append_left (by simp; omega), getElem_contents, hcp]

/-- A pop (R123): the oldest frame is the one at `tail`, and the rest stay in order. -/
theorem contents_pop (s : State) (r : Ring) (h : (s.rb r).count ≠ 0) :
    contents s r = s.wm.readBytes (slotAddr s r ((s.rb r).tail % capacity s.cfg r)) s.cfg.frameSize ::
      contents (s.setRb r (regsAfterPop (capacity s.cfg r) (s.rb r))) r := by
  apply List.ext_getElem (by simp [regsAfterPop]; omega)
  intro k h1 h2
  rw [getElem_contents]
  cases k with
  | zero => simp
  | succ k =>
    rw [List.getElem_cons_succ, getElem_contents]
    simp only [slotAddr, setRb_rb_same, setRb_wm, setRb_cfg, regsAfterPop, incIndex, Nat.mod_add_mod]
    rw [show (s.rb r).tail + (k + 1) = (s.rb r).tail + 1 + k by omega]

theorem contents_of_empty {s : State} {r : Ring} (h : (s.rb r).count = 0) : contents s r = [] := by
  simp [contents, h]

/-- A flush (R125). -/
theorem contents_flush (s : State) (r : Ring) : contents (flushRing r s) r = [] :=
  contents_of_empty (by simp [flushRing])

end Sys2Proof.Machine
end

