-- ==== Sys2Proof/Laws/Event.lean ====
section
/-!
SUPPORT. What the event handler's shared operations can do: the extraction loop (41_event_handler.md R143), a delivery, the pop
into the TX staging buffer, and the three handlers, each with one lemma that says when it answers a next state and which.
-/

namespace Sys2Proof.Machine

/-! ### The extraction loop -/

/-- Whatever inserting a staging frame and lowering the pending count keeps, the loop keeps. -/
theorem extractLoop_keeps (P : State → Prop)
    (hP : ∀ (s t : State) (f : Bytes), P s → f.length = s.cfg.frameSize → insertFrame .inbound f s = .next t →
      P { t with rxPending := t.rxPending - t.cfg.frameSize }) :
    ∀ (fuel i : Nat) (s t : State), P s → extractLoop fuel i s = .next t → P t := by
  intro fuel
  induction fuel with
  | zero => intro i s t hs h; simp only [extractLoop] at h; cases h; exact hs
  | succ fuel ih =>
    intro i s t hs h
    simp only [extractLoop] at h
    split at h
    · simp only [andThen_eq_next, load_next] at h
      obtain ⟨f, ⟨_, rfl⟩, u, hu, h⟩ := h
      exact ih _ _ _ (hP _ _ _ hs (by simp) hu) h
    · cases h; exact hs

/-- The loop changes the inbound ring's registers, memory and `rx_pending_bytes`, and nothing else. -/
theorem extractLoop_frame {fuel i : Nat} {s t : State} (h : extractLoop fuel i s = .next t) :
    t = { s with rbIn := t.rbIn, wm := t.wm, rxPending := t.rxPending } := by
  refine extractLoop_keeps (fun u => u = { s with rbIn := u.rbIn, wm := u.wm, rxPending := u.rxPending })
    ?_ fuel i s t rfl h
  intro u v f hu _ hv
  obtain ⟨_, rfl⟩ := insertFrame_next.mp hv
  simp only [State.setRb]
  rw [hu]

/-- On exit the pending count is the remainder (R143). -/
theorem extractLoop_pending {fuel i : Nat} {s t : State} (hfs : 1 ≤ s.cfg.frameSize) (hfuel : s.rxPending ≤ fuel)
    (h : extractLoop fuel i s = .next t) : t.rxPending = s.rxPending % s.cfg.frameSize := by
  induction fuel generalizing i s with
  | zero =>
    simp only [extractLoop] at h
    cases h
    rw [Nat.le_zero.mp hfuel, Nat.zero_mod]
  | succ fuel ih =>
    simp only [extractLoop] at h
    split at h
    · rename_i hle
      simp only [andThen_eq_next, load_next] at h
      obtain ⟨f, _, u, hu, h⟩ := h
      obtain ⟨_, rfl⟩ := insertFrame_next.mp hu
      have := ih (s := _) (by simpa using hfs) (by simp only [setRb_rxPending, setRb_cfg]; omega) h
      simp only [setRb_rxPending, setRb_cfg] at this
      rw [this, ← Nat.mod_eq_sub_mod hle]
    · rename_i hlt
      cases h
      rw [Nat.mod_eq_of_lt (by omega)]

/-- The inbound registers after the loop: one insert for each whole frame pending (R122, R143). -/
theorem extractLoop_regs {fuel i : Nat} {s t : State} (hfs : 1 ≤ s.cfg.frameSize) (hfuel : s.rxPending ≤ fuel)
    (ho : s.rbIn.ok s.cfg.inCapacity) (h : extractLoop fuel i s = .next t) :
    t.rbIn = regsAfterInserts s.cfg.inCapacity s.rbIn (s.rxPending / s.cfg.frameSize) := by
  induction fuel generalizing i s with
  | zero =>
    simp only [extractLoop] at h
    cases h
    rw [Nat.le_zero.mp hfuel, Nat.zero_div, regsAfterInserts_zero ho]
  | succ fuel ih =>
    simp only [extractLoop] at h
    split at h
    · rename_i hle
      simp only [andThen_eq_next, load_next] at h
      obtain ⟨f, _, u, hu, h⟩ := h
      obtain ⟨_, rfl⟩ := insertFrame_next.mp hu
      rw [Nat.div_eq_sub_div (by omega) hle, regsAfterInserts_succ ho]
      exact ih (by simpa using hfs) (by simp only [setRb_rxPending, setRb_cfg]; omega) (RingRegs.ok_insert ho) h
    · rename_i hlt
      cases h
      rw [Nat.div_eq_of_lt (by omega), regsAfterInserts_zero ho]

/-- Frame `j` of the staging buffer (R143). -/
def stagingFrame (s : State) (j : Nat) : Bytes := s.wm.readBytes (s.rxStageBase + j * s.cfg.frameSize) s.cfg.frameSize

theorem queueInsertAll_cons (cap : Nat) (q : List Bytes) (f : Bytes) (fs : List Bytes) :
    queueInsertAll cap q (f :: fs) = queueInsertAll cap (queueInsert cap q f) fs := rfl

/-- Saturating counts add up (R25). -/
theorem saturated_once (n cap k top : Nat) (h : n ≤ top) :
    min (n + (cap + (k + 1) - cap)) top = min (min (n + 1) top + (cap + k - cap)) top := by
  omega

/-- The loop on a staging buffer that stands below the inbound ring's storage, inside memory (R143): it runs, and the
successive frames of the staging buffer join the inbound ring. -/
theorem extractLoop_run {fuel i : Nat} {s : State} (hfs : 1 ≤ s.cfg.frameSize) (hfuel : s.rxPending ≤ fuel)
    (hm : s.wm.wf) (ho : s.rbIn.ok s.cfg.inCapacity) (hin : StorageInside s .inbound)
    (hst : s.rxStageBase + i * s.cfg.frameSize + s.rxPending ≤ s.rbIn.base) :
    ∃ t, extractLoop fuel i s = .next t ∧ t.wm.wf ∧ t.rbIn.ok s.cfg.inCapacity ∧ t.rbIn.base = s.rbIn.base ∧
      contents t .inbound = queueInsertAll s.cfg.inCapacity (contents s .inbound)
        ((List.range (s.rxPending / s.cfg.frameSize)).map fun j => stagingFrame s (i + j)) ∧
      t.rbIn.ovf = min (s.rbIn.ovf + (s.rbIn.count + s.rxPending / s.cfg.frameSize - s.cfg.inCapacity)) ovfMax ∧
      (∀ a, inStorage s .inbound a = false → t.wm.read a = s.wm.read a) := by
  induction fuel generalizing i s with
  | zero =>
    have h0 : s.rxPending = 0 := by omega
    have := ho.2.2.1
    have := ho.2.2.2.2
    exact ⟨s, rfl, hm, ho, rfl, by simp [h0, queueInsertAll], by simp only [h0, Nat.zero_div]; omega, fun _ _ => rfl⟩
  | succ fuel ih =>
    by_cases hle : s.cfg.frameSize ≤ s.rxPending
    · have hcap : s.rbIn.head < capacity s.cfg .inbound := ho.1
      have hslot := slot_inside (s := s) (r := .inbound) hcap
      simp only [rb_inbound] at hslot
      have hstg : s.rxStageBase + i * s.cfg.frameSize + s.cfg.frameSize ≤ 2 ^ s.cfg.addrW := by
        simp only [StorageInside, rb_inbound] at hin; omega
      have hins := insertFrame_eq .inbound (stagingFrame s i) s (by
        simp only [stagingFrame, Memory.readBytes_length, rb_inbound]
        simp only [StorageInside, rb_inbound] at hin; omega)
      simp only [rb_inbound] at hins
      have hlen : (stagingFrame s i).length = s.cfg.frameSize := by simp [stagingFrame]
      generalize hu : ({ s with wm := s.wm.writeBytes (slotAddr s .inbound s.rbIn.head) (stagingFrame s i) }.setRb .inbound
        (regsAfterInsert (capacity s.cfg .inbound) s.rbIn)) = u at hins
      have hucfg : u.cfg = s.cfg := by rw [← hu]; rfl
      have hurx : u.rxStageBase = s.rxStageBase := by rw [← hu]; rfl
      have hup : u.rxPending = s.rxPending := by rw [← hu]; rfl
      have hurb : u.rbIn = regsAfterInsert s.cfg.inCapacity s.rbIn := by rw [← hu]; rfl
      have huwm : u.wm = s.wm.writeBytes (slotAddr s .inbound s.rbIn.head) (stagingFrame s i) := by rw [← hu]; rfl
      have hubase : u.rbIn.base = s.rbIn.base := by rw [hurb]; simp
      have hucont : contents u .inbound = queueInsert s.cfg.inCapacity (contents s .inbound) (stagingFrame s i) := by
        rw [← hu]; exact contents_insert s .inbound _ hm ho hlen
      have hout : ∀ a, inStorage s .inbound a = false → u.wm.read a = s.wm.read a := by
        intro a ha
        rw [huwm]
        exact read_outside_storage hcap hlen ha
      obtain ⟨t, ht, htm, hto, htb, htc, htv, hta⟩ := ih (i := i + 1)
        (s := { u with rxPending := u.rxPending - u.cfg.frameSize })
        (by simpa only [hucfg] using hfs) (by simp only [hup, hucfg]; omega)
        (by simp only [huwm]; exact Memory.writeBytes_wf _ _ _ hm)
        (by simp only [hurb, hucfg]; exact RingRegs.ok_insert ho)
        (by simpa only [StorageInside, rb_inbound, hubase, hucfg] using hin)
        (by simp only [hup, hucfg, hurx, hubase, Nat.succ_mul]; omega)
      simp only [hucfg, hup] at htc htv hto htb
      have hk : s.rxPending / s.cfg.frameSize = (s.rxPending - s.cfg.frameSize) / s.cfg.frameSize + 1 :=
        Nat.div_eq_sub_div (by omega) hle
      refine ⟨t, ?_, htm, hto, by rw [htb, hubase], ?_, ?_, ?_⟩
      · simp only [extractLoop, hle, if_true, load_eq _ _ _ hstg, andThen_next]
        have : s.wm.readBytes (s.rxStageBase + i * s.cfg.frameSize) s.cfg.frameSize = stagingFrame s i := rfl
        rw [this, hins, andThen_next]
        exact ht
      · rw [htc, hk, List.range_succ_eq_map, List.map_cons, queueInsertAll_cons, List.map_map]
        rw [contents_same (t := { u with rxPending := s.rxPending - s.cfg.frameSize, cfg := s.cfg }) (s := u)
          hucfg.symm rfl rfl, hucont, Nat.add_zero]
        congr 1
        apply List.map_congr_left
        intro j hj
        have hj : j < (s.rxPending - s.cfg.frameSize) / s.cfg.frameSize := List.mem_range.mp hj
        have hj2 : (j + 1) * s.cfg.frameSize ≤ s.rxPending - s.cfg.frameSize :=
          Nat.le_trans (Nat.mul_le_mul_right _ hj) (Nat.div_mul_le_self _ _)
        simp only [stagingFrame, hurx, Function.comp]
        rw [show i + 1 + j = i + (j + 1) by omega]
        refine Memory.readBytes_congr fun k hk => hout _ (inStorage_false.mpr (.inl ?_))
        simp only [rb_inbound]
        rw [Nat.succ_mul] at hj2
        rw [Nat.add_mul, Nat.succ_mul]
        omega
      · rw [htv, hk, hurb]
        have hov := ho.2.2.2.2
        by_cases hf : s.rbIn.count = s.cfg.inCapacity
        · simp only [regsAfterInsert, hf, if_true]
          exact (saturated_once _ _ _ _ hov).symm
        · simp only [regsAfterInsert, hf, if_false]
          rw [Nat.add_assoc, Nat.add_comm 1]
      · intro a ha
        rw [hta a (by simpa only [inStorage, rb_inbound, hubase, hucfg] using ha)]
        exact hout a ha
    · have h0 : s.rxPending / s.cfg.frameSize = 0 := Nat.div_eq_of_lt (by omega)
      have := ho.2.2.1
      have := ho.2.2.2.2
      exact ⟨s, by simp only [extractLoop, hle, if_false], hm, ho, rfl, by simp [h0, queueInsertAll],
        by rw [h0]; omega, fun _ _ => rfl⟩

/-! ### A delivery -/

/-- A delivery that answers a next state: the bytes fit, and only the inbound ring, memory and the pending count change. -/
theorem deliver_next {data : Bytes} {s t : State} (h : deliver data s = .next t) :
    s.rxStageBase + data.length ≤ 2 ^ s.cfg.addrW ∧
      extractLoop data.length 0 { s with wm := s.wm.writeBytes s.rxStageBase data, rxPending := data.length } = .next t ∧
      t = { s with rbIn := t.rbIn, wm := t.wm, rxPending := t.rxPending } := by
  simp only [deliver, andThen_eq_next, store_next] at h
  obtain ⟨_, ⟨hin, rfl⟩, h⟩ := h
  refine ⟨hin, h, ?_⟩
  have := extractLoop_frame h
  rw [this]

theorem deliver_pending {data : Bytes} {s t : State} (hfs : 1 ≤ s.cfg.frameSize) (h : deliver data s = .next t) :
    t.rxPending = data.length % s.cfg.frameSize :=
  extractLoop_pending (s := { s with wm := s.wm.writeBytes s.rxStageBase data, rxPending := data.length })
    hfs (Nat.le_refl _) (deliver_next h).2.1

/-- The inbound registers after a delivery: one insert for each whole frame (R122, R143). -/
theorem deliver_regs {data : Bytes} {s t : State} (hfs : 1 ≤ s.cfg.frameSize) (ho : s.rbIn.ok s.cfg.inCapacity)
    (h : deliver data s = .next t) :
    t.rbIn = regsAfterInserts s.cfg.inCapacity s.rbIn (data.length / s.cfg.frameSize) :=
  extractLoop_regs (s := { s with wm := s.wm.writeBytes s.rxStageBase data, rxPending := data.length })
    hfs (Nat.le_refl _) ho (deliver_next h).2.1

/-- A delivery under the layout of R181 (R142, R143, R146): it runs, and its whole frames join the inbound ring. -/
theorem deliver_run {data : Bytes} {s : State} (hc : s.cfg.wf) (hm : s.wm.wf) (ho : s.rbIn.ok s.cfg.inCapacity)
    (hl : LayoutOk s) (hd : data.length ≤ s.cfg.rxStagingSize) :
    ∃ t, deliver data s = .next t ∧ t.wm.wf ∧ t.rbIn.ok s.cfg.inCapacity ∧ t.rbIn.base = s.rbIn.base ∧
      contents t .inbound = queueInsertAll s.cfg.inCapacity (contents s .inbound) (framesOf s.cfg.frameSize data) ∧
      t.rbIn.ovf = min (s.rbIn.ovf + (s.rbIn.count + data.length / s.cfg.frameSize - s.cfg.inCapacity)) ovfMax ∧
      t.rxPending = data.length % s.cfg.frameSize ∧
      (∀ a, inSpan s.rxStageBase data.length a = false → inStorage s .inbound a = false → t.wm.read a = s.wm.read a) ∧
      t = { s with rbIn := t.rbIn, wm := t.wm, rxPending := t.rxPending } := by
  obtain ⟨h1, h2, h3, h4⟩ := hl
  have hfs := hc.1
  have hstore : s.rxStageBase + data.length ≤ 2 ^ s.cfg.addrW := by omega
  have hcap : 1 ≤ capacity s.cfg .inbound := capacity_pos hc _
  obtain ⟨t, ht, htm, hto, htb, htc, htv, hta⟩ :=
    extractLoop_run (fuel := data.length) (i := 0)
      (s := { s with wm := s.wm.writeBytes s.rxStageBase data, rxPending := data.length })
      hfs (Nat.le_refl _) (Memory.writeBytes_wf _ _ _ hm) ho (by simp only [StorageInside, rb_inbound]; omega)
      (by simp only [Nat.zero_mul, Nat.add_zero]; omega)
  have hrun : deliver data s = .next t := by
    simp only [deliver, store_eq _ _ _ hstore, andThen_next, extract]
    exact ht
  refine ⟨t, hrun, htm, hto, htb, ?_, htv, deliver_pending hfs hrun, ?_, (deliver_next hrun).2.2⟩
  · rw [htc]
    have hcs : contents { s with wm := s.wm.writeBytes s.rxStageBase data, rxPending := data.length } Ring.inbound =
        contents s Ring.inbound := by
      refine contents_congr rfl rfl hcap fun a ha => Memory.read_writeBytes_outside _ _ _ _ ?_
      have := inStorage_true.mp ha
      simp only [rb_inbound] at this
      omega
    rw [hcs]
    congr 1
    simp only [framesOf]
    apply List.map_congr_left
    intro j hj
    have hj : j < data.length / s.cfg.frameSize := List.mem_range.mp hj
    have hj2 : (j + 1) * s.cfg.frameSize ≤ data.length :=
      Nat.le_trans (Nat.mul_le_mul_right _ hj) (Nat.div_mul_le_self _ _)
    simp only [stagingFrame, Nat.zero_add]
    exact Memory.readBytes_writeBytes_part _ _ _ _ _ hm (by rw [Nat.succ_mul] at hj2; omega)
  · intro a ha hs
    rw [hta a hs]
    exact Memory.read_writeBytes_outside _ _ _ _ (inSpan_false.mp ha)

/-! ### The pop into the TX staging buffer -/

theorem popToStaging_empty (s : State) (h : s.rbOut.count = 0) : popToStaging s = .next (none, s) := by
  simp [popToStaging, popFrame_empty .outbound s h]

theorem popToStaging_eq (s : State) (h : s.rbOut.count ≠ 0)
    (hin : slotAddr s .outbound s.rbOut.tail + s.cfg.frameSize ≤ 2 ^ s.cfg.addrW)
    (hst : s.txStageBase + s.cfg.frameSize ≤ 2 ^ s.cfg.addrW) :
    popToStaging s = .next (some (s.wm.readBytes (slotAddr s .outbound s.rbOut.tail) s.cfg.frameSize),
      { s with
        rbOut := regsAfterPop s.cfg.outCapacity s.rbOut
        wm := s.wm.writeBytes s.txStageBase
          (s.wm.readBytes (slotAddr s .outbound s.rbOut.tail) s.cfg.frameSize) }) := by
  simp only [popToStaging, popFrame_eq .outbound s h hin, andThen_next]
  rw [store_eq _ _ _ (by simpa using hst)]
  rfl

/-- A pop into the staging buffer answers `none` from an empty ring, or puts the frame at `tail` into the buffer. -/
theorem popToStaging_next {s : State} {p : Option Bytes × State} (h : popToStaging s = .next p) :
    (s.rbOut.count = 0 ∧ p = (none, s)) ∨
    (s.rbOut.count ≠ 0 ∧ slotAddr s .outbound s.rbOut.tail + s.cfg.frameSize ≤ 2 ^ s.cfg.addrW ∧
      s.txStageBase + s.cfg.frameSize ≤ 2 ^ s.cfg.addrW ∧
      p = (some (s.wm.readBytes (slotAddr s .outbound s.rbOut.tail) s.cfg.frameSize),
        { s with
          rbOut := regsAfterPop s.cfg.outCapacity s.rbOut
          wm := s.wm.writeBytes s.txStageBase
            (s.wm.readBytes (slotAddr s .outbound s.rbOut.tail) s.cfg.frameSize) })) := by
  by_cases hc : s.rbOut.count = 0
  · rw [popToStaging_empty s hc] at h
    exact .inl ⟨hc, by simpa using h.symm⟩
  · have h0 := h
    simp only [popToStaging, andThen_eq_next] at h
    obtain ⟨q, hq, h⟩ := h
    rcases popFrame_next hq with ⟨hz, _⟩ | ⟨_, hin, rfl⟩
    · exact absurd hz hc
    · simp only [andThen_eq_next, store_next] at h
      obtain ⟨_, ⟨hst, _⟩, _⟩ := h
      have hst' : s.txStageBase + s.cfg.frameSize ≤ 2 ^ s.cfg.addrW := by simpa using hst
      rw [popToStaging_eq s hc hin hst'] at h0
      exact .inr ⟨hc, hin, hst', by simpa using h0.symm⟩

/-! ### The handlers -/

/-- The flags and count an IN-complete starts from (R141, R206). -/
def inCompleteStart (s : State) : State := (answerTransfer s).clearFlag .txBusy

/-- What the handler of IN-complete can do (R141). -/
theorem inCompleteHandler_next {s t : State} (h : inCompleteHandler s = .next t) :
    (s.rbOut.count = 0 ∧ t = inCompleteStart s) ∨
    (s.rbOut.count ≠ 0 ∧ slotAddr s .outbound s.rbOut.tail + s.cfg.frameSize ≤ 2 ^ s.cfg.addrW ∧
      s.txStageBase + s.cfg.frameSize ≤ 2 ^ s.cfg.addrW ∧
      ∃ wm, wm = s.wm.writeBytes s.txStageBase
          (s.wm.readBytes (slotAddr s .outbound s.rbOut.tail) s.cfg.frameSize) ∧
        t = { (inCompleteStart s).setFlag .txBusy with
          rbOut := regsAfterPop s.cfg.outCapacity s.rbOut
          wm := wm
          hwLog := s.hwLog ++ [.write s.cfg.epIn (wm.readBytes s.txStageBase s.cfg.frameSize)]
          hwTxInflight := s.hwTxInflight - 1 + 1 }) := by
  simp only [inCompleteHandler] at h
  split at h
  · rename_i he
    exact .inl ⟨of_decide_eq_true he, by cases h; rfl⟩
  · rename_i he
    have hc : s.rbOut.count ≠ 0 := fun hz => he (decide_eq_true hz)
    simp only [andThen_eq_next] at h
    obtain ⟨p, hp, h⟩ := h
    rcases popToStaging_next hp with ⟨hz, _⟩ | ⟨_, hin, hst, rfl⟩
    · exact absurd hz hc
    · obtain ⟨_, rfl⟩ := emitWrite_next.mp h
      exact .inr ⟨hc, hin, hst, _, rfl, rfl⟩

theorem inCompleteHandler_empty (s : State) (h : s.rbOut.count = 0) :
    inCompleteHandler s = .next (inCompleteStart s) := by
  simp [inCompleteHandler, State.ringEmpty, h, inCompleteStart]

theorem inCompleteHandler_send (s : State) (h : s.rbOut.count ≠ 0)
    (hin : slotAddr s .outbound s.rbOut.tail + s.cfg.frameSize ≤ 2 ^ s.cfg.addrW)
    (hst : s.txStageBase + s.cfg.frameSize ≤ 2 ^ s.cfg.addrW) :
    ∃ t, inCompleteHandler s = .next t := by
  have h0 : ((answerTransfer s).clearFlag .txBusy).ringEmpty .outbound = false := decide_eq_false h
  simp only [inCompleteHandler, h0, Bool.false_eq_true, if_false,
    popToStaging_eq ((answerTransfer s).clearFlag .txBusy) h hin hst, andThen_next]
  exact ⟨_, emitWrite_eq _ hst⟩

/-- What the end of OUT-complete does to the state: the flags only (R142). -/
theorem closeDelivery_frame (s : State) : closeDelivery s = { s with flags := (closeDelivery s).flags } := by
  simp only [closeDelivery]
  split
  · split <;> rfl
  · rfl

/-- What a delivery's acceptance can do (R142, R144). -/
theorem withDelivery_next {s t : State} {n : Nat} {data : Bytes} {k : Bytes → Result State} :
    withDelivery s n data k = .next t ↔ n ≤ s.cfg.rxStagingSize ∧ data.length = n ∧ k data = .next t := by
  simp only [withDelivery]
  split
  · simp only [reduceCtorEq, false_iff]; omega
  · split <;> simp_all

/-- What the handler of OUT-complete can do (R142). -/
theorem outCompleteHandler_next {len : Nat} {s t : State} :
    outCompleteHandler len s = .next t ↔ len ≤ s.cfg.rxStagingSize ∧ s.opnd.evData.length = len ∧
      ∃ u, deliver s.opnd.evData s = .next u ∧ closeDelivery u = t := by
  simp [outCompleteHandler, withDelivery_next, andThen_eq_next]

/-- What the handler of OUT-NAK can do (R144, R147). -/
theorem outNakHandler_next {s t : State} :
    outNakHandler s = .next t ↔
      (mayArm s.flags = false ∧ s = t) ∨
      (mayArm s.flags = true ∧ s.opnd.avail ≤ s.cfg.rxStagingSize ∧ s.opnd.availData.length = s.opnd.avail ∧
        ∃ u, deliver s.opnd.availData (emitRdreq s) = .next u ∧ u.setFlag .rxBufferQueued = t) := by
  simp only [outNakHandler]
  split
  · rename_i h; simp [h, withDelivery_next, andThen_eq_next]
  · rename_i h; simp [h]

/-- What a delivery can do to the flags at its end: one equation for each flag (R142). -/
theorem closeDelivery_flag (s : State) (f : Flag) : (closeDelivery s).flag f =
    if s.flag .rxBufferQueued then
      match f with
      | .rxBufferQueued => false
      | .rxBufferFull => s.flag .rxBufferFull || decide (0 < s.rxPending)
      | .txBusy => s.flag .txBusy
      | .txConnected => s.flag .txConnected
    else s.flag f := by
  simp only [closeDelivery]
  split
  · split <;> rename_i h <;> cases f <;> simp [h]
  · rfl

/-! ### What every delivery keeps -/

/-- Whatever inserting a staging frame keeps, and the arrival of the bytes establishes, a delivery keeps. -/
theorem deliver_keeps (P : State → Prop)
    (hP : ∀ (s t : State) (f : Bytes), P s → f.length = s.cfg.frameSize → insertFrame .inbound f s = .next t →
      P { t with rxPending := t.rxPending - t.cfg.frameSize })
    {data : Bytes} {s t : State} (h : deliver data s = .next t)
    (hs : P { s with wm := s.wm.writeBytes s.rxStageBase data, rxPending := data.length }) : P t :=
  extractLoop_keeps P hP _ _ _ _ hs (deliver_next h).2.1

theorem deliver_memory_wf {data : Bytes} {s t : State} (h : deliver data s = .next t) (hs : s.wm.wf) : t.wm.wf := by
  refine deliver_keeps (fun u => u.wm.wf) ?_ h (Memory.writeBytes_wf _ _ _ hs)
  intro u v f hu _ hv
  obtain ⟨_, rfl⟩ := insertFrame_next.mp hv
  simp only [setRb_wm]
  exact Memory.writeBytes_wf _ _ _ hu

theorem deliver_ring_ok {data : Bytes} {s t : State} (h : deliver data s = .next t) (hs : s.rbIn.ok s.cfg.inCapacity) :
    t.rbIn.ok t.cfg.inCapacity := by
  refine deliver_keeps (fun u => u.rbIn.ok u.cfg.inCapacity) ?_ h hs
  intro u v f hu _ hv
  obtain ⟨_, rfl⟩ := insertFrame_next.mp hv
  exact RingRegs.ok_insert hu

theorem deliver_ring_base {data : Bytes} {s t : State} (h : deliver data s = .next t) : t.rbIn.base = s.rbIn.base := by
  refine deliver_keeps (fun u => u.rbIn.base = s.rbIn.base) ?_ h rfl
  intro u v f hu _ hv
  obtain ⟨_, rfl⟩ := insertFrame_next.mp hv
  simpa using hu

/-- A delivery writes the delivered bytes and inbound storage, and no other byte (R62, R142). -/
theorem deliver_outside {data : Bytes} {s t : State} (h : deliver data s = .next t) (hs : s.rbIn.ok s.cfg.inCapacity)
    {a : Nat} (h1 : inSpan s.rxStageBase data.length a = false) (h2 : inStorage s .inbound a = false) :
    t.wm.read a = s.wm.read a := by
  have := deliver_keeps
    (fun u => u.rbIn.ok u.cfg.inCapacity ∧ inStorage u .inbound a = false ∧ u.wm.read a = s.wm.read a) ?_ h
    ⟨hs, h2, Memory.read_writeBytes_outside _ _ _ _ (inSpan_false.mp h1)⟩
  · exact this.2.2
  · rintro u v f ⟨hu1, hu2, hu3⟩ hf hv
    obtain ⟨_, rfl⟩ := insertFrame_next.mp hv
    refine ⟨RingRegs.ok_insert hu1, ?_, ?_⟩
    · simpa [inStorage, State.setRb] using hu2
    · rw [← hu3]
      exact read_outside_storage (s := u) (r := .inbound) hu1.1 hf hu2

end Sys2Proof.Machine
end

