-- ==== Sys2Proof/Laws/App.lean ====
section
/-!
SUPPORT. What a phase step of the application sequencer can do (42_application_interface.md R161 to R164), said once as a
relation with one constructor per case, and what running phases back to back keeps.
-/

namespace Sys2Proof.Machine

/-- The phase steps (R161 to R164), one constructor per case. -/
inductive PhaseStep (s : State) : State → Prop where
  | idle (hc : s.app.cmd = .idle) : PhaseStep s s
  | readCount (hc : s.app.cmd = .readCount) (hp : s.app.phase = 1) :
      PhaseStep s (s.appReturn ⟨some s.rbIn.count, none⟩)
  | readEmpty (hc : s.app.cmd = .read) (hp : s.app.phase = 1) (hz : s.rbIn.count = 0) :
      PhaseStep s { s with app := { s.app with n := 0, phase := 2 } }
  | readPop (hc : s.app.cmd = .read) (hp : s.app.phase = 1) (hz : s.rbIn.count ≠ 0)
      (hin : slotAddr s .inbound s.rbIn.tail + s.cfg.frameSize ≤ 2 ^ s.cfg.addrW) :
      PhaseStep s { s with
        rbIn := regsAfterPop s.cfg.inCapacity s.rbIn
        app := { s.app with
          n := s.cfg.frameSize
          frame := s.wm.readBytes (slotAddr s .inbound s.rbIn.tail) s.cfg.frameSize
          phase := 2 } }
  | readClear (hc : s.app.cmd = .read) (hp : s.app.phase = 2) :
      PhaseStep s ((s.clearFlag .rxBufferFull).appReturn
        ⟨some s.app.n, if s.app.n = 0 then none else some s.app.frame⟩)
  | writeInsert (hc : s.app.cmd = .write) (hp : s.app.phase = 1)
      (hin : slotAddr s .outbound s.rbOut.head + s.app.frame.length ≤ 2 ^ s.cfg.addrW) :
      PhaseStep s { s with
        wm := s.wm.writeBytes (slotAddr s .outbound s.rbOut.head) s.app.frame
        rbOut := regsAfterInsert s.cfg.outCapacity s.rbOut
        app := { s.app with phase := 2 } }
  | writeGo (hc : s.app.cmd = .write) (hp : s.app.phase = 2) (hm : mayStartTransfer s.flags = true) :
      PhaseStep s { s with app := { s.app with t := true, phase := 3 } }
  | writeStay (hc : s.app.cmd = .write) (hp : s.app.phase = 2) (hm : mayStartTransfer s.flags = false) :
      PhaseStep s ({ s with app := { s.app with t := false } }.appReturn ⟨some s.cfg.frameSize, none⟩)
  | writeEmpty (hc : s.app.cmd = .write) (hp : s.app.phase = 3) (hz : s.rbOut.count = 0) :
      PhaseStep s ({ s with app := { s.app with n := 0 } }.appReturn ⟨some s.cfg.frameSize, none⟩)
  | writePop (hc : s.app.cmd = .write) (hp : s.app.phase = 3) (hz : s.rbOut.count ≠ 0) (hfs : s.cfg.frameSize ≠ 0)
      (hin : slotAddr s .outbound s.rbOut.tail + s.cfg.frameSize ≤ 2 ^ s.cfg.addrW)
      (hst : s.txStageBase + s.cfg.frameSize ≤ 2 ^ s.cfg.addrW) :
      PhaseStep s { s with
        rbOut := regsAfterPop s.cfg.outCapacity s.rbOut
        wm := s.wm.writeBytes s.txStageBase (s.wm.readBytes (slotAddr s .outbound s.rbOut.tail) s.cfg.frameSize)
        app := { s.app with n := s.cfg.frameSize, phase := 4 } }
  | writePopNothing (hc : s.app.cmd = .write) (hp : s.app.phase = 3) (hz : s.rbOut.count ≠ 0)
      (hfs : s.cfg.frameSize = 0) :
      PhaseStep s ({ s with
        rbOut := regsAfterPop s.cfg.outCapacity s.rbOut
        app := { s.app with n := 0 } }.appReturn ⟨some s.cfg.frameSize, none⟩)
  | writeBusy (hc : s.app.cmd = .write) (hp : s.app.phase = 4) : PhaseStep s ((s.setFlag .txBusy).toPhase 5)
  | writeIssue (hc : s.app.cmd = .write) (hp : s.app.phase = 5)
      (hst : s.txStageBase + s.cfg.frameSize ≤ 2 ^ s.cfg.addrW) :
      PhaseStep s (({ s with
        hwLog := s.hwLog ++ [HwReq.write s.cfg.epIn (s.wm.readBytes s.txStageBase s.cfg.frameSize)]
        hwTxInflight := s.hwTxInflight + 1 } : State).appReturn ⟨some s.cfg.frameSize, none⟩)
  | flushIn (hc : s.app.cmd = .flush) (hp : s.app.phase = 1) : PhaseStep s ((flushRing .inbound s).toPhase 2)
  | flushOut (hc : s.app.cmd = .flush) (hp : s.app.phase = 2) :
      PhaseStep s ((flushRing .outbound s).appReturn Response.nothing)

theorem readPhase1_step {s t : State} (hc : s.app.cmd = .read) (hp : s.app.phase = 1) (h : readPhase1 s = .next t) :
    PhaseStep s t := by
  simp only [readPhase1, andThen_eq_next] at h
  obtain ⟨p, hpop, h⟩ := h
  rcases popFrame_next hpop with ⟨hz, rfl⟩ | ⟨hz, hin, rfl⟩
  · cases h; exact .readEmpty hc hp hz
  · cases h; exact .readPop hc hp hz hin

theorem writePhase1_step {s t : State} (hc : s.app.cmd = .write) (hp : s.app.phase = 1) (h : writePhase1 s = .next t) :
    PhaseStep s t := by
  simp only [writePhase1, andThen_eq_next] at h
  obtain ⟨u, hu, h⟩ := h
  obtain ⟨hin, rfl⟩ := insertFrame_next.mp hu
  cases h
  exact .writeInsert hc hp hin

theorem writePhase2_step {s t : State} (hc : s.app.cmd = .write) (hp : s.app.phase = 2) (h : writePhase2 s = .next t) :
    PhaseStep s t := by
  simp only [writePhase2] at h
  by_cases hm : mayStartTransfer s.flags = true
  · simp only [hm, if_true] at h
    cases h
    exact .writeGo hc hp hm
  · simp only [Bool.not_eq_true] at hm
    simp only [hm, Bool.false_eq_true, if_false] at h
    cases h
    exact .writeStay hc hp hm

theorem writePhase3_step {s t : State} (hc : s.app.cmd = .write) (hp : s.app.phase = 3) (h : writePhase3 s = .next t) :
    PhaseStep s t := by
  simp only [writePhase3, andThen_eq_next] at h
  obtain ⟨p, hpop, h⟩ := h
  rcases popToStaging_next hpop with ⟨hz, rfl⟩ | ⟨hz, hin, hst, rfl⟩
  · simp only [popResult, ne_eq, not_true_eq_false, if_false] at h
    cases h
    exact .writeEmpty hc hp hz
  · simp only [popResult] at h
    by_cases hfs : s.cfg.frameSize = 0
    · simp only [hfs, ne_eq, not_true_eq_false, if_false, Memory.readBytes, Memory.writeBytes] at h
      cases h
      have := PhaseStep.writePopNothing hc hp hz hfs
      simpa only [hfs, writeResponse] using this
    · simp only [ne_eq, hfs, not_false_eq_true, if_true] at h
      cases h
      exact .writePop hc hp hz hfs hin hst

theorem writePhase5_step {s t : State} (hc : s.app.cmd = .write) (hp : s.app.phase = 5) (h : writePhase5 s = .next t) :
    PhaseStep s t := by
  simp only [writePhase5, andThen_eq_next, emitWrite_next] at h
  obtain ⟨_, ⟨hst, rfl⟩, h⟩ := h
  cases h
  exact .writeIssue hc hp hst

/-- A phase step is one of the cases above. -/
theorem appPhase_step {s t : State} (h : appPhase s = .next t) : PhaseStep s t := by
  unfold appPhase at h
  split at h
  · cases h; exact .idle ‹_›
  · cases h; exact .readCount ‹_› ‹_›
  · exact readPhase1_step ‹_› ‹_› h
  · cases h; exact .readClear ‹_› ‹_›
  · exact writePhase1_step ‹_› ‹_› h
  · exact writePhase2_step ‹_› ‹_› h
  · exact writePhase3_step ‹_› ‹_› h
  · cases h; exact .writeBusy ‹_› ‹_›
  · exact writePhase5_step ‹_› ‹_› h
  · cases h; exact .flushIn ‹_› ‹_›
  · cases h; exact .flushOut ‹_› ‹_›
  · cases h

/-- Where the rings' pointers, the layout and the sequencer are legal, every phase runs (R203 b). -/
theorem appPhase_runs {s : State} (hi : s.inited = true) (hr : RingsOk s) (hl : RegionsOk s) (ha : AppOk s) :
    ∃ t, appPhase s = .next t := by
  obtain ⟨hri, hro⟩ := hr hi
  obtain ⟨_, l2, l3, l4⟩ := hl hi
  obtain ⟨hp, hfl, _⟩ := ha
  have htx : s.cfg.txStagingSize = s.cfg.frameSize := rfl
  have hst : s.txStageBase + s.cfg.frameSize ≤ 2 ^ s.cfg.addrW := by omega
  cases hcmd : s.app.cmd with
  | idle => exact ⟨s, by simp [appPhase, hcmd]⟩
  | readCount =>
    have h1 : s.app.phase = 1 := by simpa [phaseOk, hcmd] using hp
    simp only [appPhase, hcmd, h1]
    exact ⟨_, rfl⟩
  | read =>
    have h : s.app.phase = 1 ∨ s.app.phase = 2 := by simp [phaseOk, hcmd] at hp; omega
    rcases h with h | h <;> simp only [appPhase, hcmd, h]
    · by_cases hz : (s.rb .inbound).count = 0
      · simp only [readPhase1]
        rw [popFrame_empty .inbound s hz]
        exact ⟨_, rfl⟩
      · have := slot_inside (s := s) (r := .inbound) hri.2.1
        simp only [readPhase1]
        rw [popFrame_eq .inbound s hz (by simp only [rb_inbound] at *; omega)]
        exact ⟨_, rfl⟩
    · exact ⟨_, rfl⟩
  | flush =>
    have h : s.app.phase = 1 ∨ s.app.phase = 2 := by simp [phaseOk, hcmd] at hp; omega
    rcases h with h | h <;> simp only [appPhase, hcmd, h] <;> exact ⟨_, rfl⟩
  | write =>
    have h : s.app.phase = 1 ∨ s.app.phase = 2 ∨ s.app.phase = 3 ∨ s.app.phase = 4 ∨ s.app.phase = 5 := by
      simp [phaseOk, hcmd] at hp; omega
    rcases h with h | h | h | h | h <;> simp only [appPhase, hcmd, h]
    · have := slot_inside (s := s) (r := .outbound) hro.1
      simp only [writePhase1]
      rw [insertFrame_eq .outbound s.app.frame s (by simp only [rb_outbound] at *; omega)]
      exact ⟨_, rfl⟩
    · simp only [writePhase2]
      split <;> exact ⟨_, rfl⟩
    · simp only [writePhase3]
      by_cases hz : s.rbOut.count = 0
      · rw [popToStaging_empty s hz, andThen_next]
        split <;> exact ⟨_, rfl⟩
      · have := slot_inside (s := s) (r := .outbound) hro.2.1
        rw [popToStaging_eq s hz (by simp only [rb_outbound] at *; omega) hst, andThen_next]
        split <;> exact ⟨_, rfl⟩
    · exact ⟨_, rfl⟩
    · simp only [writePhase5]
      rw [emitWrite_eq s hst]
      exact ⟨_, rfl⟩

/-- Whatever a phase step keeps, phases run back to back keep. -/
theorem runPhases_keeps (P : State → Prop) (hP : ∀ s t, P s → PhaseStep s t → P t) :
    ∀ (n : Nat) (s t : State), P s → runPhases n s = .next t → P t := by
  intro n
  induction n with
  | zero => intro s t hs h; cases h; exact hs
  | succ n ih =>
    intro s t hs h
    simp only [runPhases] at h
    split at h
    · cases h; exact hs
    · obtain ⟨u, hu, h⟩ := andThen_eq_next.mp h
      exact ih u t (hP s u hs (appPhase_step hu)) h

/-- Issuing a command: the issue alone, or all its phases (R203 a, R204). -/
theorem startCommand_next {c : AppCmd} {s t : State} (h : startCommand c s = .next t) :
    (s.cfg.appPreemptible = true ∧ t = s.issue c) ∨
    (s.cfg.appPreemptible = false ∧ runPhases maxPhases (s.issue c) = .next t) := by
  simp only [startCommand] at h
  split at h
  · cases h; exact .inl ⟨‹_›, rfl⟩
  · rename_i hn
    exact .inr ⟨Bool.not_eq_true _ ▸ hn, h⟩

/-- Acceptance of an application command (R160, R184). -/
theorem whenIdle_next {s t : State} {k : State → Result State} :
    whenIdle s k = .next t ↔ s.inited = true ∧ s.app.cmd = .idle ∧ k s = .next t := by
  simp only [whenIdle, whenInited_next]
  split <;> simp_all

theorem withFrameOperand_next {s t : State} {k : Bytes → Result State} :
    withFrameOperand s k = .next t ↔ s.opnd.wdata.length = s.cfg.frameSize ∧ k s.opnd.wdata = .next t := by
  simp only [withFrameOperand]
  split <;> simp_all

theorem withAddrOperand_next {s t : State} {k : Nat → Result State} :
    withAddrOperand s k = .next t ↔ s.opnd.opndA < 2 ^ s.cfg.addrW ∧ k s.opnd.opndA = .next t := by
  simp only [withAddrOperand, fitsAddr, decide_eq_true_eq]
  split <;> simp_all

theorem withRegionOperand_next {s t : State} {k : Nat → Nat → Result State} :
    withRegionOperand s k = .next t ↔
      s.opnd.opndA < 2 ^ s.cfg.addrW ∧ s.opnd.opndB < 2 ^ s.cfg.addrW ∧ k s.opnd.opndA s.opnd.opndB = .next t := by
  simp only [withRegionOperand, fitsAddr, Bool.and_eq_true, decide_eq_true_eq]
  split
  · rename_i h; simp [h]
  · rename_i h; simp only [reduceCtorEq, false_iff]; exact fun h' => h ⟨h'.1, h'.2.1⟩

/-- What phase steps keep, and the issue establishes, a started command keeps (R203 a, R204). -/
theorem startCommand_keeps (P : State → Prop) (hP : ∀ s t, P s → PhaseStep s t → P t) {c : AppCmd} {s t : State}
    (h : startCommand c s = .next t) (hs : P (s.issue c)) : P t := by
  rcases startCommand_next h with ⟨_, rfl⟩ | ⟨_, h⟩
  · exact hs
  · exact runPhases_keeps P hP _ _ _ hs h

end Sys2Proof.Machine
end

