-- ==== Sys2Proof/Laws/Decode.lean ====
section
/-!
SUPPORT. The fields of a packed word, and a word against its bytes and its fields.
-/

namespace Sys2Proof

@[simp] theorem clsField_packWord (c o : BitVec 4) (r : BitVec 1) (l : BitVec 16) : clsField (packWord c o r l) = c := by
  ext i hi
  simp only [clsField, packWord, BitVec.getElem_extractLsb', BitVec.getLsbD_append]
  have h1 : ¬ 28 + i < 16 := by omega
  have h2 : ¬ 28 + i - 16 < 1 := by omega
  have h3 : ¬ 28 + i - 16 - 1 < 7 := by omega
  have h4 : ¬ 28 + i - 16 - 1 - 7 < 4 := by omega
  simp only [h1, h2, h3, h4, if_false]
  rw [show 28 + i - 16 - 1 - 7 - 4 = i by omega, BitVec.getLsbD_eq_getElem]

@[simp] theorem opField_packWord (c o : BitVec 4) (r : BitVec 1) (l : BitVec 16) : opField (packWord c o r l) = o := by
  ext i hi
  simp only [opField, packWord, BitVec.getElem_extractLsb', BitVec.getLsbD_append]
  have h1 : ¬ 24 + i < 16 := by omega
  have h2 : ¬ 24 + i - 16 < 1 := by omega
  have h3 : ¬ 24 + i - 16 - 1 < 7 := by omega
  have h4 : 24 + i - 16 - 1 - 7 < 4 := by omega
  simp only [h1, h2, h3, h4, if_false, if_true]
  rw [show 24 + i - 16 - 1 - 7 = i by omega, BitVec.getLsbD_eq_getElem]

@[simp] theorem zField_packWord (c o : BitVec 4) (r : BitVec 1) (l : BitVec 16) : zField (packWord c o r l) = 0#7 := by
  ext i hi
  simp only [zField, packWord, BitVec.getElem_extractLsb', BitVec.getLsbD_append]
  have h1 : ¬ 17 + i < 16 := by omega
  have h2 : ¬ 17 + i - 16 < 1 := by omega
  have h3 : 17 + i - 16 - 1 < 7 := by omega
  simp [h1, h2, h3]

@[simp] theorem ringField_packWord (c o : BitVec 4) (r : BitVec 1) (l : BitVec 16) :
    ringField (packWord c o r l) = r := by
  ext i hi
  simp only [ringField, packWord, BitVec.getElem_extractLsb', BitVec.getLsbD_append]
  have h1 : ¬ 16 + i < 16 := by omega
  have h2 : 16 + i - 16 < 1 := by omega
  simp only [h1, h2, if_false, if_true]
  rw [show 16 + i - 16 = i by omega, BitVec.getLsbD_eq_getElem]

@[simp] theorem lenField_packWord (c o : BitVec 4) (r : BitVec 1) (l : BitVec 16) :
    lenField (packWord c o r l) = l := by
  ext i hi
  simp only [lenField, packWord, BitVec.getElem_extractLsb', BitVec.getLsbD_append]
  have h1 : 0 + i < 16 := by omega
  simp only [h1, if_true]
  rw [Nat.zero_add, BitVec.getLsbD_eq_getElem]

@[simp] theorem ringOfBit_bitOfRing (r : Ring) : ringOfBit (bitOfRing r) = r := by cases r <;> rfl

/-- A word is its fields (R91). -/
theorem eq_packWord (cw : Word) (h : zField cw = 0#7) :
    cw = packWord (clsField cw) (opField cw) (ringField cw) (lenField cw) := by
  rw [packWord, ← h]
  refine BitVec.eq_of_getLsbD_eq fun i hi => ?_
  simp only [clsField, opField, zField, ringField, lenField, BitVec.getLsbD_append, BitVec.getLsbD_extractLsb']
  split_ifs with h1 h2 h3 h4
  · simp [h1]
  · simp [h2, show 16 + (i - 16) = i by omega]
  · simp [h3, show 17 + (i - 16 - 1) = i by omega]
  · simp [h4, show 24 + (i - 16 - 1 - 7) = i by omega]
  · simp [show i - 16 - 1 - 7 - 4 < 4 by omega, show 28 + (i - 16 - 1 - 7 - 4) = i by omega]

/-- The four bytes of a word spell it (R104). -/
theorem wordOfBytes_wordBytes (cw : Word) :
    wordOfBytes (cw.extractLsb' 0 8) (cw.extractLsb' 8 8) (cw.extractLsb' 16 8) (cw.extractLsb' 24 8) = cw := by
  refine BitVec.eq_of_getLsbD_eq fun i hi => ?_
  simp only [wordOfBytes, BitVec.getLsbD_append, BitVec.getLsbD_extractLsb']
  split_ifs with h1 h2 h3
  · simp [h1]
  · simp [h2, show 8 + (i - 8) = i by omega]
  · simp [h3, show 16 + (i - 8 - 8) = i by omega]
  · simp [show i - 8 - 8 - 8 < 8 by omega, show 24 + (i - 8 - 8 - 8) = i by omega]

theorem decodeBytes_wordBytes (cw : Word) : decodeBytes (wordBytes cw) = decode cw := by
  rw [wordBytes, decodeBytes, wordOfBytes_wordBytes]

end Sys2Proof
end

