-- ==== Sys2Proof/Laws/PerInstr.lean ====
section
/-!
SUPPORT. A statement made per command: the fields of the command's word (30_encoding.md R91 to R96).
-/

namespace Sys2Proof.Laws

/-- The class of each format (R92). -/
def classOf : Format → BitVec 4
  | .R => 1#4
  | .A => 2#4
  | .E => 3#4
  | .I => 4#4

/-- The `len` field that a command's word holds (R93 to R96). -/
def lenOf : Instr → Nat
  | .rbInit _ => 0
  | .rbInsert _ => 0
  | .rbPop _ => 0
  | .rbCount _ => 0
  | .rbFlush _ => 0
  | .appReadCount => 0
  | .appRead => 0
  | .appWrite => 0
  | .appFlush => 0
  | .evtInComplete => 0
  | .evtOutComplete len => len
  | .evtOutNak => 0
  | .xptInit => 0

namespace EncodedFields

/-- The word of a well-formed command has the class of its format, zero in `z`, and its byte count whole in `len`. -/
def Statement (i : Instr) : Prop :=
  i.wellFormed = true →
    clsField (encode i) = classOf i.format ∧ zField (encode i) = 0#7 ∧ (lenField (encode i)).toNat = lenOf i

/-- All commands at once; the lemma of each constructor below is this one at it. -/
theorem statement_holds (i : Instr) : Statement i := by
  intro h
  cases i
  case evtOutComplete len =>
    have hl : len < 2 ^ 16 := of_decide_eq_true h
    refine ⟨?_, ?_, ?_⟩ <;> simp [encode, Instr.format, classOf, lenOf]
    omega
  all_goals simp [encode, Instr.format, classOf, lenOf]

theorem rbInit (r : Ring) : Statement (.rbInit r) := statement_holds _
theorem rbInsert (r : Ring) : Statement (.rbInsert r) := statement_holds _
theorem rbPop (r : Ring) : Statement (.rbPop r) := statement_holds _
theorem rbCount (r : Ring) : Statement (.rbCount r) := statement_holds _
theorem rbFlush (r : Ring) : Statement (.rbFlush r) := statement_holds _
theorem appReadCount : Statement .appReadCount := statement_holds _
theorem appRead : Statement .appRead := statement_holds _
theorem appWrite : Statement .appWrite := statement_holds _
theorem appFlush : Statement .appFlush := statement_holds _
theorem evtInComplete : Statement .evtInComplete := statement_holds _
theorem evtOutComplete (len : Nat) : Statement (.evtOutComplete len) := statement_holds _
theorem evtOutNak : Statement .evtOutNak := statement_holds _
theorem xptInit : Statement .xptInit := statement_holds _

end EncodedFields

end Sys2Proof.Laws
end

