-- ==== Sys2Proof/Laws/Step.lean ====
section
/-!
SUPPORT. What each command's meaning and the step can do: one lemma per meaning that says when it answers a next state and
which, and one lemma for the step.
-/

namespace Sys2Proof.Machine

/-! ### The R format -/

theorem execRbInit_next {r : Ring} {s t : State} :
    exec (.rbInit r) s = .next t ↔ s.inited = true ∧ s.opnd.opndA < 2 ^ s.cfg.addrW ∧
      (initRing r s.opnd.opndA s).ringReturn Response.nothing = t := by
  simp [exec, execRbInit, whenInited_next, withAddrOperand_next]

theorem execRbInsert_next {r : Ring} {s t : State} :
    exec (.rbInsert r) s = .next t ↔ s.inited = true ∧ s.opnd.wdata.length = s.cfg.frameSize ∧
      ∃ u, insertFrame r s.opnd.wdata s = .next u ∧ u.ringReturn Response.nothing = t := by
  simp [exec, execRbInsert, whenInited_next, withFrameOperand_next, andThen_eq_next]

theorem execRbPop_next {r : Ring} {s t : State} :
    exec (.rbPop r) s = .next t ↔ s.inited = true ∧
      ∃ p, popFrame r s = .next p ∧ p.2.ringReturn ⟨some (popResult s.cfg p.1), p.1⟩ = t := by
  simp [exec, execRbPop, whenInited_next, andThen_eq_next]

theorem execRbCount_next {r : Ring} {s t : State} :
    exec (.rbCount r) s = .next t ↔ s.inited = true ∧ s.ringReturn ⟨some (s.rb r).count, none⟩ = t := by
  simp [exec, execRbCount, whenInited_next, ringCount]

theorem execRbFlush_next {r : Ring} {s t : State} :
    exec (.rbFlush r) s = .next t ↔ s.inited = true ∧ (flushRing r s).ringReturn Response.nothing = t := by
  simp [exec, execRbFlush, whenInited_next]

/-! ### The A format -/

theorem execAppReadCount_next {s t : State} :
    exec .appReadCount s = .next t ↔ s.inited = true ∧ s.app.cmd = .idle ∧ startCommand .readCount s = .next t := by
  simp [exec, execAppReadCount, whenIdle_next]

theorem execAppRead_next {s t : State} :
    exec .appRead s = .next t ↔ s.inited = true ∧ s.app.cmd = .idle ∧ startCommand .read s = .next t := by
  simp [exec, execAppRead, whenIdle_next]

theorem execAppWrite_next {s t : State} :
    exec .appWrite s = .next t ↔ s.inited = true ∧ s.app.cmd = .idle ∧ s.opnd.wdata.length = s.cfg.frameSize ∧
      startCommand .write { s with app := { s.app with frame := s.opnd.wdata } } = .next t := by
  simp [exec, execAppWrite, whenIdle_next, withFrameOperand_next]

theorem execAppFlush_next {s t : State} :
    exec .appFlush s = .next t ↔ s.inited = true ∧ s.app.cmd = .idle ∧ startCommand .flush s = .next t := by
  simp [exec, execAppFlush, whenIdle_next]

/-! ### The E format -/

theorem execEvtInComplete_next {s t : State} :
    exec .evtInComplete s = .next t ↔ s.inited = true ∧ inCompleteHandler s = .next t := by
  simp [exec, execEvtInComplete, dispatchEvent, whenInited_next]

theorem execEvtOutComplete_next {len : Nat} {s t : State} :
    exec (.evtOutComplete len) s = .next t ↔ s.inited = true ∧ outCompleteHandler len s = .next t := by
  simp [exec, execEvtOutComplete, dispatchEvent, whenInited_next]

theorem execEvtOutNak_next {s t : State} :
    exec .evtOutNak s = .next t ↔ s.inited = true ∧ outNakHandler s = .next t := by
  simp [exec, execEvtOutNak, dispatchEvent, whenInited_next]

/-! ### The I format -/

theorem returnRegion_frame (a4 b : Nat) (s : State) :
    returnRegion a4 b s = { s with
      cfgOut := (returnRegion a4 b s).cfgOut, freeCount := (returnRegion a4 b s).freeCount } := by
  simp only [returnRegion]
  split <;> rfl

theorem execXptInit_next {s t : State} :
    exec .xptInit s = .next t ↔ s.inited = false ∧ s.opnd.opndA < 2 ^ s.cfg.addrW ∧ s.opnd.opndB < 2 ^ s.cfg.addrW ∧
      (carve s.cfg s.opnd.opndA).a4 - s.opnd.opndA ≤ s.opnd.opndB ∧
      (carve s.cfg s.opnd.opndA).a4 ≤ 2 ^ s.cfg.addrW ∧
      returnRegion (carve s.cfg s.opnd.opndA).a4
        (s.opnd.opndB - ((carve s.cfg s.opnd.opndA).a4 - s.opnd.opndA))
        (initialise (carve s.cfg s.opnd.opndA) s) = t := by
  simp only [exec, execXptInit]
  split
  · rename_i h; simp [h]
  · rename_i h
    simp only [Bool.not_eq_true] at h
    simp only [withRegionOperand_next, h, true_and]
    refine and_congr_right fun _ => and_congr_right fun _ => ?_
    split
    · rename_i hn
      simp only [noRoom, Bool.or_eq_true, decide_eq_true_eq] at hn
      simp only [reduceCtorEq, false_iff]
      rintro ⟨h1, h2, _⟩
      omega
    · rename_i hn
      simp only [noRoom, Bool.or_eq_true, decide_eq_true_eq] at hn
      rw [Host.Outcome.next.injEq]
      exact ⟨fun h => ⟨by omega, by omega, h⟩, fun h => h.2.2⟩

/-! ### Alignment (R181) -/

/-- `align_up(a)` is a multiple of `ALIGN`, at least `a` and less than `ALIGN` above it. -/
theorem alignUp_spec (c : Config) (a : Nat) (h : 0 < c.align) :
    c.align ∣ alignUp c a ∧ a ≤ alignUp c a ∧ alignUp c a < a + c.align := by
  simp only [alignUp]
  have h1 := Nat.div_add_mod (a + (c.align - 1)) c.align
  have h2 := Nat.mod_lt (a + (c.align - 1)) h
  rw [Nat.mul_comm] at h1
  exact ⟨Nat.dvd_mul_left _ _, by omega, by omega⟩

theorem align_pos {c : Config} (h : c.wf) : 0 < c.align := by
  have := h.2.2.2.2.2
  have h2 : 0 < 2 ^ Nat.log2 c.align := Nat.pow_pos (by decide)
  omega

/-- The carved regions are in order (R181, R62). -/
theorem carve_order (c : Config) (base : Nat) (h : c.wf) :
    base ≤ (carve c base).a0 ∧ (carve c base).a0 + c.rxStagingSize ≤ (carve c base).a1 ∧
      (carve c base).a1 + c.txStagingSize ≤ (carve c base).a2 ∧
      (carve c base).a2 + ringBytes c .inbound ≤ (carve c base).a3 ∧
      (carve c base).a3 + ringBytes c .outbound ≤ (carve c base).a4 := by
  have ha := align_pos h
  exact ⟨(alignUp_spec c _ ha).2.1, (alignUp_spec c _ ha).2.1, (alignUp_spec c _ ha).2.1, (alignUp_spec c _ ha).2.1,
    (alignUp_spec c _ ha).2.1⟩

/-! ### The step -/

/-- What a step does, with the action it runs: nothing but take a stimulus off the schedule, a phase of the command in
progress, or a presented command with its operands latched (R203). -/
theorem step_cases {s t : State} (h : step s = .next t) :
    ∃ rest,
      (nextAction s = .wait ∧ t = { s with inputs := rest }) ∨
      (nextAction s = .phase s.app.cmd s.app.phase ∧ s.inited = true ∧ s.app.cmd ≠ .idle ∧
        appPhase { s with inputs := rest } = .next t) ∨
      (∃ i, nextAction s = .command i ∧ exec i { s with inputs := rest, opnd := nextOperands s } = .next t) := by
  unfold step at h
  have hturn : ∀ rest, appTurn { s with inputs := rest } = .next t →
      (turnAction s = .wait ∧ t = { s with inputs := rest }) ∨
      (turnAction s = .phase s.app.cmd s.app.phase ∧ s.inited = true ∧ s.app.cmd ≠ .idle ∧
        appPhase { s with inputs := rest } = .next t) := by
    intro rest h
    simp only [appTurn] at h
    simp only [turnAction]
    split at h
    · rename_i hc
      have hc' := hc
      simp only [Bool.and_eq_true, decide_eq_true_eq] at hc'
      exact .inr ⟨if_pos hc, hc'.1, hc'.2, h⟩
    · rename_i hc
      exact .inl ⟨if_neg hc, by cases h; rfl⟩
  split at h
  · rename_i hin
    refine ⟨[], ?_⟩
    have hs : s = { s with inputs := [] } := by cases s; simp only at hin; subst hin; rfl
    rw [hs] at h
    rcases hturn [] h with h | h
    · exact .inl ⟨by simp only [nextAction, hin]; exact h.1, h.2⟩
    · exact .inr (.inl ⟨by simp only [nextAction, hin]; exact h.1, h.2⟩)
  · rename_i rest hin
    refine ⟨rest, ?_⟩
    rcases hturn rest h with h | h
    · exact .inl ⟨by simp only [nextAction, hin]; exact h.1, h.2⟩
    · exact .inr (.inl ⟨by simp only [nextAction, hin]; exact h.1, h.2⟩)
  · rename_i port cw ops rest hin
    split at h
    · rename_i hheld
      refine ⟨s.inputs, .inr (.inl ⟨by simp only [nextAction, hin, hheld, if_true], ?_, ?_, h⟩)⟩
      · simp only [eventHeld, Bool.and_eq_true, decide_eq_true_eq] at hheld; exact hheld.1.2
      · simp only [eventHeld, Bool.and_eq_true, decide_eq_true_eq] at hheld; exact hheld.2
    · rename_i hheld
      split at h
      · cases h
      · rename_i i hi
        refine ⟨rest, .inr (.inr ⟨i, ?_, ?_⟩)⟩
        · simp only [nextAction, hin, hheld, hi]; rfl
        · simp only [nextOperands, hin]; exact h

/-- What the commands at a ring port can do (R121 to R125), said once. -/
theorem exec_ring_cases {s t : State} {i : Instr} (hf : i.format = .R) (h : exec i s = .next t) :
    ∃ r out, s.inited = true ∧
      (t = (initRing r s.opnd.opndA s).ringReturn out ∨
       (s.opnd.wdata.length = s.cfg.frameSize ∧ ∃ u, insertFrame r s.opnd.wdata s = .next u ∧ t = u.ringReturn out) ∨
       (∃ p, popFrame r s = .next p ∧ t = p.2.ringReturn out) ∨
       t = s.ringReturn out ∨
       t = (flushRing r s).ringReturn out) := by
  cases i <;> simp only [Instr.format, reduceCtorEq] at hf
  · obtain ⟨hi, _, rfl⟩ := execRbInit_next.mp h
    exact ⟨_, _, hi, .inl rfl⟩
  · obtain ⟨hi, hl, u, hu, rfl⟩ := execRbInsert_next.mp h
    exact ⟨_, _, hi, .inr (.inl ⟨hl, u, hu, rfl⟩)⟩
  · obtain ⟨hi, u, hu, rfl⟩ := execRbPop_next.mp h
    exact ⟨_, _, hi, .inr (.inr (.inl ⟨u, hu, rfl⟩))⟩
  · obtain ⟨hi, rfl⟩ := execRbCount_next.mp h
    exact ⟨.inbound, _, hi, .inr (.inr (.inr (.inl rfl)))⟩
  · obtain ⟨hi, rfl⟩ := execRbFlush_next.mp h
    exact ⟨_, _, hi, .inr (.inr (.inr (.inr rfl)))⟩

/-- To show that every step keeps `P`: the schedule and the operand ports do not matter to it, and each way a state can
change keeps it. -/
theorem step_keeps (P : State → Prop)
    (hsched : ∀ s rest ops, P s → P { s with inputs := rest, opnd := ops })
    (hphase : ∀ s t, P s → PhaseStep s t → P t)
    (hissue : ∀ s c f, P s → s.inited = true → s.app.cmd = .idle →
      (f = s.app.frame ∨ f.length = s.cfg.frameSize) →
      P ({ s with app := { s.app with frame := f } }.issue c))
    (hring : ∀ s t i, P s → i.format = .R → exec i s = .next t → P t)
    (hin : ∀ s t, P s → s.inited = true → inCompleteHandler s = .next t → P t)
    (hout : ∀ s u, P s → s.inited = true → s.opnd.evData.length ≤ s.cfg.rxStagingSize →
      deliver s.opnd.evData s = .next u → P (closeDelivery u))
    (hnak : ∀ s u, P s → s.inited = true → mayArm s.flags = true →
      s.opnd.availData.length ≤ s.cfg.rxStagingSize →
      deliver s.opnd.availData (emitRdreq s) = .next u → P (u.setFlag .rxBufferQueued))
    (hinit : ∀ s t, P s → exec .xptInit s = .next t → P t)
    {s t : State} (hs : P s) (h : step s = .next t) : P t := by
  obtain ⟨rest, ⟨_, rfl⟩ | ⟨_, _, _, h⟩ | ⟨i, _, h⟩⟩ := step_cases h
  · exact hsched s rest s.opnd hs
  · exact hphase _ _ (hsched s rest s.opnd hs) (appPhase_step h)
  · have hs' := hsched s rest (nextOperands s) hs
    generalize ({ s with inputs := rest, opnd := nextOperands s } : State) = s' at h hs'
    have happ : ∀ c, s'.inited = true → s'.app.cmd = .idle → startCommand c s' = .next t → P t := fun c hi hc h =>
      startCommand_keeps P hphase h (hissue s' c s'.app.frame hs' hi hc (.inl rfl))
    cases i
    case evtInComplete =>
      obtain ⟨hi, h⟩ := execEvtInComplete_next.mp h
      exact hin _ _ hs' hi h
    case evtOutComplete len =>
      obtain ⟨hi, h⟩ := execEvtOutComplete_next.mp h
      obtain ⟨h1, h2, u, h3, rfl⟩ := outCompleteHandler_next.mp h
      exact hout _ _ hs' hi (by omega) h3
    case evtOutNak =>
      obtain ⟨hi, h⟩ := execEvtOutNak_next.mp h
      rcases outNakHandler_next.mp h with ⟨_, rfl⟩ | ⟨hm, h1, h2, u, h3, rfl⟩
      · exact hs'
      · exact hnak _ _ hs' hi hm (by omega) h3
    case xptInit => exact hinit _ _ hs' h
    case appReadCount =>
      obtain ⟨hi, hc, h⟩ := execAppReadCount_next.mp h
      exact happ _ hi hc h
    case appRead =>
      obtain ⟨hi, hc, h⟩ := execAppRead_next.mp h
      exact happ _ hi hc h
    case appFlush =>
      obtain ⟨hi, hc, h⟩ := execAppFlush_next.mp h
      exact happ _ hi hc h
    case appWrite =>
      obtain ⟨hi, hc, hl, h⟩ := execAppWrite_next.mp h
      exact startCommand_keeps P hphase h (hissue _ _ _ hs' hi hc (.inr hl))
    all_goals exact hring _ _ _ hs' rfl h

end Sys2Proof.Machine
end

