-- ==== Sys2Proof/Tests/Slice0.lean ====
section
/-!
SUPPORT. The model's own tests. Expected results are the spec's: the vectors N, R, E, A, I of 95_test_vectors.md, or the
words written out from 30_encoding.md. Then one witness for each statement of Obligations.lean that has hypotheses: a
concrete state and operands that meet them together, clause by clause.
-/

namespace Sys2Proof.Tests

open Sys2Proof Sys2Proof.Machine

set_option Elab.async false

/-! ### Helpers -/

/-- The outcome is a next state that meets `p`. -/
def after {α : Type} (o : Result α) (p : α → Bool) : Bool :=
  match o with
  | .next t => p t
  | .fault _ => false
  | .refused _ => false

/-- The outcome is the refusal `r`. -/
def refuses {α : Type} (o : Result α) (r : Refusal) : Bool :=
  match o with
  | .next _ => false
  | .fault _ => false
  | .refused q => decide (q = r)

theorem after_iff {α : Type} {o : Result α} {p : α → Bool} : after o p = true ↔ ∃ t, o = .next t ∧ p t = true := by
  cases o <;> simp [after]

/-- The frame of eight equal bytes, `[b]` in the vectors' notation. -/
def fill (b : Byte) : Bytes := List.replicate 8 b

/-- The bytes `lo, lo + 1, ...`, `n` of them. -/
def count (lo n : Nat) : Bytes := (List.range n).map fun k => BitVec.ofNat 8 (lo + k)

/-- S0 of the vectors: CFG-T after `XPT.INIT 0x1000, 0x100`. -/
def s0 : State :=
  { State.reset with
    rxStageBase := 0x1000, txStageBase := 0x1018, rbIn := ⟨0x1020, 0, 0, 0, 0⟩, rbOut := ⟨0x1040, 0, 0, 0, 0⟩
    flags := 0b0001#4, inited := true }

/-- Bytes placed in memory. -/
def put (s : State) (a : Nat) (bs : Bytes) : State := { s with wm := s.wm.writeBytes a bs }

/-- Two frames in the inbound ring, `<01..08>` and `<09..10>`: `(2,0,2,0)`. -/
def received (s : State) : State := { put s 0x1020 (count 1 16) with rbIn := ⟨0x1020, 2, 0, 2, 0⟩ }

/-- Two frames in the outbound ring, G = `[47]` and H = `[48]`: `(2,0,2,0)`. -/
def queued (s : State) : State := { put s 0x1040 (fill 0x47 ++ fill 0x48) with rbOut := ⟨0x1040, 2, 0, 2, 0⟩ }

/-- `tx_busy` set and one transfer outstanding. -/
def busy (s : State) : State := { s with flags := s.flags ||| 0b0010#4, hwTxInflight := 1 }

/-- The receive path armed. -/
def armed (s : State) : State := { s with flags := s.flags ||| 0b1000#4 }

/-- `rx_buffer_full` set. -/
def full (s : State) : State := { s with flags := s.flags ||| 0b0100#4 }

/-- The sequencer in phase `k` of a command. -/
def inPhase (s : State) (c : AppCmd) (k : Nat) : State := { s with app := { s.app with cmd := c, phase := k } }

/-- Application commands indivisible. -/
def indivisible (s : State) : State := { s with cfg := { s.cfg with appPreemptible := false } }

/-- A frame at the `wdata` port. -/
def offering (s : State) (f : Bytes) : State := { s with opnd := { Operands.zero with wdata := f } }

/-- A delivery at the `ev_data` port. -/
def delivering (s : State) (d : Bytes) : State := { s with opnd := { Operands.zero with evData := d } }

/-- An answer at the `avail` and `avail_data` ports. -/
def answering (s : State) (d : Bytes) : State := { s with opnd := { Operands.zero with avail := d.length, availData := d } }

/-- A power-on state with a region at the configuration port. -/
def given (c : Config) (base size : Nat) : State :=
  { powerOn c [] with opnd := { Operands.zero with opndA := base, opndB := size } }

/-- CFG-T with `ALIGN 16` (vector I4). -/
def cfgAligned : Config := { Config.cfgT with align := 16 }

/-- The smallest configuration of R7: every parameter 1. -/
def cfgLeast : Config := ⟨1, 1, 1, 1, 1, 32, 0, 0, true⟩

/-- The largest capacities and staging buffer of R7. -/
def cfgMost : Config := ⟨1, 65535, 65535, 65535, 1, 32, 0, 0, true⟩

/-! ### Well-formedness refuses ill-formed terms -/

theorem test_wellFormed_refuses_long_len : (Instr.evtOutComplete 65536).wellFormed = false := by decide
theorem test_wellFormed_takes_longest_len : (Instr.evtOutComplete 65535).wellFormed = true := by decide
theorem test_config_refuses_empty_frame : ¬ { Config.cfgT with frameSize := 0 }.wf := by decide
theorem test_config_refuses_no_inbound_slot : ¬ { Config.cfgT with inCapacity := 0 }.wf := by decide
theorem test_config_refuses_wide_inbound : ¬ { Config.cfgT with inCapacity := 65536 }.wf := by decide +kernel
theorem test_config_refuses_no_outbound_slot : ¬ { Config.cfgT with outCapacity := 0 }.wf := by decide
theorem test_config_refuses_wide_outbound : ¬ { Config.cfgT with outCapacity := 65536 }.wf := by decide +kernel
theorem test_config_refuses_no_transfer : ¬ { Config.cfgT with nXfer := 0 }.wf := by decide
theorem test_config_refuses_wide_staging : ¬ { Config.cfgT with nXfer := 8192 }.wf := by decide +kernel
theorem test_config_refuses_odd_align : ¬ { Config.cfgT with align := 3 }.wf := by decide +kernel
theorem test_config_takes_cfgT : Config.cfgT.wf := by decide +kernel

/-! ### Decoding (N1 to N16), every constructor from a word written out from R93 to R96 -/

theorem test_decode_rbInit : decode 0x10000000#32 = .ok (.rbInit .inbound) := by rfl
theorem test_decode_rbInsert : decode 0b00010001000000010000000000000000#32 = .ok (.rbInsert .outbound) := by rfl
theorem test_decode_rbPop : decode 0x12010000#32 = .ok (.rbPop .outbound) := by rfl
theorem test_decode_rbCount : decode 0x13000000#32 = .ok (.rbCount .inbound) := by rfl
theorem test_decode_rbFlush : decode 0x14010000#32 = .ok (.rbFlush .outbound) := by rfl
theorem test_decode_appReadCount : decode 0b00100000000000000000000000000000#32 = .ok .appReadCount := by rfl
theorem test_decode_appRead : decode 0x21000000#32 = .ok .appRead := by rfl
theorem test_decode_appWrite : decode 0x22000000#32 = .ok .appWrite := by rfl
theorem test_decode_appFlush : decode 0x23000000#32 = .ok .appFlush := by rfl
theorem test_decode_evtInComplete : decode 0x30000000#32 = .ok .evtInComplete := by rfl
theorem test_decode_evtOutComplete : decode 0b00110001000000000000000000010100#32 = .ok (.evtOutComplete 20) := by rfl
theorem test_decode_evtOutNak : decode 0x32000000#32 = .ok .evtOutNak := by rfl
theorem test_decode_xptInit : decode 0b01000000000000000000000000000000#32 = .ok .xptInit := by rfl
theorem test_decode_longest_len : decode 0x3100FFFF#32 = .ok (.evtOutComplete 65535) := by rfl
theorem test_decode_reserved_class : decode 0x00000000#32 = .error .reservedClass := by rfl
theorem test_decode_reserved_op : decode 0x41000000#32 = .error .reservedOp := by rfl
theorem test_decode_ring_bit_outside_R : decode 0x20010000#32 = .error .nonzeroRing := by rfl
theorem test_decode_len_outside_out_complete : decode 0x32000008#32 = .error .nonzeroLen := by rfl
theorem test_decode_z_field : decode 0x22800000#32 = .error .nonzeroZ := by rfl
theorem test_decode_bytes : decodeBytes [0x14#8, 0x00#8, 0x00#8, 0x31#8] = .ok (.evtOutComplete 20) := by rfl
theorem test_decode_short_bytes : decodeBytes [0x00#8, 0x00#8, 0x31#8] = .error .wrongLength := by rfl
theorem test_encode_bytes : encodeBytes (.evtOutComplete 20) = [0x14#8, 0x00#8, 0x00#8, 0x31#8] := by rfl
theorem test_decodeTableWord : decodeTableWord 32 0x22000000 = some .appWrite := by decide +kernel

/-! ### Ring primitives -/

/-- R121. -/
theorem test_rbInit : after (exec (.rbInit .outbound)
    { queued s0 with opnd := { Operands.zero with opndA := 0x2000 } })
    (fun t => decide (t.rbOut = ⟨0x2000, 0, 0, 0, 0⟩) && decide (t.rbIn = s0.rbIn)) = true := by decide +kernel

/-- R3: a full ring drops its oldest frame. -/
theorem test_rbInsert_full : after (exec (.rbInsert .inbound) (offering { s0 with rbIn := ⟨0x1020, 0, 0, 4, 0⟩ } (fill 0x45)))
    (fun t => decide (t.rbIn = ⟨0x1020, 1, 1, 4, 1⟩) && decide (t.wm.readBytes 0x1020 8 = fill 0x45)) = true := by
  decide +kernel

/-- R9: the overflow counter saturates. -/
theorem test_rbInsert_saturates : after
    (exec (.rbInsert .inbound) (offering { s0 with rbIn := ⟨0x1020, 0, 0, 4, 0xFFFFFFFF⟩ } (fill 0x58)))
    (fun t => decide (t.rbIn = ⟨0x1020, 1, 1, 4, 0xFFFFFFFF⟩)) = true := by decide +kernel

/-- R1. -/
theorem test_rbPop_empty : after (exec (.rbPop .inbound) s0)
    (fun t => decide (t.ringOut = ⟨some 0, none⟩) && decide (t.rbIn = s0.rbIn)) = true := by decide +kernel

/-- R6: `tail` wraps. -/
theorem test_rbPop_wraps : after (exec (.rbPop .inbound) { put s0 0x1038 (fill 0x44) with rbIn := ⟨0x1020, 1, 3, 2, 0⟩ })
    (fun t => decide (t.ringOut = ⟨some 8, some (fill 0x44)⟩) && decide (t.rbIn = ⟨0x1020, 1, 0, 1, 0⟩)) = true := by
  decide +kernel

/-- R4. -/
theorem test_rbCount : after (exec (.rbCount .inbound) { s0 with rbIn := ⟨0x1020, 1, 1, 4, 1⟩ })
    (fun t => decide (t.ringOut = ⟨some 4, none⟩)) = true := by decide +kernel

/-- R7: `ovf` stays. -/
theorem test_rbFlush : after (exec (.rbFlush .inbound) { s0 with rbIn := ⟨0x1020, 1, 2, 3, 1⟩ })
    (fun t => decide (t.rbIn = ⟨0x1020, 0, 0, 0, 1⟩)) = true := by decide +kernel

/-! ### Events -/

/-- E1. -/
theorem test_evtInComplete_idle : after (exec .evtInComplete (busy s0))
    (fun t => decide (t.flags = 0b0001#4) && decide (t.hwTxInflight = 0)) = true := by decide +kernel

/-- E2. -/
theorem test_evtInComplete_chains : after (exec .evtInComplete (busy (queued s0)))
    (fun t => decide (t.rbOut = ⟨0x1040, 2, 1, 1, 0⟩) && decide (t.hwLog = [.write 0x81 (fill 0x47)])) = true := by
  decide +kernel

/-- E4. -/
theorem test_evtOutComplete_remainder : after (exec (.evtOutComplete 20) (delivering (armed s0) (count 1 20)))
    (fun t => decide (t.flags = 0b0101#4) && decide (contents t .inbound = [count 1 8, count 9 8])) = true := by
  decide +kernel

/-- E5. -/
theorem test_evtOutComplete_unarmed : after (exec (.evtOutComplete 20) (delivering s0 (count 1 20)))
    (fun t => decide (t.flags = 0b0001#4) && decide (t.rxPending = 4)) = true := by decide +kernel

/-- E12. -/
theorem test_evtOutNak_arms : after (exec .evtOutNak (answering s0 (count 0x61 9)))
    (fun t => decide (t.hwLog = [.rdreq 0x01 24]) && decide (t.flags = 0b1001#4)) = true := by decide +kernel

/-- E11. -/
theorem test_evtOutNak_full : after (exec .evtOutNak (full s0))
    (fun t => decide (t.hwLog = []) && decide (t.flags = 0b0101#4)) = true := by decide +kernel

/-! ### Application commands, indivisible as in the vectors -/

/-- A2. -/
theorem test_appReadCount : after (exec .appReadCount (indivisible (received s0)))
    (fun t => decide (t.appOut = ⟨some 2, none⟩)) = true := by decide +kernel

/-- A4: the flag is cleared though a frame remains. -/
theorem test_appRead : after (exec .appRead (indivisible (full (received s0))))
    (fun t => decide (t.appOut = ⟨some 8, some (count 1 8)⟩) && decide (t.flags = 0b0001#4)) = true := by decide +kernel

/-- A3. -/
theorem test_appRead_empty : after (exec .appRead (indivisible s0))
    (fun t => decide (t.appOut = ⟨some 0, none⟩)) = true := by decide +kernel

/-- A5: the oldest frame is sent, not the one written. -/
theorem test_appWrite_starts : after (exec .appWrite (indivisible (offering (queued s0) (fill 0x46))))
    (fun t => decide (t.hwLog = [.write 0x81 (fill 0x47)]) && decide (contents t .outbound = [fill 0x48, fill 0x46])) =
      true := by decide +kernel

/-- A7: without a connection the frame is queued only. -/
theorem test_appWrite_unconnected : after (exec .appWrite (indivisible (offering { s0 with flags := 0#4 } (fill 0x47))))
    (fun t => decide (t.hwLog = []) && decide (t.rbOut = ⟨0x1040, 1, 0, 1, 0⟩)) = true := by decide +kernel

/-- A8: the flags stay. -/
theorem test_appFlush : after (exec .appFlush (indivisible { received (queued s0) with flags := 0b0111#4 }))
    (fun t => decide (t.rbIn = s0.rbIn) && decide (t.flags = 0b0111#4)) = true := by decide +kernel

/-! ### Initialisation -/

/-- I1. -/
theorem test_xptInit : after (exec .xptInit (given Config.cfgT 0x1000 0x100))
    (fun t => decide (t.cfgOut = some (0x1058, 0xA8)) && decide (t.rbOut = ⟨0x1040, 0, 0, 0, 0⟩)) = true := by
  decide +kernel

/-- I4. -/
theorem test_xptInit_aligned : after (exec .xptInit (given cfgAligned 0x1004 0x100))
    (fun t => decide (t.cfgOut = some (0x1080, 0x84)) && decide (t.txStageBase = 0x1030)) = true := by decide +kernel

/-! ### Witnesses: encoding and the step -/

theorem witness_EveryCommandDecodesFromItsOwnWord :
    (Instr.evtOutComplete 65535).wellFormed = true ∧ (Instr.evtOutComplete 0).wellFormed = true ∧
      (Instr.rbPop .outbound).wellFormed = true := by decide

theorem witness_ADecodedWordIsItsCommandsOnlyWord : decode 0x3100FFFF#32 = .ok (.evtOutComplete 65535) := by rfl

/-- An event at its port while a write is in progress, and an application command at an idle block. -/
theorem witness_StepRunsThePresentedCommand :
    ∃ (s s' : State), s.inputs = [.present .event 0x30000000#32 Operands.zero] ∧
      decode 0x30000000#32 = .ok .evtInComplete ∧ portOf .evtInComplete = .event ∧
      (Port.event = .event → s.inited = true → s.cfg.appPreemptible = false → s.app.cmd = .idle) ∧
      s'.inputs = [.present .app 0x21000000#32 Operands.zero] ∧ decode 0x21000000#32 = .ok .appRead ∧
      portOf .appRead = .app ∧
      (Port.app = .event → s'.inited = true → s'.cfg.appPreemptible = false → s'.app.cmd = .idle) :=
  ⟨{ inPhase s0 .write 2 with inputs := [.present .event 0x30000000#32 Operands.zero] },
    { s0 with inputs := [.present .app 0x21000000#32 Operands.zero] },
    rfl, rfl, rfl, by decide, rfl, rfl, rfl, by decide⟩

/-- An illegal word (N11) and a word at another port (N17), at the event port of an idle block. -/
theorem witness_StepRefusesIllegalAndMisdirectedWords :
    ∃ (s s' : State), s.inputs = [.present .event 0x50000000#32 Operands.zero] ∧
      s'.inputs = [.present .event 0x22000000#32 Operands.zero] ∧
      (Port.event = .event → s.inited = true → s.cfg.appPreemptible = false → s.app.cmd = .idle) ∧
      (Port.event = .event → s'.inited = true → s'.cfg.appPreemptible = false → s'.app.cmd = .idle) ∧
      decode 0x50000000#32 = .error .reservedClass ∧ decode 0x22000000#32 = .ok .appWrite ∧ portOf .appWrite ≠ .event :=
  ⟨{ s0 with inputs := [.present .event 0x50000000#32 Operands.zero] },
    { s0 with inputs := [.present .event 0x22000000#32 Operands.zero] },
    rfl, rfl, by decide, by decide, rfl, rfl, by decide⟩

theorem witness_ApplicationTurnRunsThePhaseInProgress :
    ∃ (s s' : State), s.inputs = [.appTurn] ∧ s.inited = true ∧ s.app.cmd ≠ .idle ∧
      s'.inputs = [] ∧ s'.inited = true ∧ s'.app.cmd ≠ .idle ∧
      s0.inputs = [] ∧ s0.app.cmd = .idle ∧ ({ s0 with inputs := [.appTurn] } : State).app.cmd = .idle :=
  ⟨{ inPhase s0 .flush 1 with inputs := [.appTurn] }, inPhase s0 .flush 1, rfl, rfl, by decide, rfl, rfl, by decide, rfl,
    rfl, rfl⟩

theorem witness_EventWaitsWhileCommandIsIndivisible :
    ∃ s : State, s.inputs = [.present .event 0x32000000#32 Operands.zero] ∧ s.inited = true ∧
      s.cfg.appPreemptible = false ∧ s.app.cmd ≠ .idle :=
  ⟨{ indivisible (inPhase s0 .read 1) with inputs := [.present .event 0x32000000#32 Operands.zero] },
    rfl, rfl, rfl, by decide⟩

/-! ### Witnesses: refusals and initialisation -/

/-- N18. -/
theorem witness_UninitialisedBlockRefusesEveryOtherCommand :
    State.reset.inited = false ∧ Instr.evtOutNak ≠ .xptInit ∧ refuses (exec .evtOutNak State.reset) .notInited = true := by
  decide +kernel

/-- A10. -/
theorem witness_ApplicationCommandWhileBusyIsRefused :
    Instr.appRead.format = .A ∧ (inPhase s0 .write 1).inited = true ∧ (inPhase s0 .write 1).app.cmd ≠ .idle := by
  decide

/-- I5; I3, one byte short; I6, past the top. -/
theorem witness_InitialisationRefusedWithoutRoomOrTwice :
    Config.cfgT.wf ∧ s0.inited = true ∧ (given Config.cfgT 0x1000 0x57).inited = false ∧ 0x57 < 2 ^ Config.cfgT.addrW ∧
      AlignedUp Config.cfgT 0x1000 0x1000 ∧ AlignedUp Config.cfgT (0x1000 + 24) 0x1018 ∧
      AlignedUp Config.cfgT (0x1018 + 8) 0x1020 ∧ AlignedUp Config.cfgT (0x1020 + 32) 0x1040 ∧
      AlignedUp Config.cfgT (0x1040 + 24) 0x1058 ∧ 0x57 < 0x1058 - 0x1000 ∧
      0xFFFFFFC0 < 2 ^ Config.cfgT.addrW ∧ AlignedUp Config.cfgT (0xFFFFFFC0 + 0x40 + 24) 0x100000018 ∧
      2 ^ Config.cfgT.addrW < 0x100000018 := by
  simp only [AlignedUp]; decide +kernel

/-- I2, exactly enough; I4, aligned; and the carved end at the top of memory. -/
theorem witness_InitialisationLeavesTheInitialState :
    Config.cfgT.wf ∧ (given Config.cfgT 0x1000 0x58).inited = false ∧ 0x58 < 2 ^ Config.cfgT.addrW ∧
      AlignedUp Config.cfgT 0x1000 0x1000 ∧ AlignedUp Config.cfgT (0x1000 + 24) 0x1018 ∧
      AlignedUp Config.cfgT (0x1018 + 8) 0x1020 ∧ AlignedUp Config.cfgT (0x1020 + 32) 0x1040 ∧
      AlignedUp Config.cfgT (0x1040 + 24) 0x1058 ∧ 0x1058 - 0x1000 ≤ 0x58 ∧ 0x1058 ≤ 2 ^ Config.cfgT.addrW ∧
      cfgAligned.wf ∧ AlignedUp cfgAligned 0x1004 0x1010 ∧ AlignedUp cfgAligned (0x1010 + 24) 0x1030 ∧
      AlignedUp cfgAligned (0x1030 + 8) 0x1040 ∧ AlignedUp cfgAligned (0x1040 + 32) 0x1060 ∧
      AlignedUp cfgAligned (0x1060 + 24) 0x1080 ∧ 0x1080 - 0x1004 ≤ 0x100 ∧
      AlignedUp Config.cfgT (0xFFFFFFA8 + 0x40 + 24) (2 ^ Config.cfgT.addrW) := by
  simp only [AlignedUp]; decide +kernel

/-- I4, aligned, with the end of its carved regions below `2^ADDR_W`. -/
theorem witness_CarvedRegionsAreDisjointAndInside :
    cfgAligned.wf ∧
      (∃ t, exec .xptInit (given cfgAligned 0x1004 0x100) = .next t ∧ decide (t.rbOut.base = 0x1060) = true) ∧
      AlignedUp cfgAligned 0x1004 0x1010 ∧ AlignedUp cfgAligned (0x1010 + 24) 0x1030 ∧
      AlignedUp cfgAligned (0x1030 + 8) 0x1040 ∧ AlignedUp cfgAligned (0x1040 + 32) 0x1060 ∧
      AlignedUp cfgAligned (0x1060 + 24) 0x1080 ∧ 0x1080 < 2 ^ cfgAligned.addrW := by
  refine ⟨by decide +kernel, after_iff.mp (by decide +kernel), ?_⟩
  simp only [AlignedUp]; decide +kernel

/-! ### Witnesses: ring primitives -/

theorem witness_RingInitSetsTheRingRegisters : s0.inited = true ∧ 2 ^ s0.cfg.addrW - 1 < 2 ^ s0.cfg.addrW := by
  decide +kernel

/-- A slot that ends at the top of memory, on a ring that is full. -/
theorem witness_InsertWritesTheHeadSlotAndAdvances :
    ∃ s : State, s.inited = true ∧ s.wm.wf ∧ s.opnd.wdata.length = s.cfg.frameSize ∧
      slotAddr s .inbound (s.rb .inbound).head + s.cfg.frameSize = 2 ^ s.cfg.addrW ∧
      (s.rb .inbound).count = capacity s.cfg .inbound :=
  ⟨{ offering s0 (fill 1) with rbIn := ⟨0xFFFFFFE0, 3, 3, 4, 0⟩ }, by decide +kernel⟩

theorem witness_PopReturnsTheTailSlotOrZero :
    s0.inited = true ∧ (s0.rb .inbound).count = 0 ∧ (received s0).inited = true ∧ ((received s0).rb .inbound).count ≠ 0 ∧
      slotAddr (received s0) .inbound ((received s0).rb .inbound).tail + s0.cfg.frameSize ≤ 2 ^ s0.cfg.addrW := by
  decide +kernel

theorem witness_CountReturnsTheFramesHeld : (received s0).inited = true ∧ (received s0).rbIn.count = 2 := by decide +kernel

theorem witness_FlushZeroesPointersAndCount : (queued s0).inited = true ∧ (queued s0).rbOut.count = 2 := by decide +kernel

/-- An insert, a pop and a flush at a ring that already holds two frames. -/
theorem witness_RingActsAsALossyQueue :
    (received s0).inited = true ∧ (received s0).cfg.wf ∧ (received s0).wm.wf ∧
      ((received s0).rb .inbound).ok (capacity s0.cfg .inbound) ∧ StorageInside (received s0) .inbound ∧
      ∀ op ∈ [RingOp.insert (fill 1), .pop, .flush], ∀ f, op = .insert f → f.length = s0.cfg.frameSize := by
  refine ⟨by decide +kernel, by decide +kernel, by decide +kernel, by decide +kernel, by decide +kernel, ?_⟩
  intro op hop f hf
  subst hf
  simp only [List.mem_cons, RingOp.insert.injEq, reduceCtorEq, List.not_mem_nil, or_false] at hop
  rw [hop]
  rfl

/-- As many frames as the ring holds. -/
theorem witness_FramesWithinCapacityComeOutInOrder :
    s0.inited = true ∧ s0.cfg.wf ∧ s0.wm.wf ∧ (s0.rb .outbound).ok (capacity s0.cfg .outbound) ∧
      (s0.rb .outbound).count = 0 ∧ StorageInside s0 .outbound ∧
      [fill 1, fill 2, fill 3].length = capacity s0.cfg .outbound ∧
      ∀ f ∈ [fill 1, fill 2, fill 3], f.length = s0.cfg.frameSize := by
  decide +kernel

/-! ### Witnesses: events -/

/-- A transfer outstanding, and (not ENV1) none; the ring empty and not. -/
theorem witness_InCompleteSendsTheOldestFrameOrGoesIdle :
    (busy s0).inited = true ∧ (busy s0).rbOut.count = 0 ∧ 1 ≤ (busy s0).hwTxInflight ∧ s0.hwTxInflight = 0 ∧
      (busy (queued s0)).inited = true ∧ (busy (queued s0)).rbOut.count ≠ 0 ∧ (busy (queued s0)).wm.wf ∧
      slotAddr (busy (queued s0)) .outbound (busy (queued s0)).rbOut.tail + s0.cfg.frameSize ≤ 2 ^ s0.cfg.addrW ∧
      s0.txStageBase + s0.cfg.frameSize ≤ 2 ^ s0.cfg.addrW := by decide +kernel

/-- Two frames queued: part of them and all of them. -/
theorem witness_ConsecutiveCompletionsDrainTheQueue :
    (busy (queued s0)).inited = true ∧ (queued s0).cfg.wf ∧ (busy (queued s0)).wm.wf ∧ LayoutOk (busy (queued s0)) ∧
      (busy (queued s0)).rbOut.ok s0.cfg.outCapacity ∧ 1 ≤ (busy (queued s0)).rbOut.count ∧
      2 = (busy (queued s0)).rbOut.count := by decide +kernel

/-- E13: 25 is the first byte count above the staging buffer of 24. Then the longest delivery, the empty one, one with a
remainder; armed and not. -/
theorem witness_OutCompleteSplitsTheTransferIntoFrames :
    s0.inited = true ∧ s0.cfg.rxStagingSize < 25 ∧ s0.cfg.wf ∧ s0.wm.wf ∧ LayoutOk s0 ∧ s0.rbIn.ok s0.cfg.inCapacity ∧
      24 ≤ s0.cfg.rxStagingSize ∧ (delivering s0 (count 0 24)).opnd.evData.length = 24 ∧
      (delivering s0 []).opnd.evData.length = 0 ∧ (delivering s0 (count 1 20)).opnd.evData.length = 20 ∧
      (armed s0).flag .rxBufferQueued = true ∧ s0.flag .rxBufferQueued = false := by decide +kernel

/-- Either flag set; an answer one byte too long; the longest lawful answer. -/
theorem witness_OutNakArmsOrDoesNothing :
    (armed s0).flag .rxBufferQueued = true ∧ (full s0).flag .rxBufferFull = true ∧
      s0.cfg.rxStagingSize < (answering s0 (count 0 25)).opnd.avail ∧
      ∃ s : State, s.inited = true ∧ s.cfg.wf ∧ s.wm.wf ∧ LayoutOk s ∧ s.rbIn.ok s.cfg.inCapacity ∧
        s.flag .rxBufferFull = false ∧ s.flag .rxBufferQueued = false ∧ s.opnd.avail = s.cfg.rxStagingSize ∧
        s.opnd.availData.length = s.opnd.avail :=
  ⟨by decide +kernel, by decide +kernel, by decide +kernel, answering s0 (count 0 24), by decide +kernel⟩

/-- A delivery and an answer, two whole frames each, and an address outside what they write. -/
theorem witness_DeliveryWritesOnlyStagingAndHeadSlots :
    s0.cfg.wf ∧ s0.rbIn.head < s0.cfg.inCapacity ∧
      (∃ t, exec (.evtOutComplete 20) (delivering s0 (count 1 20)) = .next t ∧ decide (t.rxPending = 4) = true) ∧
      (∃ t, exec .evtOutNak (answering s0 (count 1 20)) = .next t ∧ decide (t.rxPending = 4) = true) ∧
      s0.rxStageBase + 20 ≤ 0x1030 ∧
      ∀ j, j < 20 / s0.cfg.frameSize →
        slotAddr s0 .inbound ((s0.rbIn.head + j) % s0.cfg.inCapacity) + s0.cfg.frameSize ≤ 0x1030 :=
  ⟨by decide +kernel, by decide +kernel, after_iff.mp (by decide +kernel), after_iff.mp (by decide +kernel),
    by decide +kernel, by decide +kernel⟩

theorem witness_EventsLeaveTheApplicationSequencer :
    Instr.evtInComplete.format = .E ∧
      ∃ t, exec .evtInComplete (inPhase (busy (queued s0)) .write 2) = .next t ∧ decide (t.app.phase = 2) = true :=
  ⟨rfl, after_iff.mp (by decide +kernel)⟩

/-- A sequencer in phase 2 of a write; the event reaches a next state. -/
theorem witness_EventsDoNotReadTheApplicationSequencer :
    Instr.evtInComplete.format = .E ∧
      after (exec .evtInComplete { busy (queued s0) with app := ⟨.write, 2, fill 1, 8, false⟩ })
        (fun t => decide (t.app.phase = 2)) = true := by decide +kernel

/-- One state for each clause. -/
theorem witness_ReceiveStateFollowsItsTransitions :
    s0.cfg.wf ∧ rxState s0 = some .armable ∧ rxState (armed s0) = some .armed ∧ rxState (full s0) = some .full ∧
      (∃ t, exec .evtOutNak s0 = .next t ∧ decide (rxState t = some .armed) = true) ∧
      (∃ t, exec .evtOutNak (armed s0) = .next t ∧ decide (rxState t = some .armed) = true) ∧
      (∃ t, exec .evtOutNak (full s0) = .next t ∧ decide (rxState t = some .full) = true) ∧
      (∃ t, exec (.evtOutComplete 5) (delivering (armed s0) (count 0 5)) = .next t ∧
        decide (rxState t = some .full) = true) ∧
      (∃ t, exec (.evtOutComplete 16) (delivering (armed s0) (count 0 16)) = .next t ∧
        decide (rxState t = some .armable) = true) ∧
      (∃ t, exec (.evtOutComplete 5) (delivering s0 (count 0 5)) = .next t ∧
        decide (rxState t = some .armable) = true) ∧
      (∃ t, exec (.evtOutComplete 5) (delivering (full s0) (count 0 5)) = .next t ∧
        decide (rxState t = some .full) = true) ∧
      (∃ t, exec .evtInComplete (busy (full s0)) = .next t ∧ decide (rxState t = some .full) = true) :=
  ⟨by decide +kernel, by decide +kernel, by decide +kernel, by decide +kernel, after_iff.mp (by decide +kernel),
    after_iff.mp (by decide +kernel), after_iff.mp (by decide +kernel), after_iff.mp (by decide +kernel),
    after_iff.mp (by decide +kernel), after_iff.mp (by decide +kernel), after_iff.mp (by decide +kernel),
    after_iff.mp (by decide +kernel)⟩

/-! ### Witnesses: the application interface -/

theorem witness_IssueLatchesTheCommand :
    s0.inited = true ∧ s0.app.cmd = .idle ∧ s0.cfg.appPreemptible = true ∧
      (offering s0 (fill 1)).opnd.wdata.length = s0.cfg.frameSize := by decide +kernel

theorem witness_ReadCountAndFlushPhases :
    (inPhase s0 .readCount 1).app.cmd = .readCount ∧ (inPhase s0 .readCount 1).app.phase = 1 ∧
      (inPhase s0 .flush 1).app.cmd = .flush ∧ (inPhase s0 .flush 1).app.phase = 1 ∧
      (inPhase s0 .flush 2).app.cmd = .flush ∧ (inPhase s0 .flush 2).app.phase = 2 := by decide

theorem witness_ReadPopsThenClearsTheFullFlag :
    (inPhase s0 .read 1).app.cmd = .read ∧ (inPhase s0 .read 1).app.phase = 1 ∧ (inPhase s0 .read 1).rbIn.count = 0 ∧
      (inPhase (received s0) .read 1).rbIn.count ≠ 0 ∧
      slotAddr (inPhase (received s0) .read 1) .inbound (received s0).rbIn.tail + s0.cfg.frameSize ≤ 2 ^ s0.cfg.addrW ∧
      (inPhase s0 .read 2).app.phase = 2 := by decide +kernel

/-- Phase 1 on a ring with room and on a full one; phase 2 with the flags either way; phase 3 with and without a frame;
phases 4 and 5. -/
theorem witness_WriteRunsItsFivePhases :
    (inPhase s0 .write 1).app.cmd = .write ∧ 1 ≤ s0.cfg.frameSize ∧ (inPhase s0 .write 1).app.phase = 1 ∧ s0.wm.wf ∧
      (inPhase s0 .write 1).app.frame.length = s0.cfg.frameSize ∧
      slotAddr s0 .outbound s0.rbOut.head + s0.cfg.frameSize ≤ 2 ^ s0.cfg.addrW ∧
      ({ s0 with rbOut := ⟨0x1040, 2, 2, 3, 0⟩ } : State).rbOut.count = s0.cfg.outCapacity ∧
      (inPhase s0 .write 2).app.phase = 2 ∧ (inPhase s0 .write 2).flag .txBusy = false ∧
      (inPhase s0 .write 2).flag .txConnected = true ∧ (inPhase (busy s0) .write 2).flag .txBusy = true ∧
      ({ s0 with flags := 0#4 } : State).flag .txConnected = false ∧ (inPhase s0 .write 3).app.phase = 3 ∧
      (inPhase s0 .write 3).rbOut.count = 0 ∧ (inPhase (queued s0) .write 3).rbOut.count ≠ 0 ∧ (queued s0).wm.wf ∧
      slotAddr (queued s0) .outbound (queued s0).rbOut.tail + s0.cfg.frameSize ≤ 2 ^ s0.cfg.addrW ∧
      s0.txStageBase + s0.cfg.frameSize ≤ 2 ^ s0.cfg.addrW ∧ (inPhase s0 .write 4).app.phase = 4 ∧
      (inPhase s0 .write 5).app.phase = 5 := by decide +kernel

theorem witness_IndivisibleReadsAndFlush :
    (indivisible s0).inited = true ∧ (indivisible s0).app.cmd = .idle ∧ (indivisible s0).cfg.appPreemptible = false ∧
      1 ≤ (indivisible s0).cfg.frameSize ∧ (indivisible s0).rbIn.count = 0 ∧
      (indivisible (received s0)).rbIn.count ≠ 0 ∧
      slotAddr (indivisible (received s0)) .inbound (received s0).rbIn.tail + s0.cfg.frameSize ≤ 2 ^ s0.cfg.addrW := by
  decide +kernel

/-- The block at rest, and with a transfer outstanding and the ring full. -/
theorem witness_IndivisibleWriteQueuesAndMayStart :
    ∃ (s s' : State) (q q' : RingRegs),
      s.inited = true ∧ s.app.cmd = .idle ∧ s.cfg.appPreemptible = false ∧ s.cfg.wf ∧ s.wm.wf ∧ LayoutOk s ∧
      s.rbOut.ok s.cfg.outCapacity ∧ s.opnd.wdata.length = s.cfg.frameSize ∧ s.flag .txBusy = false ∧
      s.flag .txConnected = true ∧ s.rbOut.count ≠ s.cfg.outCapacity ∧
      q = { s.rbOut with head := (s.rbOut.head + 1) % s.cfg.outCapacity, count := s.rbOut.count + 1 } ∧
      s'.inited = true ∧ s'.app.cmd = .idle ∧ s'.cfg.appPreemptible = false ∧ s'.cfg.wf ∧ s'.wm.wf ∧ LayoutOk s' ∧
      s'.rbOut.ok s'.cfg.outCapacity ∧ s'.opnd.wdata.length = s'.cfg.frameSize ∧ s'.flag .txBusy = true ∧
      s'.rbOut.count = s'.cfg.outCapacity ∧ q' = ⟨0x1040, 0, 0, 3, 1⟩ :=
  ⟨indivisible (offering (queued s0) (fill 1)),
    indivisible (offering (busy { s0 with rbOut := ⟨0x1040, 2, 2, 3, 0⟩ }) (fill 1)),
    ⟨0x1040, 0, 0, 3, 0⟩, ⟨0x1040, 0, 0, 3, 1⟩, by decide +kernel⟩

theorem witness_ApplicationCommandCompletesInItsPhases :
    s0.cfg.wf ∧ RingsOk s0 ∧ s0.inited = true ∧ StorageInside s0 .inbound ∧ StorageInside s0 .outbound ∧
      s0.txStageBase + s0.cfg.frameSize ≤ 2 ^ s0.cfg.addrW ∧ s0.app.frame.length = s0.cfg.frameSize ∧
      (inPhase s0 .readCount 1).app.phase = 1 ∧ (inPhase s0 .readCount 1).app.cmd = .readCount ∧
      (inPhase s0 .read 1).app.cmd = .read ∧ (inPhase s0 .write 1).app.cmd = .write ∧
      (inPhase s0 .flush 1).app.cmd = .flush := by decide +kernel

/-! ### Witnesses: whole-machine rules -/

/-- A power-on state that holds other values than `State.reset` wherever the spec gives none. -/
def junk (c : Config) : State :=
  { powerOn c [] with
    rbIn := ⟨5, 9, 7, 99, 3⟩, flags := 0b1111#4, rxPending := 77, wm := [⟨3, 0xAA#8⟩]
    app := ⟨.idle, 9, List.replicate c.frameSize 0x55#8, 77, true⟩ }

theorem witness_PowerOnMeetsTheInvariants :
    cfgLeast.wf ∧ AtPowerOn (junk cfgLeast) ∧ cfgMost.wf ∧ AtPowerOn (junk cfgMost) ∧ cfgAligned.wf ∧
      AtPowerOn (junk cfgAligned) := by decide +kernel

/-- A block with frames in both rings, a transfer outstanding and the receive path full, and one stimulus before it. -/
def about (x : Stimulus) : State := { busy (full (received (queued s0))) with inputs := [x] }

/-- An IN-complete presented at the event port. -/
def inCompletes : Stimulus := .present .event 0x30000000#32 Operands.zero

/-- An OUT-complete of 12 bytes presented at the event port. -/
def delivers : Stimulus := .present .event 0x3100000C#32 { Operands.zero with evData := count 0x31 12 }

theorem witness_MachineOk : MachineOk (about inCompletes) ∧ MachineOk (about delivers) := by
  refine ⟨?_, ?_⟩ <;> constructor <;> decide +kernel

/-- An IN-complete there is a safe step. -/
theorem witness_EverySafeStepKeepsTheMachineInvariant : ∃ t, SafeStep (about inCompletes) t := by
  have h : ∃ t, step (about inCompletes) = .next t ∧ decide (t.hwLog.length = 1) = true :=
    after_iff.mp (by decide +kernel)
  obtain ⟨t, h, _⟩ := h
  exact ⟨t, by decide +kernel, by decide +kernel, h⟩

/-- With `witness_MachineOk`: an event, and a command's phase that loads from memory. -/
theorem witness_NoStepOfTheComposedBlockFaults :
    noTestBench (about inCompletes) = true ∧ noTestBench (inPhase (about .appTurn) .read 1) = true := by decide +kernel

/-- That step sends G and leaves H (with `witness_MachineOk`). -/
theorem witness_TransmitPathKeepsEveryFrameInOrder :
    (about inCompletes).inited = true ∧
      ∃ t, SafeStep (about inCompletes) t ∧ transmitPath t = [fill 0x47, fill 0x48] := by
  have h : ∃ t, step (about inCompletes) = .next t ∧ decide (transmitPath t = [fill 0x47, fill 0x48]) = true :=
    after_iff.mp (by decide +kernel)
  obtain ⟨t, h, hp⟩ := h
  exact ⟨rfl, t, ⟨by decide +kernel, by decide +kernel, h⟩, of_decide_eq_true hp⟩

/-- A delivery there adds its one whole frame (with `witness_MachineOk`). -/
theorem witness_ReceivePathKeepsEveryFrameInOrder :
    (about delivers).inited = true ∧
      ∃ t, SafeStep (about delivers) t ∧ contents t .inbound = [count 1 8, count 9 8, count 0x31 8] := by
  have h : ∃ t, step (about delivers) = .next t ∧
      decide (contents t .inbound = [count 1 8, count 9 8, count 0x31 8]) = true := after_iff.mp (by decide +kernel)
  obtain ⟨t, h, hp⟩ := h
  exact ⟨rfl, t, ⟨by decide +kernel, by decide +kernel, h⟩, of_decide_eq_true hp⟩

/-- Phase 1 of `APP.READ`. -/
def reading : State := inPhase (about .appTurn) .read 1

theorem witness_OnlyTheApplicationLowersTheInboundCount :
    MachineOk reading ∧ reading.inited = true ∧ ∃ t, SafeStep reading t ∧ t.rbIn.count < reading.rbIn.count := by
  have h : ∃ t, step reading = .next t ∧ decide (t.rbIn.count < reading.rbIn.count) = true :=
    after_iff.mp (by decide +kernel)
  obtain ⟨t, h, hp⟩ := h
  exact ⟨by constructor <;> decide +kernel, rfl, t, ⟨by decide +kernel, by decide +kernel, h⟩, of_decide_eq_true hp⟩

/-- An IN-complete, and the same with a byte outside every frame held (with `witness_MachineOk`). -/
theorem witness_UnwrittenMemoryIsNeverSeen :
    (put (about inCompletes) 0x1050 [0x77#8]).wm.wf ∧
      Alike (about inCompletes) (put (about inCompletes) 0x1050 [0x77#8]) ∧
      (put (about inCompletes) 0x1050 [0x77#8]).wm ≠ (about inCompletes).wm ∧
      ∃ t, SafeStep (about inCompletes) t := by
  refine ⟨by decide +kernel, ⟨rfl, ?_, by decide +kernel⟩, by decide +kernel,
    witness_EverySafeStepKeepsTheMachineInvariant⟩
  intro r
  cases r <;> decide +kernel

theorem witness_EveryStepKeepsMemoryCanonical :
    (about inCompletes).wm.wf ∧
      ∃ t, step (about inCompletes) = .next t ∧ decide (t.wm ≠ []) = true :=
  ⟨by decide +kernel, after_iff.mp (by decide +kernel)⟩

/-- A test bench's insert. -/
theorem witness_EveryStepKeepsTheRingPointers :
    (about .appTurn).cfg.wf ∧ RingsOk (about .appTurn) ∧ AppOk (about .appTurn) ∧
      ∃ t, step (about (.present (.ring .inbound) 0x11000000#32 { Operands.zero with wdata := fill 1 })) = .next t ∧
        decide (t.rbIn.count = 3) = true :=
  ⟨by decide +kernel, by decide +kernel, by decide +kernel, after_iff.mp (by decide +kernel)⟩

/-- A delivery, and an address that is in no region. -/
theorem witness_EveryStepWritesOnlyTheFourRegions :
    (about delivers).cfg.wf ∧ RingsOk (about delivers) ∧ AppOk (about delivers) ∧
      (∃ t, step (about delivers) = .next t ∧ decide (t.rxPending = 4) = true) ∧
      inRegions (about delivers) 0x0FFF = false ∧ inRegions (about delivers) 0x1058 = false :=
  ⟨by decide +kernel, by decide +kernel, by decide +kernel, after_iff.mp (by decide +kernel), by decide +kernel,
    by decide +kernel⟩

theorem witness_EveryStepKeepsReceiveFlagsExclusive :
    RxFlagsOk (armed s0) ∧
      ∃ t, step { armed s0 with
        inputs := [.present .event 0x31000005#32 { Operands.zero with evData := count 0 5 }] } = .next t ∧
        decide (t.flags = 0b0101#4) = true :=
  ⟨by decide +kernel, after_iff.mp (by decide +kernel)⟩

theorem witness_EveryStepKeepsOneTransferInFlight :
    TxOk (about inCompletes) ∧
      env1 (about inCompletes) = true ∧
      ∃ t, step (about inCompletes) = .next t ∧ decide (t.hwTxInflight = 1) = true :=
  ⟨by decide +kernel, by decide +kernel, after_iff.mp (by decide +kernel)⟩

/-- The first step from power-on. -/
theorem witness_AtMostOneTransferInEveryReachableState :
    Config.cfgT.wf ∧ AtPowerOn (powerOn Config.cfgT
      [.present .config 0x40000000#32 { Operands.zero with opndA := 0x1000, opndB := 0x100 }]) ∧ ∃ t, SafeRun (powerOn Config.cfgT
      [.present .config 0x40000000#32 { Operands.zero with opndA := 0x1000, opndB := 0x100 }]) t ∧ t.inited = true := by
  have h : ∃ t, step (powerOn Config.cfgT
      [.present .config 0x40000000#32 { Operands.zero with opndA := 0x1000, opndB := 0x100 }]) = .next t ∧
      t.inited = true := after_iff.mp (by decide +kernel)
  obtain ⟨t, h, hi⟩ := h
  exact ⟨by decide +kernel, by decide +kernel, t, .snoc .start ⟨by decide +kernel, by decide +kernel, h⟩, hi⟩

/-- `n` safe steps, if there are as many. -/
def safeSteps : Nat → State → Option State
  | 0, s => some s
  | n + 1, s => if env1 s && noTestBench s then (nextOf (step s)).bind (safeSteps n) else none

theorem safeSteps_run {s0 : State} (n : Nat) {s t : State} (hs : SafeRun s0 s) (h : safeSteps n s = some t) :
    SafeRun s0 t := by
  induction n generalizing s with
  | zero => simp only [safeSteps, Option.some.injEq] at h; exact h ▸ hs
  | succ n ih =>
    simp only [safeSteps] at h
    split at h
    · rename_i hc
      simp only [Bool.and_eq_true] at hc
      cases ho : step s with
      | next u => rw [ho] at h; exact ih (.snoc hs ⟨hc.1, hc.2, ho⟩) h
      | fault f => rw [ho] at h; cases h
      | refused r => rw [ho] at h; cases h
    · cases h

/-- Initialisation, the issue of a write and its phases 1 and 2: phase 3 is next. -/
theorem witness_WritePhaseThreeNeverFindsTheRingEmpty :
    Config.cfgT.wf ∧ AtPowerOn (powerOn Config.cfgT
        [.present .config 0x40000000#32 { Operands.zero with opndA := 0x1000, opndB := 0x100 },
          .present .app 0x22000000#32 { Operands.zero with wdata := fill 0x11 }, .appTurn, .appTurn]) ∧
    ∃ t, SafeRun (powerOn Config.cfgT
        [.present .config 0x40000000#32 { Operands.zero with opndA := 0x1000, opndB := 0x100 },
          .present .app 0x22000000#32 { Operands.zero with wdata := fill 0x11 }, .appTurn, .appTurn]) t ∧
      t.app.cmd = .write ∧ t.app.phase = 3 := by
  have h : (safeSteps 4 (powerOn Config.cfgT
        [.present .config 0x40000000#32 { Operands.zero with opndA := 0x1000, opndB := 0x100 },
          .present .app 0x22000000#32 { Operands.zero with wdata := fill 0x11 }, .appTurn, .appTurn])).any
      (fun t => decide (t.app.cmd = .write) && decide (t.app.phase = 3)) = true := by decide +kernel
  generalize ho : safeSteps 4 _ = o at h
  cases o with
  | none => cases h
  | some t =>
    simp only [Option.any_some, Bool.and_eq_true, decide_eq_true_eq] at h
    exact ⟨by decide +kernel, by decide +kernel, t, safeSteps_run 4 .start ho, h.1, h.2⟩

theorem witness_InitialisationIsForever :
    s0.inited = true ∧ ∃ t, step s0 = .next t ∧ decide (t.flag .txConnected = true) = true :=
  ⟨rfl, after_iff.mp (by decide +kernel)⟩

theorem witness_EveryStepLogsAtMostOneRequest :
    ∃ t, step { s0 with inputs := [.present .event 0x32000000#32 Operands.zero] } = .next t ∧
      decide (t.hwLog = [.rdreq 1 24]) = true := after_iff.mp (by decide +kernel)

theorem witness_OnlyReadClearsTheFullFlag :
    (inPhase (full s0) .read 2).inited = true ∧ (inPhase (full s0) .read 2).flag .rxBufferFull = true ∧
      ∃ t, step (inPhase (full s0) .read 2) = .next t ∧ decide (t.flag .rxBufferFull = false) = true :=
  ⟨rfl, by decide +kernel, after_iff.mp (by decide +kernel)⟩

theorem witness_InCompleteAndTheBusyTestCommute :
    ∃ s : State, s.inited = true ∧ s.app.cmd = .write ∧ s.app.phase = 2 ∧ s.flag .txBusy = true ∧ s.rbOut.count ≠ 0 ∧
      slotAddr s .outbound s.rbOut.tail + s.cfg.frameSize ≤ 2 ^ s.cfg.addrW ∧
      s.txStageBase + s.cfg.frameSize ≤ 2 ^ s.cfg.addrW :=
  ⟨inPhase (busy (queued s0)) .write 2, by decide +kernel⟩

/-- Program P6, steps 5 and 6. -/
theorem witness_FullFlagSetInsideAReadIsLost :
    s0.cfg.wf ∧ (inPhase (armed s0) .read 2).app.cmd = .read ∧ (inPhase (armed s0) .read 2).app.phase = 2 ∧
      rxState (inPhase (armed s0) .read 2) = some .armed ∧ 0 < 10 % s0.cfg.frameSize ∧
      ∃ t, exec (.evtOutComplete 10) (delivering (inPhase (armed s0) .read 2) (count 0x41 10)) = .next t ∧
        after (appPhase t) (fun u => decide (u.rxPending = 2)) = true :=
  ⟨by decide +kernel, by decide +kernel, by decide +kernel, by decide +kernel, by decide +kernel,
    after_iff.mp (by decide +kernel)⟩

end Sys2Proof.Tests
end

/-!
PROOFS. What a step is, for the invariants of 10_state.md: one relation that says which case of the step ran, with the
action that `nextAction` announces; what each case leaves unchanged; what it does to a ring's registers.
-/

namespace Sys2Proof.Machine

/-! ### The cases of a step -/

/-- The command an A-format word issues (R160); no other format issues one. -/
def issuedCmd : Instr → AppCmd
  | .appReadCount => .readCount
  | .appRead => .read
  | .appWrite => .write
  | .appFlush => .flush
  | _ => .idle

/-- How a step that announces the action `a` changes a state whose stimulus has been taken and whose operands have been
latched (R203), one constructor per case. -/
inductive StepEffect (a : Action) (s : State) : State → Prop where
  | wait (ha : a = .wait) : StepEffect a s s
  | phase {t : State} (ha : a = .phase s.app.cmd s.app.phase) (hi : s.inited = true)
      (hc : s.app.cmd ≠ .idle) (hp : PhaseStep s t) : StepEffect a s t
  | ring {t : State} {i : Instr} (ha : a = .command i) (hf : i.format = .R) (h : exec i s = .next t) : StepEffect a s t
  | start {t : State} {i : Instr} {f : Bytes} (ha : a = .command i) (hf : i.format = .A) (hi : s.inited = true)
      (hc : s.app.cmd = .idle)
      (hfr : (i ≠ .appWrite ∧ f = s.app.frame) ∨
        (i = .appWrite ∧ f = s.opnd.wdata ∧ s.opnd.wdata.length = s.cfg.frameSize))
      (h : startCommand (issuedCmd i) { s with app := { s.app with frame := f } } = .next t) :
      StepEffect a s t
  | inComplete {t : State} (ha : a = .command .evtInComplete) (hi : s.inited = true)
      (h : inCompleteHandler s = .next t) : StepEffect a s t
  | outComplete {u : State} (ha : a = .command (.evtOutComplete s.opnd.evData.length)) (hi : s.inited = true)
      (hle : s.opnd.evData.length ≤ s.cfg.rxStagingSize) (h : deliver s.opnd.evData s = .next u) :
      StepEffect a s (closeDelivery u)
  | nakIgnored (ha : a = .command .evtOutNak) (hi : s.inited = true) (hm : mayArm s.flags = false) : StepEffect a s s
  | nakArmed {u : State} (ha : a = .command .evtOutNak) (hi : s.inited = true) (hm : mayArm s.flags = true)
      (havail : s.opnd.availData.length = s.opnd.avail) (hle : s.opnd.avail ≤ s.cfg.rxStagingSize)
      (h : deliver s.opnd.availData (emitRdreq s) = .next u) :
      StepEffect a s (u.setFlag .rxBufferQueued)
  | init {t : State} (ha : a = .command .xptInit) (h : exec .xptInit s = .next t) : StepEffect a s t

/-- Every step that answers a next state is one of these cases. -/
theorem step_effect {s t : State} (h : step s = .next t) :
    ∃ rest ops, StepEffect (nextAction s) { s with inputs := rest, opnd := ops } t := by
  obtain ⟨rest, ⟨ha, rfl⟩ | ⟨ha, hi, hc, h⟩ | ⟨i, ha, h⟩⟩ := step_cases h
  · exact ⟨rest, s.opnd, .wait ha⟩
  · exact ⟨rest, s.opnd, .phase ha hi hc (appPhase_step h)⟩
  · refine ⟨rest, nextOperands s, ?_⟩
    generalize ({ s with inputs := rest, opnd := nextOperands s } : State) = s' at h
    cases i
    case appReadCount =>
      obtain ⟨hi, hc, h⟩ := execAppReadCount_next.mp h
      exact .start ha rfl hi hc (.inl ⟨by decide, rfl⟩) h
    case appRead =>
      obtain ⟨hi, hc, h⟩ := execAppRead_next.mp h
      exact .start ha rfl hi hc (.inl ⟨by decide, rfl⟩) h
    case appWrite =>
      obtain ⟨hi, hc, hl, h⟩ := execAppWrite_next.mp h
      exact .start ha rfl hi hc (.inr ⟨rfl, rfl, hl⟩) h
    case appFlush =>
      obtain ⟨hi, hc, h⟩ := execAppFlush_next.mp h
      exact .start ha rfl hi hc (.inl ⟨by decide, rfl⟩) h
    case evtInComplete =>
      obtain ⟨hi, h⟩ := execEvtInComplete_next.mp h
      exact .inComplete ha hi h
    case evtOutComplete len =>
      obtain ⟨hi, h⟩ := execEvtOutComplete_next.mp h
      obtain ⟨hle, rfl, u, hu, rfl⟩ := outCompleteHandler_next.mp h
      exact .outComplete ha hi hle hu
    case evtOutNak =>
      obtain ⟨hi, h⟩ := execEvtOutNak_next.mp h
      rcases outNakHandler_next.mp h with ⟨hm, rfl⟩ | ⟨hm, hle, havail, u, hu, rfl⟩
      · exact .nakIgnored ha hi hm
      · exact .nakArmed ha hi hm havail hle hu
    case xptInit => exact .init ha h
    all_goals exact .ring ha rfl h

/-! ### What each case leaves unchanged -/

/-- A phase step changes the rings' registers, `FLAGS`, the sequencer, memory, the log with its count of transfers and the
application port's return, and nothing else (R161 to R164). -/
theorem PhaseStep.frame {s t : State} (h : PhaseStep s t) :
    t = { s with rbIn := t.rbIn, rbOut := t.rbOut, flags := t.flags, app := t.app, wm := t.wm, hwLog := t.hwLog,
                 hwTxInflight := t.hwTxInflight, appOut := t.appOut } := by
  cases h <;> rfl

theorem PhaseStep.cfg_eq {s t : State} (h : PhaseStep s t) : t.cfg = s.cfg := by rw [h.frame]

theorem PhaseStep.inited_eq {s t : State} (h : PhaseStep s t) : t.inited = s.inited := by rw [h.frame]

/-- An IN-complete changes the outbound ring's registers, `FLAGS`, memory, the log and the count of transfers, and nothing
else (R141). -/
theorem inCompleteHandler_frame {s t : State} (h : inCompleteHandler s = .next t) :
    t = { s with rbOut := t.rbOut, flags := t.flags, wm := t.wm, hwLog := t.hwLog, hwTxInflight := t.hwTxInflight } := by
  rcases inCompleteHandler_next h with ⟨_, rfl⟩ | ⟨_, _, _, wm, _, rfl⟩ <;> rfl

/-- A pop changes the ring's registers only (R123). -/
theorem popFrame_state {r : Ring} {s : State} {p : Option Bytes × State} (h : popFrame r s = .next p) :
    p.2 = s ∨ ((s.rb r).count ≠ 0 ∧ p.2 = s.setRb r (regsAfterPop (capacity s.cfg r) (s.rb r))) := by
  rcases popFrame_next h with ⟨_, rfl⟩ | ⟨hz, _, rfl⟩
  · exact .inl rfl
  · exact .inr ⟨hz, rfl⟩

/-- A ring port refuses before initialisation (R184). -/
theorem exec_ring_inited {s t : State} {i : Instr} (hf : i.format = .R) (h : exec i s = .next t) : s.inited = true := by
  obtain ⟨_, _, hi, _⟩ := exec_ring_cases hf h
  exact hi

/-- A command at a ring port changes the rings' registers, memory and that port's return, and nothing else (R121 to
R125). -/
theorem exec_ring_frame {s t : State} {i : Instr} (hf : i.format = .R) (h : exec i s = .next t) :
    t = { s with rbIn := t.rbIn, rbOut := t.rbOut, wm := t.wm, ringOut := t.ringOut } := by
  obtain ⟨r, out, _, rfl | ⟨_, u, hu, rfl⟩ | ⟨p, hp, rfl⟩ | rfl | rfl⟩ := exec_ring_cases hf h
  · cases r <;> rfl
  · obtain ⟨_, rfl⟩ := insertFrame_next.mp hu
    cases r <;> rfl
  · rcases popFrame_state hp with hp | ⟨_, hp⟩ <;> rw [hp]
    · rfl
    · cases r <;> rfl
  · rfl
  · cases r <;> rfl

/-- A delivery changes the inbound ring's registers, memory and the pending count, and nothing else (R142, R143). -/
theorem deliver_frame {data : Bytes} {s u : State} (h : deliver data s = .next u) :
    u = { s with rbIn := u.rbIn, wm := u.wm, rxPending := u.rxPending } := by
  obtain ⟨_, _, hu⟩ := deliver_next h
  exact hu

@[simp] theorem closeDelivery_wm (u : State) : (closeDelivery u).wm = u.wm := by rw [closeDelivery_frame]

@[simp] theorem closeDelivery_rb (u : State) (r : Ring) : (closeDelivery u).rb r = u.rb r := by
  rw [closeDelivery_frame]
  cases r <;> rfl

/-- The end of OUT-complete after its delivery: beside what the delivery changes, the flags only (R142). -/
theorem closeDelivery_deliver_frame {data : Bytes} {s u : State} (h : deliver data s = .next u) :
    closeDelivery u =
      { s with rbIn := u.rbIn, wm := u.wm, rxPending := u.rxPending, flags := (closeDelivery u).flags } := by
  have hc := closeDelivery_frame u
  generalize closeDelivery u = v at hc ⊢
  exact hc.trans (by conv_lhs => rw [deliver_frame h])

/-- `FLAGS` after initialisation holds `tx_connected` alone (R180). -/
theorem initialise_flag (l : Layout) (s : State) (f : Flag) : (initialise l s).flag f = decide (f = .txConnected) := by
  have hflags : (initialise l s).flags = flagsAfterInit := rfl
  rw [State.flag, hflags]
  cases f <;> decide

/-- What `XPT.INIT` does to the state, but for its returns (R180). -/
theorem execXptInit_frame {s t : State} (h : exec .xptInit s = .next t) :
    s.inited = false ∧ ∃ base, (carve s.cfg base).a4 ≤ 2 ^ s.cfg.addrW ∧
      t = { initialise (carve s.cfg base) s with cfgOut := t.cfgOut, freeCount := t.freeCount } := by
  obtain ⟨hi, _, _, _, htop, rfl⟩ := execXptInit_next.mp h
  exact ⟨hi, _, htop, returnRegion_frame _ _ _⟩

/-! ### What each case does to a ring's registers -/

/-- The moves of the registers of a ring of capacity `cap` after initialisation (R122, R123, R125). -/
inductive RingMove (cap : Nat) (q : RingRegs) : RingRegs → Prop where
  | stay : RingMove cap q q
  | insert : RingMove cap q (regsAfterInsert cap q)
  | pop (hz : q.count ≠ 0) : RingMove cap q (regsAfterPop cap q)
  | flush : RingMove cap q { q with head := 0, tail := 0, count := 0 }

/-- Every move keeps the pointers in order (R27). -/
theorem RingMove.ok {cap : Nat} {q q' : RingRegs} (hcap : 1 ≤ cap) (h : RingMove cap q q') (hq : q.ok cap) :
    q'.ok cap := by
  cases h with
  | stay => exact hq
  | insert => exact RingRegs.ok_insert hq
  | pop hz => exact RingRegs.ok_pop hq hz
  | flush =>
    obtain ⟨_, _, _, _, hovf⟩ := hq
    exact RingRegs.ok_zero hcap hovf

/-- No move changes `base` (R21). -/
theorem RingMove.base {cap : Nat} {q q' : RingRegs} (h : RingMove cap q q') : q'.base = q.base := by
  cases h with
  | stay => rfl
  | insert => exact regsAfterInsert_base cap q
  | pop => rfl
  | flush => rfl

/-- What a phase does to each ring (R161 to R164). -/
theorem PhaseStep.ringMove {s t : State} (h : PhaseStep s t) (r : Ring) :
    RingMove (capacity s.cfg r) (s.rb r) (t.rb r) := by
  cases h with
  | readPop _ _ hz =>
    cases r
    · exact .pop hz
    · exact .stay
  | writeInsert =>
    cases r
    · exact .stay
    · exact .insert
  | writePop _ _ hz | writePopNothing _ _ hz =>
    cases r
    · exact .stay
    · exact .pop hz
  | flushIn =>
    cases r
    · exact .flush
    · exact .stay
  | flushOut =>
    cases r
    · exact .stay
    · exact .flush
  | _ => cases r <;> exact .stay

/-- An IN-complete pops the outbound ring or leaves it (R141). -/
theorem inCompleteHandler_ringMove {s t : State} (h : inCompleteHandler s = .next t) (r : Ring) :
    RingMove (capacity s.cfg r) (s.rb r) (t.rb r) := by
  rcases inCompleteHandler_next h with ⟨_, rfl⟩ | ⟨hz, _, _, _, _, rfl⟩ <;> cases r
  · exact .stay
  · exact .stay
  · exact .stay
  · exact .pop hz

end Sys2Proof.Machine

/-!
PROOFS. The ring pointers (10_state.md R27): every move of a ring's registers keeps them in order.
-/

namespace Sys2Proof.Machine

/-- The pointers of both rings are in order, in the form that a proof ring by ring uses. -/
def PointersOk (s : State) : Prop := ∀ r, (s.rb r).ok (capacity s.cfg r)

theorem ringsOk_iff {s : State} : RingsOk s ↔ (s.inited = true → PointersOk s) := by
  constructor
  · intro h hi r
    obtain ⟨hin, hout⟩ := h hi
    cases r
    · exact hin
    · exact hout
  · exact fun h hi => ⟨h hi .inbound, h hi .outbound⟩

/-- Ring registers that all moved, under the same configuration, stay in order. -/
theorem PointersOk.of_moves {s t : State} (hs : PointersOk s) (hc : s.cfg.wf) (hcfg : t.cfg = s.cfg)
    (hm : ∀ r, RingMove (capacity s.cfg r) (s.rb r) (t.rb r)) : PointersOk t := fun r => by
  rw [hcfg]
  exact (hm r).ok (capacity_pos hc r) (hs r)

/-- New registers for one ring that are in order leave both rings in order. -/
theorem PointersOk.setRb {s : State} (hs : PointersOk s) {r : Ring} {q : RingRegs} (hq : q.ok (capacity s.cfg r)) :
    PointersOk (s.setRb r q) := fun r' => by
  rw [setRb_cfg]
  by_cases h : r' = r
  · rw [h, setRb_rb_same]; exact hq
  · rw [setRb_rb_other s r r' q h]; exact hs r'

/-- A command at a ring port keeps the pointers in order (R121 to R125). -/
theorem exec_ring_pointersOk {s t : State} {i : Instr} (hc : s.cfg.wf) (hs : PointersOk s) (hf : i.format = .R)
    (h : exec i s = .next t) : PointersOk t := by
  obtain ⟨r, out, _, rfl | ⟨_, u, hu, rfl⟩ | ⟨p, hp, rfl⟩ | rfl | rfl⟩ := exec_ring_cases hf h
  · exact hs.setRb (RingRegs.ok_zero (capacity_pos hc r) (Nat.zero_le _))
  · obtain ⟨_, rfl⟩ := insertFrame_next.mp hu
    have hwm : PointersOk { s with wm := s.wm.writeBytes (slotAddr s r (s.rb r).head) s.opnd.wdata } := hs
    exact hwm.setRb (RingMove.insert.ok (capacity_pos hc r) (hs r))
  · rcases popFrame_state hp with hp | ⟨hz, hp⟩ <;> rw [hp]
    · exact hs
    · exact hs.setRb ((RingMove.pop hz).ok (capacity_pos hc r) (hs r))
  · exact hs
  · exact hs.setRb (RingMove.flush.ok (capacity_pos hc r) (hs r))

/-- A delivery keeps the pointers in order (R142, R143). -/
theorem deliver_pointersOk {data : Bytes} {s u : State} (hs : PointersOk s) (h : deliver data s = .next u) :
    PointersOk u := fun r => by
  cases r
  · exact deliver_ring_ok h (hs .inbound)
  · rw [deliver_frame h]
    exact hs .outbound

/-- Initialisation puts the pointers in order (R180). -/
theorem execXptInit_pointersOk {s t : State} (hc : s.cfg.wf) (h : exec .xptInit s = .next t) : PointersOk t := by
  obtain ⟨_, base, _, ht⟩ := execXptInit_frame h
  rw [ht]
  intro r
  cases r <;> exact RingRegs.ok_zero (capacity_pos hc _) (Nat.zero_le _)

/-- What every step keeps: the legal configuration, and the pointers in order once `inited = 1`. -/
def RingsInv (s : State) : Prop := s.cfg.wf ∧ (s.inited = true → PointersOk s)

theorem step_keeps_ringsInv {s t : State} (hs : RingsInv s) (h : step s = .next t) : RingsInv t := by
  refine step_keeps RingsInv (fun _ _ _ hs => hs) ?phase (fun _ _ _ hs _ _ _ => hs) ?ring ?inComplete ?outComplete
    ?nak ?init hs h
  case phase =>
    rintro s t ⟨hc, hs⟩ hp
    exact ⟨hp.cfg_eq ▸ hc, fun hi => (hs (hp.inited_eq ▸ hi)).of_moves hc hp.cfg_eq hp.ringMove⟩
  case ring =>
    rintro s t i ⟨hc, hs⟩ hf h
    have hcfg : t.cfg = s.cfg := by rw [exec_ring_frame hf h]
    exact ⟨hcfg ▸ hc, fun _ => exec_ring_pointersOk hc (hs (exec_ring_inited hf h)) hf h⟩
  case inComplete =>
    rintro s t ⟨hc, hs⟩ hi h
    have hcfg : t.cfg = s.cfg := by rw [inCompleteHandler_frame h]
    exact ⟨hcfg ▸ hc, fun _ => (hs hi).of_moves hc hcfg (inCompleteHandler_ringMove h)⟩
  case outComplete =>
    rintro s u ⟨hc, hs⟩ hi _ h
    have hcfg : u.cfg = s.cfg := by rw [deliver_frame h]
    have hok := deliver_pointersOk (hs hi) h
    rw [closeDelivery_frame]
    exact ⟨hcfg ▸ hc, fun _ => hok⟩
  case nak =>
    rintro s u ⟨hc, hs⟩ hi _ _ h
    have hcfg : u.cfg = s.cfg := by rw [deliver_frame h]; rfl
    have hok := deliver_pointersOk (s := emitRdreq s) (hs hi) h
    exact ⟨hcfg ▸ hc, fun _ => hok⟩
  case init =>
    rintro s t ⟨hc, _⟩ h
    have hcfg : t.cfg = s.cfg := by
      obtain ⟨_, base, _, ht⟩ := execXptInit_frame h
      rw [ht]
      rfl
    exact ⟨hcfg ▸ hc, fun _ => execXptInit_pointersOk hc h⟩

/-- Settles O39: every move of a ring's registers keeps its pointers in order, and initialisation puts them there. -/
theorem everyStepKeepsTheRingPointers : Obligations.EveryStepKeepsTheRingPointers := by
  intro s t hc hs h
  obtain ⟨_, ht⟩ := step_keeps_ringsInv ⟨hc, ringsOk_iff.mp hs⟩ h
  exact ringsOk_iff.mpr ht

end Sys2Proof.Machine

/-!
PROOFS. The transfers outstanding and `tx_busy` (10_state.md R42, 60_exceptions.md R209).
-/

namespace Sys2Proof.Machine

/-- `tx_busy` is set exactly while one transfer is outstanding. -/
def TxPaired (s : State) : Prop :=
  (s.hwTxInflight = 0 ∧ s.flag .txBusy = false) ∨ (s.hwTxInflight = 1 ∧ s.flag .txBusy = true)

/-- `APP.WRITE` has seen the flag clear and has not requested its transfer yet (R163). -/
def sending (a : AppSeq) : Prop := a.cmd = .write ∧ (a.phase = 3 ∨ a.phase = 4 ∨ a.phase = 5)

theorem not_sending_of_cmd {a : AppSeq} (h : a.cmd ≠ .write) : ¬ sending a := fun ⟨hc, _⟩ => h hc

theorem not_sending_of_phase {a : AppSeq} (h : a.phase ≤ 2) : ¬ sending a := fun ⟨_, hp⟩ => by omega

/-- Before initialisation nothing is outstanding. -/
theorem txOk_uninitialised {s : State} (hi : s.inited = false) : TxOk s ↔ s.hwTxInflight = 0 := by
  simp only [TxOk, hi, if_true]

/-- Outside phases 3 to 5 of `APP.WRITE` flag and transfers agree. -/
theorem txOk_paired {s : State} (hi : s.inited = true) (hn : ¬ sending s.app) : TxOk s ↔ TxPaired s := by
  have h34 : ¬ (s.app.cmd = .write ∧ (s.app.phase = 3 ∨ s.app.phase = 4)) := fun ⟨hc, hp⟩ =>
    hn ⟨hc, hp.imp id .inl⟩
  have h5 : ¬ (s.app.cmd = .write ∧ s.app.phase = 5) := fun ⟨hc, hp⟩ => hn ⟨hc, .inr (.inr hp)⟩
  simp only [TxOk, hi, Bool.true_eq_false, if_false, h34, h5, TxPaired]

/-- In phases 3 and 4 of `APP.WRITE` the flag is clear and nothing is outstanding. -/
theorem txOk_popping {s : State} (hi : s.inited = true) (hc : s.app.cmd = .write)
    (hp : s.app.phase = 3 ∨ s.app.phase = 4) : TxOk s ↔ s.hwTxInflight = 0 ∧ s.flag .txBusy = false := by
  simp only [TxOk, hi, Bool.true_eq_false, if_false, hc, true_and, hp, if_true]

/-- In phase 5 of `APP.WRITE` the flag is set and nothing is outstanding yet. -/
theorem txOk_requesting {s : State} (hi : s.inited = true) (hc : s.app.cmd = .write) (hp : s.app.phase = 5) :
    TxOk s ↔ s.hwTxInflight = 0 ∧ s.flag .txBusy = true := by
  simp [TxOk, hi, hc, hp]

/-- With a transfer outstanding `APP.WRITE` is not sending, and it is the one transfer. -/
theorem TxOk.outstanding {s : State} (hs : TxOk s) (hi : s.inited = true) (hn : 1 ≤ s.hwTxInflight) :
    ¬ sending s.app ∧ s.hwTxInflight = 1 := by
  have hns : ¬ sending s.app := by
    rintro ⟨hc, hp | hp | hp⟩
    · have := (txOk_popping hi hc (.inl hp)).mp hs; omega
    · have := (txOk_popping hi hc (.inr hp)).mp hs; omega
    · have := (txOk_requesting hi hc hp).mp hs; omega
  have := (txOk_paired hi hns).mp hs
  simp only [TxPaired] at this
  exact ⟨hns, by omega⟩

/-- The relation depends on the flag, the transfers outstanding and the sequencer's position only. -/
theorem TxOk.congr {s t : State} (hs : TxOk s) (hi : t.inited = s.inited) (happ : t.app = s.app)
    (hn : t.hwTxInflight = s.hwTxInflight) (hf : t.flag .txBusy = s.flag .txBusy) : TxOk t := by
  simp only [TxOk, hi, happ, hn, hf] at hs ⊢
  exact hs

/-- A step outside the sending phases that changes neither the flag nor the transfers keeps the relation. -/
theorem TxOk.of_not_sending {s t : State} (hs : TxOk s) (hi : s.inited = true) (hit : t.inited = true)
    (hns : ¬ sending s.app) (hnt : ¬ sending t.app)
    (hn : t.hwTxInflight = s.hwTxInflight) (hf : t.flag .txBusy = s.flag .txBusy) : TxOk t := by
  rw [txOk_paired hi hns] at hs
  rw [txOk_paired hit hnt, TxPaired, hn, hf]
  exact hs

/-- Every phase keeps the relation (R161 to R164, R239). -/
theorem PhaseStep.txOk {s t : State} (h : PhaseStep s t) (hi : s.inited = true) (hs : TxOk s) : TxOk t := by
  have hit : t.inited = true := h.inited_eq.trans hi
  cases h with
  | idle => exact hs
  | readCount hc | readEmpty hc | readPop hc | flushIn hc | flushOut hc =>
    exact hs.of_not_sending hi hit (not_sending_of_cmd (by simp [hc])) (not_sending_of_cmd (by simp [hc, flushRing]))
      rfl rfl
  | readClear hc =>
    exact hs.of_not_sending hi hit (not_sending_of_cmd (by simp [hc])) (not_sending_of_cmd (by simp)) rfl (by simp)
  | writeInsert hc hp =>
    exact hs.of_not_sending hi hit (not_sending_of_phase (by omega)) (not_sending_of_phase (Nat.le_refl 2)) rfl rfl
  | writeGo hc hp hm =>
    obtain ⟨hclear, _⟩ := (mayStartTransfer_iff s).mp hm
    have hpair := (txOk_paired hi (not_sending_of_phase (by omega))).mp hs
    simp only [TxPaired, hclear, Bool.false_eq_true, and_true, and_false, or_false] at hpair
    exact (txOk_popping hit hc (.inl rfl)).mpr ⟨hpair, hclear⟩
  | writeStay hc hp =>
    exact hs.of_not_sending hi hit (not_sending_of_phase (by omega)) (not_sending_of_cmd (by simp)) rfl rfl
  | writeEmpty hc hp | writePopNothing hc hp =>
    exact (txOk_paired hit (not_sending_of_cmd (by simp))).mpr (.inl ((txOk_popping hi hc (.inl hp)).mp hs))
  | writePop hc hp =>
    exact (txOk_popping hit hc (.inr rfl)).mpr ((txOk_popping hi hc (.inl hp)).mp hs)
  | writeBusy hc hp =>
    obtain ⟨hnone, _⟩ := (txOk_popping hi hc (.inr hp)).mp hs
    exact (txOk_requesting hit hc rfl).mpr ⟨hnone, by simp⟩
  | writeIssue hc hp =>
    obtain ⟨hnone, hset⟩ := (txOk_requesting hi hc hp).mp hs
    exact (txOk_paired hit (not_sending_of_cmd (by simp))).mpr (.inr ⟨by simp [hnone], hset⟩)

/-- An IN-complete of an outstanding transfer goes idle or sends the next frame (R141). -/
theorem inCompleteHandler_txOk {s t : State} (hi : s.inited = true) (hs : TxOk s) (hn : 1 ≤ s.hwTxInflight)
    (h : inCompleteHandler s = .next t) : TxOk t := by
  obtain ⟨hns, hone⟩ := hs.outstanding hi hn
  have happ : t.app = s.app := by rw [inCompleteHandler_frame h]
  have hit : t.inited = true := by rw [inCompleteHandler_frame h]; exact hi
  refine (txOk_paired hit (happ ▸ hns)).mpr ?_
  rcases inCompleteHandler_next h with ⟨_, rfl⟩ | ⟨_, _, _, _, _, rfl⟩
  · exact .inl ⟨by simp [inCompleteStart, hone], by simp [inCompleteStart]⟩
  · exact .inr ⟨by simp [hone], setFlag_flag (inCompleteStart s) .txBusy .txBusy⟩

/-- An application command issued by an idle sequencer keeps the relation, alone or with all its phases (R203 a, R204). -/
theorem startCommand_txOk {c : AppCmd} {f : Bytes} {s t : State} (hi : s.inited = true) (hc : s.app.cmd = .idle)
    (hs : TxOk s) (h : startCommand c { s with app := { s.app with frame := f } } = .next t) : TxOk t := by
  have hissue : TxOk (State.issue { s with app := { s.app with frame := f } } c) :=
    hs.of_not_sending hi hi (not_sending_of_cmd (by simp [hc])) (not_sending_of_phase (by simp)) rfl rfl
  obtain ⟨_, ht⟩ := startCommand_keeps (fun u => u.inited = true ∧ TxOk u)
    (fun _ _ ⟨hu, hok⟩ hp => ⟨hp.inited_eq.trans hu, hp.txOk hu hok⟩) h ⟨hi, hissue⟩
  exact ht

/-- A delivery leaves the relation as it is. -/
theorem deliver_txOk {data : Bytes} {s u : State} (hs : TxOk s) (h : deliver data s = .next u) : TxOk u := by
  rw [deliver_frame h]
  exact hs

theorem execXptInit_txOk {s t : State} (hs : TxOk s) (h : exec .xptInit s = .next t) : TxOk t := by
  obtain ⟨hi, base, _, ht⟩ := execXptInit_frame h
  rw [txOk_uninitialised hi] at hs
  have hclear := initialise_flag (carve s.cfg base) s .txBusy
  rw [ht]
  exact (txOk_paired rfl (not_sending_of_cmd (by simp [initialise]))).mpr (.inl ⟨hs, hclear⟩)

/-- Every step keeps the relation, if an IN-complete finds a transfer outstanding (ENV1, R206). -/
theorem StepEffect.txOk {a : Action} {s t : State} (he : StepEffect a s t) (hs : TxOk s)
    (henv : a = .command .evtInComplete → 1 ≤ s.hwTxInflight) : TxOk t := by
  cases he with
  | wait | nakIgnored => exact hs
  | phase _ hi _ hp => exact hp.txOk hi hs
  | ring _ hf h => rw [exec_ring_frame hf h]; exact hs
  | start _ _ hi hc _ h => exact startCommand_txOk hi hc hs h
  | inComplete ha hi h => exact inCompleteHandler_txOk hi hs (henv ha) h
  | outComplete _ _ _ h =>
    exact (deliver_txOk hs h).congr (by rw [closeDelivery_frame]) (by rw [closeDelivery_frame])
      (by rw [closeDelivery_frame]) (by simp [closeDelivery_flag])
  | nakArmed _ _ _ _ _ h => exact (deliver_txOk (s := emitRdreq s) hs h).congr rfl rfl rfl (by simp)
  | init _ h => exact execXptInit_txOk hs h

/-- Settles O41: ENV1 says that an IN-complete finds a transfer outstanding. -/
theorem everyStepKeepsOneTransferInFlight : Obligations.EveryStepKeepsOneTransferInFlight := by
  intro s t hs henv h
  obtain ⟨rest, ops, he⟩ := step_effect h
  exact he.txOk hs fun ha => by simpa [env1, ha] using henv

end Sys2Proof.Machine

/-!
PROOFS. The receive flags (10_state.md R41): which steps set and which clear them.
-/

namespace Sys2Proof.Machine

/-- A step that leaves both receive flags, or clears one, keeps them from being both set. -/
theorem RxFlagsOk.of_le {s t : State} (hs : RxFlagsOk s) (hi : s.inited = true)
    (hf : t.flag .rxBufferFull = true → s.flag .rxBufferFull = true)
    (hq : t.flag .rxBufferQueued = true → s.flag .rxBufferQueued = true) : RxFlagsOk t := fun _ ⟨h1, h2⟩ =>
  hs hi ⟨hf h1, hq h2⟩

/-- No phase sets a receive flag (R31, R32). -/
theorem PhaseStep.rxFlag_le {s t : State} (h : PhaseStep s t) {f : Flag} (hf : f = .rxBufferFull ∨ f = .rxBufferQueued)
    (ht : t.flag f = true) : s.flag f = true := by
  cases h with
  | readClear =>
    rw [appReturn_flag, clearFlag_flag, Bool.and_eq_true] at ht
    exact ht.2
  | writeBusy =>
    rw [toPhase_flag, setFlag_flag, Bool.or_eq_true, decide_eq_true_eq] at ht
    rcases ht with rfl | ht
    · simp at hf
    · exact ht
  | _ => exact ht

/-- An IN-complete leaves every flag but `tx_busy` (R141). -/
theorem inCompleteHandler_flag {s t : State} (h : inCompleteHandler s = .next t) (f : Flag) (hf : f ≠ .txBusy) :
    t.flag f = s.flag f := by
  rcases inCompleteHandler_next h with ⟨_, rfl⟩ | ⟨_, _, _, _, _, rfl⟩
  · simp [inCompleteStart, hf]
  · exact (setFlag_flag (inCompleteStart s) .txBusy f).trans (by simp [inCompleteStart, hf])

/-- Settles O40: `rx_buffer_full` is set only as `rx_buffer_queued` is cleared, and that is set only from both clear. -/
theorem everyStepKeepsReceiveFlagsExclusive : Obligations.EveryStepKeepsReceiveFlagsExclusive := by
  intro s t hs h
  refine step_keeps RxFlagsOk (fun _ _ _ hs => hs) ?phase (fun _ _ _ hs _ _ _ => hs) ?ring ?inComplete ?outComplete
    ?nak ?init hs h
  case phase =>
    intro s t hs hp hit
    have hi : s.inited = true := hp.inited_eq.symm.trans hit
    exact hs.of_le hi (hp.rxFlag_le (.inl rfl)) (hp.rxFlag_le (.inr rfl)) hit
  case ring =>
    intro s t i hs hf h
    rw [exec_ring_frame hf h]
    exact hs
  case inComplete =>
    intro s t hs hi h
    exact hs.of_le hi ((inCompleteHandler_flag h .rxBufferFull (by decide)).symm.trans ·)
      ((inCompleteHandler_flag h .rxBufferQueued (by decide)).symm.trans ·)
  case outComplete =>
    intro s u hs hi _ h
    have hu : RxFlagsOk u := by
      rw [deliver_frame h]
      exact hs
    by_cases hq : u.flag .rxBufferQueued = true
    · simp [RxFlagsOk, closeDelivery_flag, hq]
    · simpa [closeDelivery, hq] using hu
  case nak =>
    intro s u hs hi hm _ h
    obtain ⟨hfull, _⟩ := (mayArm_iff s).mp hm
    have hu : u.flag .rxBufferFull = false := by rw [deliver_frame h]; exact hfull
    simp [RxFlagsOk, hu]
  case init =>
    intro s t _ h
    obtain ⟨_, base, _, ht⟩ := execXptInit_frame h
    have hfull : t.flag .rxBufferFull = false := by rw [ht]; exact initialise_flag (carve s.cfg base) s .rxBufferFull
    simp [RxFlagsOk, hfull]

end Sys2Proof.Machine

/-!
PROOFS. What no step undoes: the setup of initialisation, the request log, a set `rx_buffer_full` (10_state.md R26, R30,
R32, R35, R38).
-/

namespace Sys2Proof.Machine

/-! ### What initialisation fixes (R26, R30, R35) -/

/-- The registers that initialisation writes last hold in `t` what they hold in `s`. -/
def KeepsSetup (s t : State) : Prop :=
  t.cfg = s.cfg ∧
    (s.inited = true → t.inited = true ∧ t.flag .txConnected = s.flag .txConnected ∧
      t.rxStageBase = s.rxStageBase ∧ t.txStageBase = s.txStageBase)

theorem KeepsSetup.trans {s t u : State} (hst : KeepsSetup s t) (htu : KeepsSetup t u) : KeepsSetup s u := by
  obtain ⟨hc, hs⟩ := hst
  obtain ⟨hc', ht⟩ := htu
  refine ⟨hc'.trans hc, fun hi => ?_⟩
  obtain ⟨hit, hf, hrx, htx⟩ := hs hi
  obtain ⟨hiu, hf', hrx', htx'⟩ := ht hit
  exact ⟨hiu, hf'.trans hf, hrx'.trans hrx, htx'.trans htx⟩

/-- No phase changes `tx_connected` (R30). -/
theorem PhaseStep.txConnected {s t : State} (h : PhaseStep s t) : t.flag .txConnected = s.flag .txConnected := by
  cases h with
  | readClear => rw [appReturn_flag, clearFlag_flag]; rfl
  | writeBusy => rw [toPhase_flag, setFlag_flag]; rfl
  | _ => rfl

theorem PhaseStep.keepsSetup {s t : State} (h : PhaseStep s t) : KeepsSetup s t := by
  rw [KeepsSetup, h.txConnected, h.frame]
  exact ⟨rfl, fun hi => ⟨hi, rfl, rfl, rfl⟩⟩

theorem deliver_keepsSetup {data : Bytes} {s u : State} (h : deliver data s = .next u) : KeepsSetup s u := by
  rw [deliver_frame h]
  exact ⟨rfl, fun hi => ⟨hi, rfl, rfl, rfl⟩⟩

theorem closeDelivery_keepsSetup (u : State) : KeepsSetup u (closeDelivery u) := by
  have hf : (closeDelivery u).flag .txConnected = u.flag .txConnected := by simp [closeDelivery_flag]
  have hc := closeDelivery_frame u
  generalize closeDelivery u = v at hf hc ⊢
  rw [KeepsSetup, hf, hc]
  exact ⟨rfl, fun hi => ⟨hi, rfl, rfl, rfl⟩⟩

theorem inCompleteHandler_keepsSetup {s t : State} (h : inCompleteHandler s = .next t) : KeepsSetup s t := by
  have hf := inCompleteHandler_flag h .txConnected (by decide)
  rw [KeepsSetup, hf, inCompleteHandler_frame h]
  exact ⟨rfl, fun hi => ⟨hi, rfl, rfl, rfl⟩⟩

/-- Every step fixes what initialisation set up. -/
theorem step_keepsSetup {s t : State} (h : step s = .next t) : KeepsSetup s t := by
  refine step_keeps (KeepsSetup s) (fun _ _ _ hs => hs) (fun _ _ hs hp => hs.trans hp.keepsSetup)
    (fun _ _ _ hs _ _ _ => hs) ?ring (fun _ _ hs _ h => hs.trans (inCompleteHandler_keepsSetup h)) ?outComplete
    ?nak ?init ⟨rfl, fun hi => ⟨hi, rfl, rfl, rfl⟩⟩ h
  case ring =>
    intro u t i hu hf h
    rw [exec_ring_frame hf h]
    exact hu
  case outComplete =>
    exact fun _ u hu _ _ h => (hu.trans (deliver_keepsSetup h)).trans (closeDelivery_keepsSetup u)
  case nak =>
    intro s' u hu _ _ _ h
    have hv : KeepsSetup s u := KeepsSetup.trans (t := emitRdreq s') hu (deliver_keepsSetup h)
    refine hv.trans ⟨rfl, fun hi => ⟨hi, ?_, rfl, rfl⟩⟩
    rw [setFlag_flag]
    rfl
  case init =>
    rintro u t ⟨hc, hu⟩ h
    obtain ⟨hi, base, _, ht⟩ := execXptInit_frame h
    have hcfg : t.cfg = u.cfg := by rw [ht]; rfl
    exact ⟨hcfg.trans hc, fun his => by rw [(hu his).1] at hi; cases hi⟩

/-- Settles O46: only `XPT.INIT` writes these registers, and it is refused once `inited` is set. -/
theorem initialisationIsForever : Obligations.InitialisationIsForever := fun _ _ h => step_keepsSetup h

/-! ### The request log (R38) -/

/-- The sequencer of the state `s` has logged nothing so far, or has returned with one frame sent (R163, R207). -/
def SentAtMostOnce (s u : State) : Prop :=
  u.cfg = s.cfg ∧
    (u.hwLog = s.hwLog ∨
      (u.app.cmd = .idle ∧ ∃ d, u.hwLog = s.hwLog ++ [.write s.cfg.epIn d] ∧ d.length = s.cfg.frameSize))

/-- Only phase 5 of `APP.WRITE` logs a request, and it ends the command (R163). -/
theorem PhaseStep.log {s t : State} (h : PhaseStep s t) :
    (t.hwLog = s.hwLog ∧ (s.app.cmd = .idle → t.app.cmd = .idle)) ∨
      (s.app.cmd = .write ∧ t.app.cmd = .idle ∧
        ∃ d, t.hwLog = s.hwLog ++ [.write s.cfg.epIn d] ∧ d.length = s.cfg.frameSize) := by
  cases h with
  | idle => exact .inl ⟨rfl, id⟩
  | writeIssue hc => exact .inr ⟨hc, rfl, _, rfl, Memory.readBytes_length _ _ _⟩
  | flushIn hc | flushOut hc => exact .inl ⟨by simp [flushRing], by simp [hc]⟩
  | _ => exact .inl ⟨rfl, by simp [*]⟩

theorem SentAtMostOnce.phase {s u t : State} (hu : SentAtMostOnce s u) (h : PhaseStep u t) : SentAtMostOnce s t := by
  obtain ⟨hc, hlog⟩ := hu
  refine ⟨h.cfg_eq.trans hc, ?_⟩
  rcases h.log with ⟨hsame, hidle⟩ | ⟨hw, hret, d, hsent, hd⟩
  · rw [hsame]
    exact hlog.imp id fun ⟨hi, hone⟩ => ⟨hidle hi, hone⟩
  · rcases hlog with hlog | ⟨hi, _⟩
    · rw [hlog, hc] at hsent
      exact .inr ⟨hret, d, hsent, hc ▸ hd⟩
    · rw [hi] at hw; cases hw

/-- An application command, or a phase of it, sends at most one frame. -/
theorem SentAtMostOnce.logged {s t : State} (h : SentAtMostOnce s t) : t.hwLog = s.hwLog ∨
    (∃ d, t.hwLog = s.hwLog ++ [.write s.cfg.epIn d] ∧ d.length = s.cfg.frameSize) :=
  h.2.imp id fun ⟨_, hone⟩ => hone

/-- An IN-complete sends at most one frame (R141). -/
theorem inCompleteHandler_log {s t : State} (h : inCompleteHandler s = .next t) : t.hwLog = s.hwLog ∨
    (∃ d, t.hwLog = s.hwLog ++ [.write s.cfg.epIn d] ∧ d.length = s.cfg.frameSize) := by
  rcases inCompleteHandler_next h with ⟨_, rfl⟩ | ⟨_, _, _, _, _, rfl⟩
  · exact .inl rfl
  · exact .inr ⟨_, rfl, Memory.readBytes_length _ _ _⟩

/-- A step logs a request in phase 5 of `APP.WRITE`, which ends the command, in an IN-complete that sends, or in an OUT-NAK
that arms, and then one only. -/
theorem StepEffect.log {a : Action} {s t : State} (he : StepEffect a s t) :
    t.hwLog = s.hwLog ∨
    (∃ d, t.hwLog = s.hwLog ++ [.write s.cfg.epIn d] ∧ d.length = s.cfg.frameSize) ∨
    (t.hwLog = s.hwLog ++ [.rdreq s.cfg.epOut s.cfg.rxStagingSize] ∧ t.flag .rxBufferQueued = true) := by
  have hnone : SentAtMostOnce s s := ⟨rfl, .inl rfl⟩
  cases he with
  | wait | nakIgnored => exact .inl rfl
  | phase _ _ _ hp => exact (hnone.phase hp).logged.imp id .inl
  | ring _ hf h => exact .inl (by rw [exec_ring_frame hf h])
  | start _ _ _ _ _ h =>
    exact (startCommand_keeps (SentAtMostOnce s) (fun _ _ hu hp => hu.phase hp) h ⟨rfl, .inl rfl⟩).logged.imp id .inl
  | inComplete _ _ h => exact (inCompleteHandler_log h).imp id .inl
  | outComplete _ _ _ h => exact .inl (by rw [closeDelivery_deliver_frame h])
  | nakArmed _ _ _ _ _ h =>
    refine .inr (.inr ⟨?_, by simp⟩)
    rw [setFlag_hwLog, deliver_frame h]
    rfl
  | init _ h =>
    obtain ⟨_, base, _, ht⟩ := execXptInit_frame h
    exact .inl (by rw [ht]; rfl)

/-- Settles O47: each case of a step logs nothing, or one request of its own shape. -/
theorem everyStepLogsAtMostOneRequest : Obligations.EveryStepLogsAtMostOneRequest := by
  intro s t h
  obtain ⟨rest, ops, he⟩ := step_effect h
  exact he.log

/-! ### Who clears `rx_buffer_full` (R32) -/

/-- Of all phases only phase 2 of `APP.READ` clears `rx_buffer_full` (R162). -/
theorem PhaseStep.full_cleared {s t : State} (h : PhaseStep s t) (hs : s.flag .rxBufferFull = true) :
    t.flag .rxBufferFull = true ∨ (s.app.cmd = .read ∧ s.app.phase = 2) := by
  cases h with
  | readClear hc hp => exact .inr ⟨hc, hp⟩
  | writeBusy => exact .inl (by simpa using hs)
  | _ => exact .inl hs

/-- No phase turns another command into `APP.READ` (R36). -/
theorem PhaseStep.cmd {s t : State} (h : PhaseStep s t) : t.app.cmd = s.app.cmd ∨ t.app.cmd = .idle := by
  cases h with
  | readCount | readClear | writeStay | writeEmpty | writePopNothing | writeIssue | flushOut => exact .inr rfl
  | _ => exact .inl rfl

/-- An application command other than `APP.READ` leaves a set `rx_buffer_full` set. -/
theorem startCommand_full {c : AppCmd} {s t : State} (hne : c ≠ .read) (hs : s.flag .rxBufferFull = true)
    (h : startCommand c s = .next t) : t.flag .rxBufferFull = true := by
  refine (startCommand_keeps (fun u => u.app.cmd ≠ .read ∧ u.flag .rxBufferFull = true) ?_ h ⟨hne, hs⟩).2
  rintro u v ⟨hu, hfull⟩ hp
  refine ⟨?_, (hp.full_cleared hfull).resolve_right fun ⟨hc, _⟩ => hu hc⟩
  rcases hp.cmd with hv | hv <;> rw [hv]
  · exact hu
  · decide

/-- Only `APP.READ` issues the sequencer's `read` (R160). -/
theorem issuedCmd_eq_read {i : Instr} (h : issuedCmd i = .read) : i = .appRead := by
  cases i with
  | appRead => rfl
  | _ => cases h

/-- An OUT-complete leaves a set `rx_buffer_full` set (R142). -/
theorem closeDelivery_full {u : State} (h : u.flag .rxBufferFull = true) : (closeDelivery u).flag .rxBufferFull = true := by
  simp [closeDelivery_flag, h]

/-- After initialisation only phase 2 of `APP.READ`, or the whole command where it is indivisible, clears a set
`rx_buffer_full`. -/
theorem StepEffect.full_cleared {a : Action} {s t : State} (he : StepEffect a s t) (hi : s.inited = true)
    (hs : s.flag .rxBufferFull = true) :
    t.flag .rxBufferFull = true ∨ a = .phase .read 2 ∨ (a = .command .appRead ∧ s.cfg.appPreemptible = false) := by
  cases he with
  | wait | nakIgnored => exact .inl hs
  | phase ha _ _ hp =>
    refine (hp.full_cleared hs).imp id fun ⟨hc, hk⟩ => .inl ?_
    rw [ha, hc, hk]
  | ring _ hf h => exact .inl (by rw [exec_ring_frame hf h]; exact hs)
  | @start _ i f ha _ _ _ _ h =>
    by_cases hread : issuedCmd i = .read
    · rcases startCommand_next h with ⟨_, rfl⟩ | ⟨hnp, _⟩
      · exact .inl hs
      · exact .inr (.inr ⟨issuedCmd_eq_read hread ▸ ha, hnp⟩)
    · exact .inl (startCommand_full (s := { s with app := { s.app with frame := f } }) hread hs h)
  | inComplete _ _ h => exact .inl ((inCompleteHandler_flag h .rxBufferFull (by decide)).trans hs)
  | outComplete _ _ _ h =>
    refine .inl (closeDelivery_full ?_)
    rw [deliver_frame h]
    exact hs
  | nakArmed _ _ _ _ _ h =>
    refine .inl ?_
    rw [setFlag_flag, deliver_frame h]
    exact hs
  | init _ h =>
    obtain ⟨hni, _⟩ := execXptInit_frame h
    rw [hi] at hni
    cases hni

/-- Settles O48: every other case of a step leaves a set flag set. -/
theorem onlyReadClearsTheFullFlag : Obligations.OnlyReadClearsTheFullFlag := by
  intro s t hi h hfull hclear
  obtain ⟨rest, ops, he⟩ := step_effect h
  exact (he.full_cleared hi hfull).resolve_left fun hset => by rw [hset] at hclear; cases hclear

end Sys2Proof.Machine

/-!
PROOFS. The remaining parts of the invariant of the composed block: memory, the sequencer, the pending count, the regions.
-/

namespace Sys2Proof.Machine

/-! ### Memory -/

theorem PhaseStep.memory_wf {s t : State} (h : PhaseStep s t) (hs : s.wm.wf) : t.wm.wf := by
  cases h with
  | writeInsert | writePop => exact Memory.writeBytes_wf _ _ _ hs
  | _ => exact hs

theorem inCompleteHandler_memory_wf {s t : State} (hs : s.wm.wf) (h : inCompleteHandler s = .next t) : t.wm.wf := by
  rcases inCompleteHandler_next h with ⟨_, rfl⟩ | ⟨_, _, _, _, rfl, rfl⟩
  · exact hs
  · exact Memory.writeBytes_wf _ _ _ hs

theorem exec_ring_memory_wf {s t : State} {i : Instr} (hs : s.wm.wf) (hf : i.format = .R) (h : exec i s = .next t) :
    t.wm.wf := by
  obtain ⟨r, out, _, rfl | ⟨_, u, hu, rfl⟩ | ⟨p, hp, rfl⟩ | rfl | rfl⟩ := exec_ring_cases hf h
  · simpa [initRing] using hs
  · obtain ⟨_, rfl⟩ := insertFrame_next.mp hu
    rw [ringReturn_wm, setRb_wm]
    exact Memory.writeBytes_wf _ _ _ hs
  · rcases popFrame_state hp with hp | ⟨_, hp⟩ <;> rw [hp, ringReturn_wm]
    · exact hs
    · rw [setRb_wm]; exact hs
  · exact hs
  · simpa [flushRing] using hs

/-- Every step keeps the memory in canonical form. -/
theorem step_memory_wf {s t : State} (hs : s.wm.wf) (h : step s = .next t) : t.wm.wf := by
  refine step_keeps (fun u => u.wm.wf) (fun _ _ _ hs => hs) (fun _ _ hs hp => hp.memory_wf hs)
    (fun _ _ _ hs _ _ _ => hs) (fun _ _ _ hs hf h => exec_ring_memory_wf hs hf h)
    (fun _ _ hs _ h => inCompleteHandler_memory_wf hs h) ?outComplete ?nak ?init hs h
  case outComplete =>
    intro s u hs _ _ h
    rw [closeDelivery_wm]
    exact deliver_memory_wf h hs
  case nak =>
    intro s u hs _ _ _ h
    rw [setFlag_wm]
    exact deliver_memory_wf (s := emitRdreq s) h hs
  case init =>
    intro s t hs h
    obtain ⟨_, base, _, ht⟩ := execXptInit_frame h
    rw [ht]
    exact hs

/-! ### The sequencer (R36, R37) -/

/-- A frame has at least one byte (R7). -/
theorem frameSize_pos {c : Config} (h : c.wf) : 1 ≤ c.frameSize := by
  obtain ⟨hfs, _⟩ := h
  exact hfs

/-- A frame's length is a value of `app.n`. -/
theorem frameSize_lt {c : Config} (h : c.wf) : c.frameSize < 2 ^ lenW := by
  obtain ⟨_, _, _, hx, hst, _⟩ := h
  exact Nat.lt_of_le_of_lt (Nat.le_mul_of_pos_left _ hx) hst

/-- A phase step leads to the next phase of its command or ends it, with a frame and a pop's result in the temporaries. -/
theorem PhaseStep.appOk {s t : State} (h : PhaseStep s t) (hc : s.cfg.wf) (hs : AppOk s) : AppOk t := by
  have hn := frameSize_lt hc
  obtain ⟨hp, hf, hlt⟩ := hs
  cases h with
  | idle => exact ⟨hp, hf, hlt⟩
  | readCount | readClear | writeStay | writeIssue => exact ⟨rfl, hf, hlt⟩
  | readEmpty hc => exact ⟨by simp [phaseOk, hc], hf, Nat.pow_pos (by decide)⟩
  | readPop hc => exact ⟨by simp [phaseOk, hc], Memory.readBytes_length _ _ _, hn⟩
  | writeInsert hc | writeGo hc | writeBusy hc => exact ⟨by simp [phaseOk, hc], hf, hlt⟩
  | writeEmpty | writePopNothing => exact ⟨rfl, hf, Nat.pow_pos (by decide)⟩
  | writePop hc => exact ⟨by simp [phaseOk, hc], hf, hn⟩
  | flushIn hc => exact ⟨by simp [phaseOk, hc, flushRing], hf, hlt⟩
  | flushOut => exact ⟨rfl, hf, hlt⟩

/-- Every step keeps the sequencer legal. -/
theorem step_keeps_appOk {s t : State} (hc : s.cfg.wf) (hs : AppOk s) (h : step s = .next t) : AppOk t := by
  refine (step_keeps (fun u => u.cfg.wf ∧ AppOk u) (fun _ _ _ hs => hs) ?phase ?issue ?ring ?inComplete ?outComplete
    ?nak ?init ⟨hc, hs⟩ h).2
  case phase => exact fun s t ⟨hc, hs⟩ hp => ⟨hp.cfg_eq ▸ hc, hp.appOk hc hs⟩
  case issue =>
    rintro s c f ⟨hc, _, hf, hlt⟩ _ _ hfr
    refine ⟨hc, by cases c <;> rfl, ?_, hlt⟩
    rcases hfr with rfl | hfr
    · exact hf
    · exact hfr
  case ring =>
    intro s t i hs hf h
    rw [exec_ring_frame hf h]
    exact hs
  case inComplete =>
    intro s t hs _ h
    rw [inCompleteHandler_frame h]
    exact hs
  case outComplete =>
    intro s u hs _ _ h
    rw [closeDelivery_deliver_frame h]
    exact hs
  case nak =>
    intro s u hs _ _ _ h
    rw [deliver_frame h]
    exact hs
  case init =>
    rintro s t ⟨hc, _, hf, hlt⟩ h
    obtain ⟨_, base, _, ht⟩ := execXptInit_frame h
    rw [ht]
    exact ⟨hc, rfl, hf, hlt⟩

/-! ### The pending count (R34) -/

/-- Every step keeps `rx_pending_bytes` a remainder. -/
theorem step_keeps_pendingOk {s t : State} (hc : s.cfg.wf) (hs : PendingOk s) (h : step s = .next t) : PendingOk t := by
  refine (step_keeps (fun u => u.cfg.wf ∧ PendingOk u) (fun _ _ _ hs => hs) ?phase (fun _ _ _ hs _ _ _ => hs) ?ring
    ?inComplete ?outComplete ?nak ?init ⟨hc, hs⟩ h).2
  case phase =>
    intro s t hs hp
    rw [hp.frame]
    exact hs
  case ring =>
    intro s t i hs hf h
    rw [exec_ring_frame hf h]
    exact hs
  case inComplete =>
    intro s t hs _ h
    rw [inCompleteHandler_frame h]
    exact hs
  case outComplete =>
    rintro s u ⟨hc, _⟩ _ _ h
    have hlt : u.rxPending < s.cfg.frameSize :=
      deliver_pending (frameSize_pos hc) h ▸ Nat.mod_lt _ (frameSize_pos hc)
    rw [closeDelivery_deliver_frame h]
    exact ⟨hc, fun _ => hlt⟩
  case nak =>
    rintro s u ⟨hc, _⟩ _ _ _ h
    have hlt : u.rxPending < s.cfg.frameSize :=
      deliver_pending (s := emitRdreq s) (frameSize_pos hc) h ▸ Nat.mod_lt _ (frameSize_pos hc)
    rw [deliver_frame h]
    exact ⟨hc, fun _ => hlt⟩
  case init =>
    rintro s t ⟨hc, _⟩ h
    obtain ⟨_, base, _, ht⟩ := execXptInit_frame h
    rw [ht]
    exact ⟨hc, fun _ => frameSize_pos hc⟩

/-! ### The regions (R62) -/

/-- The layout depends on the configuration and the four bases only. -/
theorem LayoutOk.congr {s t : State} (hs : LayoutOk s) (hset : KeepsSetup s t) (hi : s.inited = true)
    (hb : ∀ r, (t.rb r).base = (s.rb r).base) : LayoutOk t := by
  obtain ⟨hc, hset⟩ := hset
  obtain ⟨_, _, hrx, htx⟩ := hset hi
  have hin : t.rbIn.base = s.rbIn.base := hb .inbound
  have hout : t.rbOut.base = s.rbOut.base := hb .outbound
  rw [LayoutOk, hc, hrx, htx, hin, hout]
  exact hs

/-- A delivery leaves the bases of both rings (R21). -/
theorem deliver_base {data : Bytes} {s u : State} (h : deliver data s = .next u) (r : Ring) :
    (u.rb r).base = (s.rb r).base := by
  cases r
  · exact deliver_ring_base h
  · rw [deliver_frame h]; rfl

/-- No command of the composed block after initialisation moves a ring's storage (R21, R120). -/
theorem StepEffect.base {a : Action} {s t : State} (he : StepEffect a s t) (hi : s.inited = true)
    (hr : ∀ i, a = .command i → i.format ≠ .R) (r : Ring) : (t.rb r).base = (s.rb r).base := by
  cases he with
  | wait | nakIgnored => rfl
  | phase _ _ _ hp => exact (hp.ringMove r).base
  | ring ha hf => exact absurd hf (hr _ ha)
  | start _ _ _ _ _ h =>
    exact startCommand_keeps (fun u => (u.rb r).base = (s.rb r).base)
      (fun _ _ hu hp => (hp.ringMove r).base.trans hu) h (by cases r <;> rfl)
  | inComplete _ _ h => exact (inCompleteHandler_ringMove h r).base
  | outComplete _ _ _ h => rw [closeDelivery_rb, deliver_base h r]
  | nakArmed _ _ _ _ _ h => rw [setFlag_rb, deliver_base h r, emitRdreq_rb]
  | init _ h =>
    obtain ⟨hni, _⟩ := execXptInit_frame h
    rw [hi] at hni
    cases hni

/-- Initialisation lays the four regions out in order (R181). -/
theorem execXptInit_layoutOk {s t : State} (hc : s.cfg.wf) (h : exec .xptInit s = .next t) : LayoutOk t := by
  obtain ⟨_, base, htop, ht⟩ := execXptInit_frame h
  obtain ⟨_, h01, h12, h23, h34⟩ := carve_order s.cfg base hc
  rw [ht]
  exact ⟨h01, h12, h23, h34.trans htop⟩

/-- Every step of the composed block keeps the regions laid out. -/
theorem StepEffect.regionsOk {a : Action} {s t : State} (he : StepEffect a s t) (hc : s.cfg.wf) (hs : RegionsOk s)
    (hset : KeepsSetup s t) (hr : ∀ i, a = .command i → i.format ≠ .R) : RegionsOk t := fun hit => by
  cases hi : s.inited with
  | true => exact (hs hi).congr hset hi (he.base hi hr)
  | false =>
    cases he with
    | init _ h => exact execXptInit_layoutOk hc h
    | wait => rw [hi] at hit; cases hit
    | ring _ hf h => rw [exec_ring_inited hf h] at hi; cases hi
    | phase _ h | start _ _ h | inComplete _ h | outComplete _ h | nakIgnored _ h | nakArmed _ h => rw [h] at hi; cases hi

/-- The premise of the composed block: no R-format command is presented (R120). -/
theorem noTestBench_format {s : State} (h : noTestBench s = true) {i : Instr} (ha : nextAction s = .command i) :
    i.format ≠ .R := by
  simpa [noTestBench, ha] using h

/-- Settles O42: every step keeps each part of the invariant; ENV1 serves the transfers, and the absence of a test bench the
regions. -/
theorem everySafeStepKeepsTheMachineInvariant : Obligations.EverySafeStepKeepsTheMachineInvariant := by
  rintro s t ⟨hcfg, hmem, hrings, hregions, hrx, hpending, happ, htx⟩ ⟨henv, hbench, h⟩
  have hset := step_keepsSetup h
  have ⟨hsame, _⟩ := hset
  obtain ⟨rest, ops, he⟩ := step_effect h
  exact {
    config := hsame ▸ hcfg
    memory := step_memory_wf hmem h
    rings := everyStepKeepsTheRingPointers s t hcfg hrings h
    regions := he.regionsOk hcfg hregions hset fun _ ha => noTestBench_format hbench ha
    rxFlags := everyStepKeepsReceiveFlagsExclusive s t hrx h
    pending := step_keeps_pendingOk hcfg hpending h
    app := step_keeps_appOk hcfg happ h
    tx := everyStepKeepsOneTransferInFlight s t htx henv h }

/-- Settles O37: before initialisation the invariant asks only for the values that R44 gives. -/
theorem powerOnMeetsTheInvariants : Obligations.PowerOnMeetsTheInvariants := by
  refine ⟨by decide +kernel, by decide +kernel, ?_⟩
  rintro s hc ⟨hi, hidle, _, hnone, hf, hlt, hm⟩
  have hno : ∀ {p : Prop}, s.inited = true → p := fun h => by rw [hi] at h; cases h
  exact {
    config := hc
    memory := hm
    rings := hno
    regions := hno
    rxFlags := fun h => hno h
    pending := hno
    app := ⟨by rw [phaseOk, hidle], hf, hlt⟩
    tx := (txOk_uninitialised hi).mpr hnone }

end Sys2Proof.Machine

/-!
PROOFS. The bytes a step may write (20_memory.md R62, R64): the memory stays canonical, and nothing outside the four regions
changes.
-/

namespace Sys2Proof.Machine

/-- Settles O38: every write of a byte keeps the canonical form. -/
theorem everyStepKeepsMemoryCanonical : Obligations.EveryStepKeepsMemoryCanonical := fun _ _ hs h => step_memory_wf hs h

/-! ### Writes confined to the regions -/

/-- From `s` to `t` the regions stand where they stood, and no byte outside them has changed. -/
def WritesInside (s t : State) : Prop :=
  inRegions t = inRegions s ∧ ∀ a, inRegions s a = false → t.wm.read a = s.wm.read a

theorem WritesInside.trans {s t u : State} (hst : WritesInside s t) (htu : WritesInside t u) : WritesInside s u := by
  obtain ⟨hreg, hst⟩ := hst
  obtain ⟨hreg', htu⟩ := htu
  exact ⟨hreg'.trans hreg, fun a ha => (htu a (hreg ▸ ha)).trans (hst a ha)⟩

/-- An address outside the regions is outside each of them. -/
theorem inRegions_false {s : State} {a : Nat} : inRegions s a = false ↔
    inSpan s.rxStageBase s.cfg.rxStagingSize a = false ∧ inSpan s.txStageBase s.cfg.txStagingSize a = false ∧
      ∀ r, inStorage s r a = false := by
  simp only [inRegions, Bool.or_eq_false_iff, and_assoc]
  exact and_congr_right fun _ => and_congr_right fun _ =>
    ⟨fun ⟨hin, hout⟩ r => by cases r <;> assumption, fun h => ⟨h .inbound, h .outbound⟩⟩

/-- The regions depend on the configuration and the four bases only (R61). -/
theorem inRegions_congr {s t : State} (hset : KeepsSetup s t) (hi : s.inited = true)
    (hb : ∀ r, (t.rb r).base = (s.rb r).base) : inRegions t = inRegions s := by
  obtain ⟨hc, hset⟩ := hset
  obtain ⟨_, _, hrx, htx⟩ := hset hi
  funext a
  simp only [inRegions, inStorage, hc, hrx, htx, hb]

/-- A frame written to the TX staging buffer changes no byte outside the regions (R61). -/
theorem read_outside_txStaging {s : State} {f : Bytes} {a : Nat} (hf : f.length = s.cfg.frameSize)
    (ha : inRegions s a = false) : (s.wm.writeBytes s.txStageBase f).read a = s.wm.read a := by
  obtain ⟨_, htx, _⟩ := inRegions_false.mp ha
  exact Memory.read_writeBytes_outside _ _ _ _ (hf ▸ inSpan_false.mp htx)

/-- A phase writes a slot of the outbound ring or the TX staging buffer (R163). -/
theorem PhaseStep.writesInside {s t : State} (h : PhaseStep s t) (hi : s.inited = true) (hp : PointersOk s)
    (ha : AppOk s) : WritesInside s t := by
  refine ⟨inRegions_congr h.keepsSetup hi fun r => (h.ringMove r).base, fun a hout => ?_⟩
  obtain ⟨_, hframe, _⟩ := ha
  obtain ⟨_, _, hrings⟩ := inRegions_false.mp hout
  obtain ⟨hhead, _⟩ := hp .outbound
  cases h with
  | writeInsert => exact read_outside_storage hhead hframe (hrings .outbound)
  | writePop => exact read_outside_txStaging (Memory.readBytes_length _ _ _) hout
  | _ => rfl

/-- An application command writes inside the regions, alone or with all its phases (R203 a, R204). -/
theorem startCommand_writesInside {c : AppCmd} {s t : State} (hi : s.inited = true) (hc : s.cfg.wf) (hp : PointersOk s)
    (ha : AppOk (s.issue c)) (h : startCommand c s = .next t) : WritesInside s t := by
  obtain ⟨_, _, _, _, hinside⟩ := startCommand_keeps
    (fun u => u.inited = true ∧ u.cfg.wf ∧ PointersOk u ∧ AppOk u ∧ WritesInside s u)
    (fun _ _ ⟨hiu, hcu, hpu, hau, hsu⟩ hstep =>
      ⟨hstep.inited_eq.trans hiu, hstep.cfg_eq ▸ hcu, hpu.of_moves hcu hstep.cfg_eq hstep.ringMove,
        hstep.appOk hcu hau, hsu.trans (hstep.writesInside hiu hpu hau)⟩)
    h ⟨hi, hc, hp, ha, rfl, fun _ _ => rfl⟩
  exact hinside

/-- A command at a ring port writes at most a frame into the slot at `head` (R122). -/
theorem exec_ring_outside {s t : State} {i : Instr} (hp : PointersOk s) (hf : i.format = .R) (h : exec i s = .next t)
    {a : Nat} (ha : inRegions s a = false) : t.wm.read a = s.wm.read a := by
  obtain ⟨_, _, hrings⟩ := inRegions_false.mp ha
  obtain ⟨r, out, _, rfl | ⟨hlen, u, hu, rfl⟩ | ⟨p, hpop, rfl⟩ | rfl | rfl⟩ := exec_ring_cases hf h
  · simp [initRing]
  · obtain ⟨_, rfl⟩ := insertFrame_next.mp hu
    obtain ⟨hhead, _⟩ := hp r
    rw [ringReturn_wm, setRb_wm]
    exact read_outside_storage hhead hlen (hrings r)
  · rcases popFrame_state hpop with hpop | ⟨_, hpop⟩ <;> simp [hpop]
  · rfl
  · simp [flushRing]

/-- A delivery writes the RX staging buffer and inbound slots (R142, R143). -/
theorem deliver_outside_regions {data : Bytes} {s u : State} (hp : PointersOk s)
    (hle : data.length ≤ s.cfg.rxStagingSize) (h : deliver data s = .next u) {a : Nat} (ha : inRegions s a = false) :
    u.wm.read a = s.wm.read a := by
  obtain ⟨hrx, _, hrings⟩ := inRegions_false.mp ha
  refine deliver_outside h (hp .inbound) (inSpan_false.mpr ?_) (hrings .inbound)
  have := inSpan_false.mp hrx
  omega

/-- An IN-complete writes the TX staging buffer (R141). -/
theorem inCompleteHandler_outside {s t : State} (h : inCompleteHandler s = .next t) {a : Nat}
    (ha : inRegions s a = false) : t.wm.read a = s.wm.read a := by
  rcases inCompleteHandler_next h with ⟨_, rfl⟩ | ⟨_, _, _, _, rfl, rfl⟩
  · rfl
  · exact read_outside_txStaging (Memory.readBytes_length _ _ _) ha

/-- Each case of a step writes inside the regions. -/
theorem StepEffect.outside {act : Action} {s t : State} (he : StepEffect act s t) (hc : s.cfg.wf) (hr : RingsOk s)
    (happ : AppOk s) {a : Nat} (ha : inRegions s a = false) : t.wm.read a = s.wm.read a := by
  have hp := ringsOk_iff.mp hr
  cases he with
  | wait | nakIgnored => rfl
  | phase _ hi _ h =>
    obtain ⟨_, hkept⟩ := h.writesInside hi (hp hi) happ
    exact hkept a ha
  | ring _ hf h => exact exec_ring_outside (hp (exec_ring_inited hf h)) hf h ha
  | @start _ i f _ hf hi _ hfr h =>
    have hissued : AppOk (State.issue { s with app := { s.app with frame := f } } (issuedCmd i)) := by
      obtain ⟨_, hlen, hn⟩ := happ
      refine ⟨by cases issuedCmd i <;> rfl, ?_, hn⟩
      rcases hfr with ⟨_, rfl⟩ | ⟨_, rfl, hw⟩
      · exact hlen
      · exact hw
    obtain ⟨_, hkept⟩ :=
      startCommand_writesInside (s := { s with app := { s.app with frame := f } }) hi hc (hp hi) hissued h
    exact hkept a ha
  | inComplete _ _ h => exact inCompleteHandler_outside h ha
  | outComplete _ hi hle h =>
    rw [closeDelivery_wm]
    exact deliver_outside_regions (hp hi) hle h ha
  | nakArmed _ hi _ havail hle h =>
    exact deliver_outside_regions (s := emitRdreq s) (hp hi) (havail ▸ hle) h ha
  | init _ h =>
    obtain ⟨_, base, _, ht⟩ := execXptInit_frame h
    rw [ht]
    rfl

/-- Settles O45: a step writes ring slots and staging buffers only. -/
theorem everyStepWritesOnlyTheFourRegions : Obligations.EveryStepWritesOnlyTheFourRegions := by
  intro s t hc hr happ h a ha
  obtain ⟨rest, ops, he⟩ := step_effect h
  exact he.outside hc hr happ ha

end Sys2Proof.Machine

/-!
PROOFS. The regions that initialisation carves (43_initialisation.md R181, R182): their layout and what is left of the region
given.
-/

namespace Sys2Proof.Machine

/-- The least multiple of `ALIGN` from an address on is `align_up` of it: R181 leaves no other choice. -/
theorem alignedUp_eq {c : Config} {a b : Nat} (h : AlignedUp c a b) : alignUp c a = b := by
  obtain ⟨⟨k, rfl⟩, hle, hlt⟩ := h
  have hquot : (a + (c.align - 1)) / c.align = k := by
    refine Nat.div_eq_of_lt_le ?_ ?_
    · rw [Nat.mul_comm]; omega
    · rw [Nat.succ_mul, Nat.mul_comm k]; omega
  rw [alignUp, hquot, Nat.mul_comm]

/-- Addresses that meet R181 one after the other are the carved ones. -/
theorem carve_eq_of_alignedUp {c : Config} {base a0 a1 a2 a3 a4 : Nat} (h0 : AlignedUp c base a0)
    (h1 : AlignedUp c (a0 + c.nXfer * c.frameSize) a1) (h2 : AlignedUp c (a1 + c.frameSize) a2)
    (h3 : AlignedUp c (a2 + c.inCapacity * c.frameSize) a3) (h4 : AlignedUp c (a3 + c.outCapacity * c.frameSize) a4) :
    carve c base = ⟨a0, a1, a2, a3, a4⟩ := by
  simp only [carve, Config.rxStagingSize, Config.txStagingSize, alignedUp_eq h0, alignedUp_eq h1, alignedUp_eq h2,
    alignedUp_eq h3, alignedUp_eq h4]

/-- The region returned has the size given, and starts at the carved end where that is an address (R182; log 16). -/
theorem returnRegion_cfgOut (a4 b : Nat) (s : State) :
    ∃ ra, (returnRegion a4 b s).cfgOut = some (ra, b) ∧ (a4 < 2 ^ s.cfg.addrW → ra = a4) := by
  simp only [returnRegion, fitsAddr, decide_eq_true_eq]
  split
  · exact ⟨a4, rfl, fun _ => rfl⟩
  · rename_i hno
    exact ⟨_, rfl, fun h => absurd h hno⟩

/-- Settles O13: the carved addresses rise, each region's size apart, from the base given to an end inside the region given. -/
theorem carvedRegionsAreDisjointAndInside : Obligations.CarvedRegionsAreDisjointAndInside := by
  intro s t hc h
  have hlayout := execXptInit_layoutOk hc h
  obtain ⟨_, _, _, hsize, _, rfl⟩ := execXptInit_next.mp h
  obtain ⟨h0, h1, h2, h3, h4⟩ := carve_order s.cfg s.opnd.opndA hc
  obtain ⟨ra, hout, hra⟩ := returnRegion_cfgOut (carve s.cfg s.opnd.opndA).a4
    (s.opnd.opndB - ((carve s.cfg s.opnd.opndA).a4 - s.opnd.opndA)) (initialise (carve s.cfg s.opnd.opndA) s)
  refine ⟨hlayout, ?_, ?_, ra, _, hout, Nat.sub_le _ _, ?_⟩
  · rw [returnRegion_frame]
    exact h0
  · rw [returnRegion_frame]
    have hend : (carve s.cfg s.opnd.opndA).a4 ≤ s.opnd.opndA + s.opnd.opndB := by omega
    exact h4.trans hend
  · intro a0 a1 a2 a3 a4 e0 e1 e2 e3 e4
    rw [carve_eq_of_alignedUp e0 e1 e2 e3 e4] at h0 h1 h2 h3 h4 hsize hra ⊢
    refine ⟨rfl, fun hlt => ?_⟩
    rw [returnRegion_frame, hra hlt]
    exact ⟨h4, by omega⟩

end Sys2Proof.Machine

/-!
PROOFS. The frames held across a step (10_state.md R27, 20_memory.md R78): what each case of a step does to the frames of a
ring and to the one staged for a request.
-/

namespace Sys2Proof.Machine

/-! ### The block in operation -/

/-- The parts of the machine's invariant that keep frames apart: configuration, canonical memory, pointers, layout and a
legal sequencer, after initialisation. -/
structure Operating (s : State) : Prop where
  config : s.cfg.wf
  memory : s.wm.wf
  inited : s.inited = true
  pointers : PointersOk s
  layout : LayoutOk s
  app : AppOk s

theorem MachineOk.operating {s : State} (h : MachineOk s) (hi : s.inited = true) : Operating s where
  config := h.config
  memory := h.memory
  inited := hi
  pointers := ringsOk_iff.mp h.rings hi
  layout := h.regions hi
  app := h.app

/-- Every phase keeps the block in operation. -/
theorem PhaseStep.operating {s t : State} (h : PhaseStep s t) (hs : Operating s) : Operating t where
  config := h.cfg_eq ▸ hs.config
  memory := h.memory_wf hs.memory
  inited := h.inited_eq.trans hs.inited
  pointers := hs.pointers.of_moves hs.config h.cfg_eq h.ringMove
  layout := hs.layout.congr h.keepsSetup hs.inited fun r => (h.ringMove r).base
  app := h.appOk hs.config hs.app

/-- An issued command with a frame of the right length keeps the block in operation (R160). -/
theorem Operating.issue {s : State} (hs : Operating s) {f : Bytes} (hf : f.length = s.cfg.frameSize) (c : AppCmd) :
    Operating (State.issue { s with app := { s.app with frame := f } } c) where
  config := hs.config
  memory := hs.memory
  inited := hs.inited
  pointers := hs.pointers
  layout := hs.layout
  app := by
    obtain ⟨_, _, hn⟩ := hs.app
    exact ⟨by cases c <;> rfl, hf, hn⟩

/-- The oldest frame of a ring that holds one (R27). -/
theorem contents_eq_cons {s : State} {r : Ring} (hp : (s.rb r).ok (capacity s.cfg r)) (hz : (s.rb r).count ≠ 0) :
    contents s r = s.wm.readBytes (slotAddr s r (s.rb r).tail) s.cfg.frameSize :: (contents s r).drop 1 := by
  obtain ⟨_, ht, _⟩ := hp
  rw [contents_pop s r hz, Nat.mod_eq_of_lt ht]
  rfl

/-! ### Frames and writes -/

/-- A frame of `n` bytes read back where it was written (R63, R64). -/
theorem readBytes_written {m : Memory} {a n : Nat} {v : Bytes} (hm : m.wf) (hv : v.length = n) :
    (m.writeBytes a v).readBytes a n = v := by
  subst hv
  exact Memory.readBytes_writeBytes_same m a v hm

/-- Bytes written outside the storage of a ring leave its frames. -/
theorem contents_of_write_apart {s u : State} {r : Ring} {x : Nat} {v : Bytes} (hcap : 1 ≤ capacity s.cfg r)
    (hc : u.cfg = s.cfg) (hr : u.rb r = s.rb r) (hw : u.wm = s.wm.writeBytes x v)
    (hapart : x + v.length ≤ (s.rb r).base ∨ (s.rb r).base + ringBytes s.cfg r ≤ x) : contents u r = contents s r := by
  refine contents_congr hc hr hcap fun a ha => ?_
  rw [hw]
  refine Memory.read_writeBytes_outside _ _ _ _ ?_
  have := inStorage_true.mp ha
  omega

/-- A frame written to the TX staging buffer leaves the frames of both rings (R62). -/
theorem contents_of_stage {s u : State} (hs : Operating s) {r : Ring} {f : Bytes} (hf : f.length = s.cfg.frameSize)
    (hc : u.cfg = s.cfg) (hr : u.rb r = s.rb r) (hw : u.wm = s.wm.writeBytes s.txStageBase f) :
    contents u r = contents s r := by
  refine contents_of_write_apart (capacity_pos hs.config r) hc hr hw (.inl ?_)
  obtain ⟨_, htx, hin, _⟩ := hs.layout
  have hsize : s.cfg.txStagingSize = s.cfg.frameSize := rfl
  cases r
  · simp only [rb_inbound]; omega
  · simp only [rb_outbound]; omega

/-- A removed frame is the oldest one (R123). -/
theorem contents_of_pop {s u : State} {r : Ring} (hz : (s.rb r).count ≠ 0) (hc : u.cfg = s.cfg)
    (hr : u.rb r = regsAfterPop (capacity s.cfg r) (s.rb r)) (hw : u.wm = s.wm) :
    contents u r = (contents s r).drop 1 := by
  rw [contents_pop s r hz]
  exact contents_same (by simpa using hc) (by simpa using hr) (by simpa using hw)

/-- An empty ring holds no frame to remove. -/
theorem contents_drop_of_empty {s : State} {r : Ring} (hz : (s.rb r).count = 0) :
    contents s r = (contents s r).drop 1 := by
  rw [contents_of_empty hz]
  rfl

/-- A pop into the TX staging buffer takes the oldest outbound frame (R141, R163). -/
theorem contents_of_pop_to_staging {s u : State} (hs : Operating s) {f : Bytes} (hf : f.length = s.cfg.frameSize)
    (hz : s.rbOut.count ≠ 0) (hc : u.cfg = s.cfg) (hr : u.rbOut = regsAfterPop s.cfg.outCapacity s.rbOut)
    (hw : u.wm = s.wm.writeBytes s.txStageBase f) : contents u .outbound = (contents s .outbound).drop 1 := by
  have hpop := contents_of_pop (u := s.setRb .outbound u.rbOut) (r := .outbound) hz rfl hr rfl
  have hbase : u.rbOut.base = s.rbOut.base := by rw [hr]; rfl
  refine Eq.trans ?_ hpop
  refine contents_of_write_apart (capacity_pos hs.config .outbound) hc rfl hw (.inl ?_)
  obtain ⟨_, htx, hin, _⟩ := hs.layout
  have hsize : s.cfg.txStagingSize = s.cfg.frameSize := rfl
  simp only [rb_outbound, setRb_out_rbOut, hbase]
  omega

/-- The staged frame depends on the sequencer, the staging base and the staging bytes only. -/
theorem stagedFrame_congr {s t : State} (happ : t.app = s.app)
    (hb : t.wm.readBytes t.txStageBase t.cfg.frameSize = s.wm.readBytes s.txStageBase s.cfg.frameSize) :
    stagedFrame t = stagedFrame s := by
  simp only [stagedFrame, happ, hb]

/-! ### The phases -/

/-- The inbound frames after the phase that the sequencer is at (R162, R164). -/
def phaseInbound (s : State) : List Bytes :=
  match s.app.cmd, s.app.phase with
  | .read, 1 => (contents s .inbound).drop 1
  | .flush, 1 => []
  | _, _ => contents s .inbound

/-- The outbound frames after the phase that the sequencer is at (R163, R164). -/
def phaseOutbound (s : State) : List Bytes :=
  match s.app.cmd, s.app.phase with
  | .write, 1 => queueInsert s.cfg.outCapacity (contents s .outbound) s.app.frame
  | .write, 3 => (contents s .outbound).drop 1
  | .flush, 2 => []
  | _, _ => contents s .outbound

/-- The frame staged after the phase that the sequencer is at (R163). -/
def phaseStaged (s : State) : List Bytes :=
  match s.app.cmd, s.app.phase with
  | .write, 3 => (contents s .outbound).take 1
  | .write, 4 => stagedFrame s
  | _, _ => []

theorem PhaseStep.inbound {s t : State} (h : PhaseStep s t) (hs : Operating s) : contents t .inbound = phaseInbound s := by
  cases h with
  | readEmpty hc hp hz => simp only [phaseInbound, hc, hp]; exact contents_drop_of_empty hz
  | readPop hc hp hz => simp only [phaseInbound, hc, hp]; exact contents_of_pop hz rfl rfl rfl
  | flushIn hc hp => simp only [phaseInbound, hc, hp]; exact contents_flush s .inbound
  | writeInsert hc =>
    simp only [phaseInbound, hc]
    refine contents_of_write_apart (capacity_pos hs.config _) rfl rfl rfl (.inr ?_)
    obtain ⟨_, _, hout, _⟩ := hs.layout
    simp only [slotAddr, rb_inbound, rb_outbound]
    omega
  | writePop hc =>
    simp only [phaseInbound, hc]
    exact contents_of_stage hs (Memory.readBytes_length _ _ _) rfl rfl rfl
  | idle hc => simp only [phaseInbound, hc]
  | _ => simp only [phaseInbound, *]; exact contents_same rfl rfl rfl

theorem PhaseStep.outbound {s t : State} (h : PhaseStep s t) (hs : Operating s) :
    contents t .outbound = phaseOutbound s := by
  cases h with
  | writeInsert hc hp =>
    simp only [phaseOutbound, hc, hp]
    obtain ⟨_, hlen, _⟩ := hs.app
    exact (contents_same rfl rfl rfl).trans (contents_insert s .outbound s.app.frame hs.memory (hs.pointers _) hlen)
  | writeEmpty hc hp hz => simp only [phaseOutbound, hc, hp]; exact contents_drop_of_empty hz
  | writePop hc hp hz =>
    simp only [phaseOutbound, hc, hp]
    exact contents_of_pop_to_staging hs (Memory.readBytes_length _ _ _) hz rfl rfl rfl
  | writePopNothing hc hp hz => simp only [phaseOutbound, hc, hp]; exact contents_of_pop hz rfl rfl rfl
  | flushOut hc hp => simp only [phaseOutbound, hc, hp]; exact contents_flush s .outbound
  | idle hc => simp only [phaseOutbound, hc]
  | _ => simp only [phaseOutbound, *]; exact contents_same rfl rfl rfl

/-- Outside phases 4 and 5 of `APP.WRITE` no frame is staged. -/
theorem stagedFrame_of_not {s : State} (h : ¬ (s.app.cmd = .write ∧ (s.app.phase = 4 ∨ s.app.phase = 5))) :
    stagedFrame s = [] := if_neg h

/-- In phases 4 and 5 of `APP.WRITE` the TX staging buffer holds a frame. -/
theorem stagedFrame_of_write {s : State} (hc : s.app.cmd = .write) (hp : s.app.phase = 4 ∨ s.app.phase = 5) :
    stagedFrame s = [s.wm.readBytes s.txStageBase s.cfg.frameSize] := if_pos ⟨hc, hp⟩

theorem PhaseStep.staged {s t : State} (h : PhaseStep s t) (hs : Operating s) : stagedFrame t = phaseStaged s := by
  cases h with
  | writePop hc hp hz =>
    refine Eq.trans (if_pos ⟨hc, .inl rfl⟩) ?_
    simp only [phaseStaged, hc, hp]
    rw [contents_eq_cons (hs.pointers .outbound) hz]
    exact congrArg (· :: []) (readBytes_written hs.memory (Memory.readBytes_length _ _ _))
  | writeEmpty hc hp hz =>
    simp only [phaseStaged, hc, hp]
    rw [contents_of_empty (r := .outbound) hz]
    exact stagedFrame_of_not (by simp)
  | writePopNothing _ _ _ hfs => exact absurd hfs (Nat.ne_of_gt (frameSize_pos hs.config))
  | writeBusy hc hp =>
    simp only [phaseStaged, hc, hp]
    rw [stagedFrame_of_write hc (.inl hp)]
    exact stagedFrame_of_write hc (.inr rfl)
  | _ =>
    simp only [phaseStaged, *]
    exact stagedFrame_of_not (by simp [*, flushRing])

/-- A phase step ends the command or goes on past phase 1 (R161 to R164). -/
theorem PhaseStep.past_first {s t : State} (h : PhaseStep s t) : t.app.cmd = .idle ∨ 2 ≤ t.app.phase := by
  cases h with
  | idle hc => exact .inl hc
  | readEmpty | readPop | writeInsert | writeGo | writePop | writeBusy | flushIn => exact .inr (by simp)
  | _ => exact .inl rfl

/-- Only the first phase of a command changes the inbound frames. -/
theorem phaseInbound_of_past_first {s : State} (h : s.app.cmd = .idle ∨ 2 ≤ s.app.phase) :
    phaseInbound s = contents s .inbound := by
  have hne : s.app.cmd = .idle ∨ s.app.phase ≠ 1 := h.imp id (by omega)
  simp only [phaseInbound]
  split
  · simp_all
  · simp_all
  · rfl

/-- An issued command changes the inbound frames as its first phase does where application commands are indivisible, and not
at all where they are not (R203 a, R204). -/
theorem startCommand_inbound {c : AppCmd} {s t : State} (hne : c ≠ .idle) (hs : Operating (s.issue c))
    (h : startCommand c s = .next t) :
    contents t .inbound = if s.cfg.appPreemptible then contents s .inbound else phaseInbound (s.issue c) := by
  rcases startCommand_next h with ⟨hpre, rfl⟩ | ⟨hpre, h⟩
  · rw [if_pos hpre]
    exact contents_same rfl rfl rfl
  · simp only [maxPhases, runPhases, issue_app, hne, if_false, andThen_eq_next] at h
    obtain ⟨u, hu, h⟩ := h
    have hfirst := appPhase_step hu
    obtain ⟨_, _, hcont⟩ := runPhases_keeps
      (fun v => Operating v ∧ (v.app.cmd = .idle ∨ 2 ≤ v.app.phase) ∧ contents v .inbound = phaseInbound (s.issue c))
      (fun _ _ ⟨hv, hpast, hcont⟩ hstep =>
        ⟨hstep.operating hv, hstep.past_first, by rw [hstep.inbound hv, phaseInbound_of_past_first hpast, hcont]⟩)
      4 u t ⟨hfirst.operating hs, hfirst.past_first, hfirst.inbound hs⟩ h
    rw [hpre]
    exact hcont

/-! ### The events -/

/-- An IN-complete leaves the inbound frames (R141). -/
theorem inCompleteHandler_inbound {s t : State} (hs : Operating s) (h : inCompleteHandler s = .next t) :
    contents t .inbound = contents s .inbound := by
  rcases inCompleteHandler_next h with ⟨_, rfl⟩ | ⟨_, _, _, _, rfl, rfl⟩
  · exact contents_same rfl rfl rfl
  · exact contents_of_stage hs (Memory.readBytes_length _ _ _) rfl rfl rfl

/-- An IN-complete takes the oldest outbound frame, if there is one (R141). -/
theorem inCompleteHandler_outbound {s t : State} (hs : Operating s) (h : inCompleteHandler s = .next t) :
    contents t .outbound = (contents s .outbound).drop 1 := by
  rcases inCompleteHandler_next h with ⟨hz, rfl⟩ | ⟨hz, _, _, _, rfl, rfl⟩
  · exact (contents_same rfl rfl rfl).trans (contents_drop_of_empty hz)
  · exact contents_of_pop_to_staging hs (Memory.readBytes_length _ _ _) hz rfl rfl rfl

/-- A delivery inserts its whole frames (R142, R143). -/
theorem deliver_inbound {data : Bytes} {s u : State} (hs : Operating s) (hle : data.length ≤ s.cfg.rxStagingSize)
    (h : deliver data s = .next u) : contents u .inbound =
      queueInsertAll s.cfg.inCapacity (contents s .inbound) (framesOf s.cfg.frameSize data) := by
  obtain ⟨v, hv, _, _, _, hcont, _⟩ := deliver_run hs.config hs.memory (hs.pointers .inbound) hs.layout hle
  rw [hv] at h
  cases h
  exact hcont

/-- Above the inbound ring's storage, and in the TX staging buffer, a delivery writes nothing (R62). -/
theorem deliver_read_apart {data : Bytes} {s u : State} (hs : Operating s) (hle : data.length ≤ s.cfg.rxStagingSize)
    (h : deliver data s = .next u) {a : Nat} (hstage : s.txStageBase ≤ a)
    (hin : a < s.rbIn.base ∨ s.rbIn.base + ringBytes s.cfg .inbound ≤ a) : u.wm.read a = s.wm.read a := by
  obtain ⟨hrx, _⟩ := hs.layout
  exact deliver_outside h (hs.pointers .inbound) (inSpan_false.mpr (.inr (by omega))) (inStorage_false.mpr hin)

/-- A delivery leaves the outbound frames (R142). -/
theorem deliver_outbound {data : Bytes} {s u : State} (hs : Operating s) (hle : data.length ≤ s.cfg.rxStagingSize)
    (h : deliver data s = .next u) : contents u .outbound = contents s .outbound := by
  refine contents_congr (by rw [deliver_frame h]) (by rw [deliver_frame h]; rfl) (capacity_pos hs.config _) fun a ha => ?_
  obtain ⟨_, htx, hin, _⟩ := hs.layout
  have hout := inStorage_true.mp ha
  simp only [rb_outbound] at hout
  exact deliver_read_apart hs hle h (by omega) (.inr (by omega))

/-- A delivery leaves the staged frame (R142). -/
theorem deliver_staged {data : Bytes} {s u : State} (hs : Operating s) (hle : data.length ≤ s.cfg.rxStagingSize)
    (h : deliver data s = .next u) : stagedFrame u = stagedFrame s := by
  have hread : u.wm.readBytes s.txStageBase s.cfg.frameSize = s.wm.readBytes s.txStageBase s.cfg.frameSize := by
    obtain ⟨_, htx, _⟩ := hs.layout
    have hsize : s.cfg.txStagingSize = s.cfg.frameSize := rfl
    exact Memory.readBytes_congr fun k hk => deliver_read_apart hs hle h (by omega) (.inl (by omega))
  refine stagedFrame_congr (by rw [deliver_frame h]) ?_
  rw [deliver_frame h]
  exact hread

@[simp] theorem closeDelivery_contents (u : State) (r : Ring) : contents (closeDelivery u) r = contents u r :=
  contents_same (by rw [closeDelivery_frame]) (closeDelivery_rb u r) (closeDelivery_wm u)

/-! ### The step -/

/-- The inbound queue after a phase, as `inboundAfter` says it. -/
theorem inboundAfter_of_phase {s : State} (ha : nextAction s = .phase s.app.cmd s.app.phase) :
    inboundAfter s = phaseInbound s := by
  simp only [inboundAfter, ha, phaseInbound]
  split <;> simp_all

/-- Settles O50: deliveries insert at the end, `APP.READ` and `APP.FLUSH` take in their first phase, and every other write is
outside the inbound ring's storage. -/
theorem receivePathKeepsEveryFrameInOrder : Obligations.ReceivePathKeepsEveryFrameInOrder := by
  rintro s t hi hok ⟨_, hbench, h⟩
  obtain ⟨rest, ⟨ha, rfl⟩ | ⟨ha, _, _, h⟩ | ⟨i, ha, h⟩⟩ := step_cases h
  · simp only [inboundAfter, ha]
    exact contents_same rfl rfl rfl
  · have hs : Operating { s with inputs := rest } := { hok.operating hi with }
    rw [inboundAfter_of_phase ha]
    exact (appPhase_step h).inbound hs
  · have hs : Operating { s with inputs := rest, opnd := nextOperands s } := { hok.operating hi with }
    obtain ⟨_, hlen, _⟩ := hs.app
    simp only [inboundAfter, ha]
    cases i
    case appReadCount =>
      obtain ⟨_, _, h⟩ := execAppReadCount_next.mp h
      rw [startCommand_inbound (by decide) (hs.issue hlen .readCount) h]
      exact ite_self _
    case appRead =>
      obtain ⟨_, _, h⟩ := execAppRead_next.mp h
      exact startCommand_inbound (by decide) (hs.issue hlen .read) h
    case appWrite =>
      obtain ⟨_, _, hw, h⟩ := execAppWrite_next.mp h
      rw [startCommand_inbound (by decide) (hs.issue hw .write) h]
      exact ite_self _
    case appFlush =>
      obtain ⟨_, _, h⟩ := execAppFlush_next.mp h
      exact startCommand_inbound (by decide) (hs.issue hlen .flush) h
    case evtInComplete =>
      obtain ⟨_, h⟩ := execEvtInComplete_next.mp h
      exact (inCompleteHandler_inbound hs h :)
    case evtOutComplete len =>
      obtain ⟨_, h⟩ := execEvtOutComplete_next.mp h
      obtain ⟨hle, rfl, u, hu, rfl⟩ := outCompleteHandler_next.mp h
      rw [closeDelivery_contents]
      exact (deliver_inbound hs hle hu :)
    case evtOutNak =>
      obtain ⟨_, h⟩ := execEvtOutNak_next.mp h
      rcases outNakHandler_next.mp h with ⟨hm, rfl⟩ | ⟨hm, hle, havail, u, hu, rfl⟩
      · exact (contents_same rfl rfl rfl).trans (if_neg (by simpa using hm)).symm
      · have harmed : Operating (emitRdreq { s with inputs := rest, opnd := nextOperands s }) := { hs with }
        rw [if_pos hm]
        exact (deliver_inbound harmed (havail ▸ hle) hu :)
    case xptInit =>
      obtain ⟨hni, _⟩ := execXptInit_frame h
      exact absurd (hni.symm.trans hi) (by decide)
    all_goals exact absurd rfl (noTestBench_format hbench ha)

end Sys2Proof.Machine

/-!
PROOFS. Unwritten memory (20_memory.md R76): a memory that differs only in bytes that hold no frame serves every step as well.
-/

namespace Sys2Proof.Machine

/-! ### A memory that stands in for the state's own -/

/-- The memory `m` holds the frames that the memory of `s` holds in the rings and staged for a request. -/
structure StandsIn (m : Memory) (s : State) : Prop where
  memory : m.wf
  frames : ∀ r, contents { s with wm := m } r = contents s r
  staged : stagedFrame { s with wm := m } = stagedFrame s

theorem Alike.standsIn {s s' : State} (h : Alike s s') (hm : s'.wm.wf) : StandsIn s'.wm s := by
  obtain ⟨hs', hframes, hstaged⟩ := h
  rw [hs'] at hframes hstaged
  exact ⟨hm, hframes, hstaged⟩

theorem StandsIn.alike {m : Memory} {s : State} (h : StandsIn m s) : Alike s { s with wm := m } :=
  ⟨rfl, h.frames, h.staged⟩

theorem StandsIn.operating {m : Memory} {s : State} (h : StandsIn m s) (hs : Operating s) : Operating { s with wm := m } :=
  { hs with memory := h.memory }

/-- The oldest frame of a ring is the same in both memories. -/
theorem StandsIn.oldest {m : Memory} {s : State} (h : StandsIn m s) {r : Ring} (hp : (s.rb r).ok (capacity s.cfg r))
    (hz : (s.rb r).count ≠ 0) :
    m.readBytes (slotAddr s r (s.rb r).tail) s.cfg.frameSize =
      s.wm.readBytes (slotAddr s r (s.rb r).tail) s.cfg.frameSize := by
  have hcons := (contents_eq_cons (s := { s with wm := m }) hp hz).symm.trans
    ((h.frames r).trans (contents_eq_cons hp hz))
  exact (List.cons.inj hcons).1

/-- The frame staged for the request of phase 5 is the same in both memories. -/
theorem StandsIn.staging {m : Memory} {s : State} (h : StandsIn m s) (hc : s.app.cmd = .write) (hp : s.app.phase = 5) :
    m.readBytes s.txStageBase s.cfg.frameSize = s.wm.readBytes s.txStageBase s.cfg.frameSize := by
  have hcons := (stagedFrame_of_write (s := { s with wm := m }) hc (.inr hp)).symm.trans
    (h.staged.trans (stagedFrame_of_write hc (.inr hp)))
  exact (List.cons.inj hcons).1

/-- Where `o` leads to a state, `o'` leads to the same state but for a memory that stands in for its own. -/
def Follows (o o' : Result State) : Prop :=
  ∀ t, o = .next t → ∃ m, o' = .next { t with wm := m } ∧ StandsIn m t

/-! ### The phases -/

/-- The phase relation is the phase function, where a frame has a byte (R203 b). -/
theorem PhaseStep.appPhase_eq {s t : State} (hfs : 1 ≤ s.cfg.frameSize) (h : PhaseStep s t) : appPhase s = .next t := by
  cases h with
  | readEmpty hc hp hz =>
    have hphase : appPhase s = readPhase1 s := by simp only [appPhase, hc, hp]
    rw [hphase, readPhase1, popFrame_empty .inbound s hz]
    rfl
  | readPop hc hp hz hin =>
    have hphase : appPhase s = readPhase1 s := by simp only [appPhase, hc, hp]
    rw [hphase, readPhase1, popFrame_eq .inbound s hz hin]
    rfl
  | writeInsert hc hp hin =>
    have hphase : appPhase s = writePhase1 s := by simp only [appPhase, hc, hp]
    rw [hphase, writePhase1, insertFrame_eq .outbound s.app.frame s hin]
    rfl
  | writeGo hc hp hm | writeStay hc hp hm =>
    have hphase : appPhase s = writePhase2 s := by simp only [appPhase, hc, hp]
    simp only [hphase, writePhase2, hm]
    rfl
  | writeEmpty hc hp hz =>
    have hphase : appPhase s = writePhase3 s := by simp only [appPhase, hc, hp]
    rw [hphase, writePhase3, popToStaging_empty s hz]
    rfl
  | writePop hc hp hz hne hin hst =>
    have hphase : appPhase s = writePhase3 s := by simp only [appPhase, hc, hp]
    rw [hphase, writePhase3, popToStaging_eq s hz hin hst]
    exact if_pos hne
  | writePopNothing _ _ _ hzero => omega
  | writeIssue hc hp hst =>
    have hphase : appPhase s = writePhase5 s := by simp only [appPhase, hc, hp]
    rw [hphase, writePhase5, emitWrite_eq s hst]
    rfl
  | idle hc => simp only [appPhase, hc]
  | _ =>
    simp only [appPhase, *]
    rfl

/-- A phase runs in the same way on a memory that stands in. -/
theorem PhaseStep.mirror {s t : State} {m : Memory} (h : PhaseStep s t) (hs : Operating s) (hm : StandsIn m s) :
    ∃ m', PhaseStep { s with wm := m } { t with wm := m' } := by
  cases h with
  | idle hc => exact ⟨m, .idle hc⟩
  | readCount hc hp => exact ⟨m, .readCount hc hp⟩
  | readEmpty hc hp hz => exact ⟨m, .readEmpty hc hp hz⟩
  | readPop hc hp hz hin =>
    have hpop := PhaseStep.readPop (s := { s with wm := m }) hc hp hz hin
    exact ⟨m, hm.oldest (hs.pointers .inbound) hz ▸ hpop⟩
  | readClear hc hp => exact ⟨m, .readClear hc hp⟩
  | writeInsert hc hp hin => exact ⟨_, .writeInsert hc hp hin⟩
  | writeGo hc hp hgo => exact ⟨m, .writeGo hc hp hgo⟩
  | writeStay hc hp hstay => exact ⟨m, .writeStay hc hp hstay⟩
  | writeEmpty hc hp hz => exact ⟨m, .writeEmpty hc hp hz⟩
  | writePop hc hp hz hfs hin hst => exact ⟨_, .writePop hc hp hz hfs hin hst⟩
  | writePopNothing hc hp hz hfs => exact ⟨m, .writePopNothing hc hp hz hfs⟩
  | writeBusy hc hp => exact ⟨m, .writeBusy hc hp⟩
  | writeIssue hc hp hst =>
    have hissue := PhaseStep.writeIssue (s := { s with wm := m }) hc hp hst
    exact ⟨m, hm.staging hc hp ▸ hissue⟩
  | flushIn hc hp => exact ⟨m, .flushIn hc hp⟩
  | flushOut hc hp => exact ⟨m, .flushOut hc hp⟩

theorem phaseInbound_standsIn {m : Memory} {s : State} (h : StandsIn m s) :
    phaseInbound { s with wm := m } = phaseInbound s := by
  simp only [phaseInbound, h.frames]

theorem phaseOutbound_standsIn {m : Memory} {s : State} (h : StandsIn m s) :
    phaseOutbound { s with wm := m } = phaseOutbound s := by
  simp only [phaseOutbound, h.frames]

theorem phaseStaged_standsIn {m : Memory} {s : State} (h : StandsIn m s) :
    phaseStaged { s with wm := m } = phaseStaged s := by
  simp only [phaseStaged, h.frames, h.staged]

/-- After a phase on a memory that stands in the frames are again the same. -/
theorem appPhase_follows {s : State} {m : Memory} (hs : Operating s) (hm : StandsIn m s) :
    Follows (appPhase s) (appPhase { s with wm := m }) := by
  intro t h
  have hstep := appPhase_step h
  obtain ⟨m', hstep'⟩ := hstep.mirror hs hm
  have hs' := hm.operating hs
  refine ⟨m', hstep'.appPhase_eq (frameSize_pos hs.config), ?_, ?_, ?_⟩
  · exact hstep'.memory_wf hm.memory
  · intro r
    cases r
    · rw [hstep'.inbound hs', hstep.inbound hs, phaseInbound_standsIn hm]
    · rw [hstep'.outbound hs', hstep.outbound hs, phaseOutbound_standsIn hm]
  · rw [hstep'.staged hs', hstep.staged hs, phaseStaged_standsIn hm]

theorem runPhases_follows (n : Nat) {s : State} {m : Memory} (hs : Operating s) (hm : StandsIn m s) :
    Follows (runPhases n s) (runPhases n { s with wm := m }) := by
  induction n generalizing s m with
  | zero =>
    intro t h
    cases h
    exact ⟨m, rfl, hm⟩
  | succ n ih =>
    intro t h
    simp only [runPhases] at h ⊢
    split at h
    · rename_i hidle
      cases h
      exact ⟨m, if_pos hidle, hm⟩
    · rename_i hrun
      obtain ⟨u, hu, h⟩ := andThen_eq_next.mp h
      obtain ⟨m', hu', hm'⟩ := appPhase_follows hs hm u hu
      obtain ⟨m'', ht, hm''⟩ := ih ((appPhase_step hu).operating hs) hm' t h
      exact ⟨m'', by rw [if_neg hrun, hu', andThen_next, ht], hm''⟩

/-- A memory stands in for the state's own after a command is issued: no frame is staged in phase 1. -/
theorem StandsIn.issue {s : State} {m : Memory} (hm : StandsIn m s) (f : Bytes) (c : AppCmd) :
    StandsIn m (State.issue { s with app := { s.app with frame := f } } c) where
  memory := hm.memory
  frames := hm.frames
  staged := by
    rw [stagedFrame_of_not (by simp), stagedFrame_of_not (by simp)]

theorem startCommand_follows {s : State} {m : Memory} (c : AppCmd) (hs : Operating (s.issue c))
    (hm : StandsIn m (s.issue c)) : Follows (startCommand c s) (startCommand c { s with wm := m }) := by
  simp only [startCommand]
  split
  · intro t h
    cases h
    exact ⟨m, rfl, hm⟩
  · exact runPhases_follows maxPhases hs hm

/-! ### The events -/

theorem inCompleteHandler_follows {s : State} {m : Memory} (hs : Operating s) (hm : StandsIn m s) :
    Follows (inCompleteHandler s) (inCompleteHandler { s with wm := m }) := by
  intro t h
  have hs' := hm.operating hs
  rcases inCompleteHandler_next h with ⟨hz, rfl⟩ | ⟨hz, hin, hst, wm, hwm, rfl⟩
  · exact ⟨m, inCompleteHandler_empty { s with wm := m } hz, hm.memory, hm.frames, hm.staged⟩
  · obtain ⟨t', h'⟩ := inCompleteHandler_send { s with wm := m } hz hin hst
    rcases inCompleteHandler_next h' with ⟨hz', _⟩ | ⟨_, _, _, wm', hwm', rfl⟩
    · exact absurd hz' hz
    · have hlen := Memory.readBytes_length s.wm (slotAddr s .outbound s.rbOut.tail) s.cfg.frameSize
      have hframe : wm' = m.writeBytes s.txStageBase
          (s.wm.readBytes (slotAddr s .outbound s.rbOut.tail) s.cfg.frameSize) :=
        hwm'.trans (congrArg (m.writeBytes s.txStageBase) (hm.oldest (hs.pointers .outbound) hz))
      have hdata : wm'.readBytes s.txStageBase s.cfg.frameSize = wm.readBytes s.txStageBase s.cfg.frameSize := by
        rw [hframe, hwm, readBytes_written hm.memory hlen, readBytes_written hs.memory hlen]
      refine ⟨wm', by rw [h', hdata]; rfl, ?_, fun r => ?_, stagedFrame_congr rfl hdata⟩
      · exact inCompleteHandler_memory_wf hm.memory h'
      · cases r
        · exact (inCompleteHandler_inbound hs' h').trans ((hm.frames _).trans (inCompleteHandler_inbound hs h).symm)
        · exact (inCompleteHandler_outbound hs' h').trans
            ((congrArg (List.drop 1) (hm.frames _)).trans (inCompleteHandler_outbound hs h).symm)

/-- The registers after a delivery do not depend on memory (R142, R143). -/
theorem deliver_registers {data : Bytes} {s u u' : State} {m : Memory} (hs : Operating s) (h : deliver data s = .next u)
    (h' : deliver data { s with wm := m } = .next u') : u' = { u with wm := u'.wm } := by
  have hfs := frameSize_pos hs.config
  have hregs : u'.rbIn = u.rbIn :=
    (deliver_regs (s := { s with wm := m }) hfs (hs.pointers .inbound) h').trans
      (deliver_regs hfs (hs.pointers .inbound) h).symm
  have hpending : u'.rxPending = u.rxPending :=
    (deliver_pending (s := { s with wm := m }) hfs h').trans (deliver_pending hfs h).symm
  refine (deliver_frame h').trans ?_
  rw [hregs, hpending]
  exact congrArg (fun v : State => { v with wm := u'.wm }) (deliver_frame h).symm

theorem deliver_follows {data : Bytes} {s : State} {m : Memory} (hs : Operating s) (hm : StandsIn m s)
    (hle : data.length ≤ s.cfg.rxStagingSize) : Follows (deliver data s) (deliver data { s with wm := m }) := by
  intro u h
  have hs' := hm.operating hs
  obtain ⟨u', h', _⟩ := deliver_run hs'.config hs'.memory (hs'.pointers .inbound) hs'.layout hle
  have hu := deliver_registers hs h h'
  generalize u'.wm = m' at hu
  subst hu
  refine ⟨m', h', deliver_memory_wf h' hm.memory, fun r => ?_, ?_⟩
  · cases r
    · rw [deliver_inbound hs' hle h', deliver_inbound hs hle h, hm.frames]
    · rw [deliver_outbound hs' hle h', deliver_outbound hs hle h, hm.frames]
  · rw [deliver_staged hs' hle h', deliver_staged hs hle h, hm.staged]

/-- What a memory stands in for does not depend on `FLAGS`. -/
theorem StandsIn.withFlags {m : Memory} {u : State} (h : StandsIn m u) (v : BitVec 4) :
    StandsIn m { u with flags := v } :=
  ⟨h.memory, h.frames, h.staged⟩

/-- The end of OUT-complete does not read memory (R142). -/
theorem closeDelivery_withMemory (u : State) (m : Memory) :
    closeDelivery { u with wm := m } = { closeDelivery u with wm := m } := by
  have hflag : ∀ f, State.flag { u with wm := m } f = u.flag f := fun _ => rfl
  simp only [closeDelivery, hflag]
  split
  · split <;> rfl
  · rfl

theorem outCompleteHandler_follows {len : Nat} {s : State} {m : Memory} (hs : Operating s) (hm : StandsIn m s) :
    Follows (outCompleteHandler len s) (outCompleteHandler len { s with wm := m }) := by
  intro t h
  obtain ⟨hle, rfl, u, hu, rfl⟩ := outCompleteHandler_next.mp h
  obtain ⟨m', hu', hm'⟩ := deliver_follows hs hm hle u hu
  refine ⟨m', outCompleteHandler_next.mpr ⟨hle, rfl, _, hu', closeDelivery_withMemory u m'⟩, ?_⟩
  rw [closeDelivery_frame]
  exact hm'.withFlags _

theorem outNakHandler_follows {s : State} {m : Memory} (hs : Operating s) (hm : StandsIn m s) :
    Follows (outNakHandler s) (outNakHandler { s with wm := m }) := by
  intro t h
  rcases outNakHandler_next.mp h with ⟨hno, rfl⟩ | ⟨harm, hle, havail, u, hu, rfl⟩
  · exact ⟨m, outNakHandler_next.mpr (.inl ⟨hno, rfl⟩), hm⟩
  · have hs' : Operating (emitRdreq s) := { hs with }
    obtain ⟨m', hu', hm'⟩ := deliver_follows hs' ⟨hm.memory, hm.frames, hm.staged⟩ (havail ▸ hle) u hu
    exact ⟨m', outNakHandler_next.mpr (.inr ⟨harm, hle, havail, _, hu', rfl⟩), hm'.withFlags _⟩

/-! ### Initialisation -/

theorem returnRegion_withMemory (a4 b : Nat) (s : State) (m : Memory) :
    returnRegion a4 b { s with wm := m } = { returnRegion a4 b s with wm := m } := by
  simp only [returnRegion]
  split <;> rfl

/-- Initialisation reads no memory and leaves no frame held (R180). -/
theorem execXptInit_follows {s : State} {m : Memory} (hm : m.wf) :
    Follows (exec .xptInit s) (exec .xptInit { s with wm := m }) := by
  intro t h
  obtain ⟨hi, hA, hB, hsize, htop, rfl⟩ := execXptInit_next.mp h
  refine ⟨m, execXptInit_next.mpr ⟨hi, hA, hB, hsize, htop, returnRegion_withMemory _ _ (initialise _ s) m⟩, hm,
    fun r => ?_, ?_⟩
  · rw [returnRegion_frame]
    cases r <;> rfl
  · rw [returnRegion_frame]
    rfl

/-! ### The step by the stimulus that comes next (R203) -/

theorem step_nil {s : State} (hin : s.inputs = []) : step s = appTurn s := by
  simp only [step, hin]

theorem step_appTurn {s : State} {rest : List Stimulus} (hin : s.inputs = .appTurn :: rest) :
    step s = appTurn { s with inputs := rest } := by
  simp only [step, hin]

theorem step_held {s : State} {port : Port} {cw : Word} {ops : Operands} {rest : List Stimulus}
    (hin : s.inputs = .present port cw ops :: rest) (hheld : eventHeld port s = true) : step s = appPhase s := by
  simp only [step, hin, hheld, if_true]

theorem step_reject {s : State} {port : Port} {cw : Word} {ops : Operands} {rest : List Stimulus} {r : Refusal}
    (hin : s.inputs = .present port cw ops :: rest) (hheld : eventHeld port s = false)
    (hword : acceptWord port cw = .error r) : step s = .refused r := by
  simp only [step, hin, hheld, hword, Bool.false_eq_true, if_false]

theorem step_command {s : State} {port : Port} {cw : Word} {ops : Operands} {rest : List Stimulus} {i : Instr}
    (hin : s.inputs = .present port cw ops :: rest) (hheld : eventHeld port s = false)
    (hword : acceptWord port cw = .ok i) : step s = exec i { s with inputs := rest, opnd := ops } := by
  simp only [step, hin, hheld, hword, Bool.false_eq_true, if_false]
  rfl

/-! ### The step -/

/-- A command of the composed block runs in the same way on a memory that stands in. -/
theorem exec_follows {i : Instr} {s : State} {m : Memory} (hf : i.format ≠ .R) (hs : s.inited = true → Operating s)
    (hm : StandsIn m s) : Follows (exec i s) (exec i { s with wm := m }) := by
  intro t h
  have hstart : ∀ c f, s.inited = true → f.length = s.cfg.frameSize →
      Follows (startCommand c { s with app := { s.app with frame := f } })
        (startCommand c { s with wm := m, app := { s.app with frame := f } }) := fun c f hi hlen =>
    startCommand_follows c ((hs hi).issue hlen c) (hm.issue f c)
  cases i
  case appReadCount =>
    obtain ⟨hi, hc, h⟩ := execAppReadCount_next.mp h
    obtain ⟨_, hlen, _⟩ := (hs hi).app
    obtain ⟨m', h', hm'⟩ := hstart .readCount _ hi hlen t h
    exact ⟨m', execAppReadCount_next.mpr ⟨hi, hc, h'⟩, hm'⟩
  case appRead =>
    obtain ⟨hi, hc, h⟩ := execAppRead_next.mp h
    obtain ⟨_, hlen, _⟩ := (hs hi).app
    obtain ⟨m', h', hm'⟩ := hstart .read _ hi hlen t h
    exact ⟨m', execAppRead_next.mpr ⟨hi, hc, h'⟩, hm'⟩
  case appWrite =>
    obtain ⟨hi, hc, hlen, h⟩ := execAppWrite_next.mp h
    obtain ⟨m', h', hm'⟩ := hstart .write _ hi hlen t h
    exact ⟨m', execAppWrite_next.mpr ⟨hi, hc, hlen, h'⟩, hm'⟩
  case appFlush =>
    obtain ⟨hi, hc, h⟩ := execAppFlush_next.mp h
    obtain ⟨_, hlen, _⟩ := (hs hi).app
    obtain ⟨m', h', hm'⟩ := hstart .flush _ hi hlen t h
    exact ⟨m', execAppFlush_next.mpr ⟨hi, hc, h'⟩, hm'⟩
  case evtInComplete =>
    obtain ⟨hi, h⟩ := execEvtInComplete_next.mp h
    obtain ⟨m', h', hm'⟩ := inCompleteHandler_follows (hs hi) hm t h
    exact ⟨m', execEvtInComplete_next.mpr ⟨hi, h'⟩, hm'⟩
  case evtOutComplete len =>
    obtain ⟨hi, h⟩ := execEvtOutComplete_next.mp h
    obtain ⟨m', h', hm'⟩ := outCompleteHandler_follows (hs hi) hm t h
    exact ⟨m', execEvtOutComplete_next.mpr ⟨hi, h'⟩, hm'⟩
  case evtOutNak =>
    obtain ⟨hi, h⟩ := execEvtOutNak_next.mp h
    obtain ⟨m', h', hm'⟩ := outNakHandler_follows (hs hi) hm t h
    exact ⟨m', execEvtOutNak_next.mpr ⟨hi, h'⟩, hm'⟩
  case xptInit => exact execXptInit_follows hm.memory t h
  all_goals exact absurd rfl hf

/-- The application's turn runs in the same way on a memory that stands in (R203 b). -/
theorem appTurn_follows {s : State} {m : Memory} (hs : s.inited = true → Operating s) (hm : StandsIn m s) :
    Follows (appTurn s) (appTurn { s with wm := m }) := by
  simp only [appTurn]
  split
  · rename_i hturn
    obtain ⟨hi, _⟩ := Bool.and_eq_true_iff.mp hturn
    exact appPhase_follows (hs hi) hm
  · intro t h
    cases h
    exact ⟨m, rfl, hm⟩

/-- Every step of the composed block runs in the same way on a memory that stands in. -/
theorem step_follows {s : State} {m : Memory} (hb : noTestBench s = true) (hs : s.inited = true → Operating s)
    (hm : StandsIn m s) : Follows (step s) (step { s with wm := m }) := by
  have hsched : ∀ rest ops, StandsIn m { s with inputs := rest, opnd := ops } := fun _ _ =>
    ⟨hm.memory, hm.frames, hm.staged⟩
  have hop : ∀ rest ops, s.inited = true → Operating { s with inputs := rest, opnd := ops } := fun _ _ hi =>
    { hs hi with }
  obtain ⟨stims, hin⟩ : ∃ stims, s.inputs = stims := ⟨_, rfl⟩
  cases stims with
  | nil =>
    rw [step_nil hin, step_nil (s := { s with wm := m }) hin]
    exact appTurn_follows hs hm
  | cons stim rest =>
    cases stim with
    | appTurn =>
      rw [step_appTurn hin, step_appTurn (s := { s with wm := m }) hin]
      exact appTurn_follows (hop rest s.opnd) (hsched rest s.opnd)
    | present port cw ops =>
      cases hheld : eventHeld port s with
      | true =>
        rw [step_held hin hheld, step_held (s := { s with wm := m }) hin hheld]
        simp only [eventHeld, Bool.and_eq_true] at hheld
        obtain ⟨⟨_, hi⟩, _⟩ := hheld
        exact appPhase_follows (hs hi) hm
      | false =>
        cases hword : acceptWord port cw with
        | error r =>
          rw [step_reject hin hheld hword]
          intro t h
          cases h
        | ok i =>
          have hi : nextAction s = .command i := by simp [nextAction, hin, hheld, hword]
          rw [step_command hin hheld hword, step_command (s := { s with wm := m }) hin hheld hword]
          exact exec_follows (noTestBench_format hb hi) (hop rest ops) (hsched rest ops)

/-- Settles O52: every read of memory in a safe step is of a frame held, of a staged frame or of bytes just delivered. -/
theorem unwrittenMemoryIsNeverSeen : Obligations.UnwrittenMemoryIsNeverSeen := by
  rintro s s' t hok hm halike ⟨_, hbench, h⟩
  obtain ⟨m', h', hm'⟩ := step_follows hbench hok.operating (halike.standsIn hm) t h
  obtain ⟨hs', _, _⟩ := halike
  rw [← hs'] at h'
  exact ⟨_, h', hm'.alike⟩

end Sys2Proof.Machine

/-!
PROOFS. The encoding (30_encoding.md R90 to R104): a word is its fields, the decoder is the inverse of the encoder, and a
row of the opcode map selects exactly the words that decode to its command.
-/

namespace Sys2Proof

/-! ### A word and its fields (R91) -/

/-- The encoder's layout read field by field. -/
theorem packWord_eq_iff {c o : BitVec 4} {r : BitVec 1} {l : BitVec 16} {cw : Word} :
    packWord c o r l = cw ↔
      clsField cw = c ∧ opField cw = o ∧ zField cw = 0#7 ∧ ringField cw = r ∧ lenField cw = l := by
  constructor
  · rintro rfl
    simp
  · rintro ⟨rfl, rfl, hz, rfl, rfl⟩
    exact (eq_packWord cw hz).symm

@[simp] theorem bitOfRing_ringOfBit (b : BitVec 1) : bitOfRing (ringOfBit b) = b := by
  revert b
  decide

/-- The decoder compares a field as a number; the encoder writes it as bits. -/
theorem eq_ofNat_of_toNat {w k : Nat} {x : BitVec w} (h : x.toNat = k) : x = BitVec.ofNat w k := by
  rw [← h, BitVec.ofNat_toNat, BitVec.setWidth_eq]

/-! ### Decoding a command's own word (R93 to R96) -/

theorem decode_encode {i : Instr} (h : i.wellFormed = true) : decode (encode i) = .ok i := by
  cases i with
  | rbInit | rbInsert | rbPop | rbCount | rbFlush => simp [encode, decode, decodeR]
  | appReadCount | appRead | appWrite | appFlush => simp [encode, decode, decodeA]
  | evtInComplete | evtOutNak => simp [encode, decode, decodeE]
  | evtOutComplete len =>
    have hlen : len < 65536 := of_decide_eq_true h
    simpa [encode, decode, decodeE] using hlen
  | xptInit => simp [encode, decode, decodeI]

/-- Settles O1: the decoder reads the fields that the encoder packed, and four bytes spell the word they came from. -/
theorem everyCommandDecodesFromItsOwnWord : Obligations.EveryCommandDecodesFromItsOwnWord := fun i h =>
  ⟨decode_encode h, (decodeBytes_wordBytes (encode i)).trans (decode_encode h)⟩

/-! ### The word of a decoded command, format by format (R93 to R96) -/

section
variable {cw : Word} {i : Instr}

theorem encode_of_decodeR (hz : zField cw = 0#7) (hc : clsField cw = 1#4) (h : decodeR cw = .ok i) :
    encode i = cw ∧ i.wellFormed = true := by
  unfold decodeR at h
  split at h
  · cases h
  · rename_i hlen
    split at h <;> cases h
    all_goals exact ⟨packWord_eq_iff.mpr ⟨hc, eq_ofNat_of_toNat (by assumption), hz, (bitOfRing_ringOfBit _).symm,
      not_not.mp hlen⟩, rfl⟩

theorem encode_of_decodeA (hz : zField cw = 0#7) (hc : clsField cw = 2#4) (h : decodeA cw = .ok i) :
    encode i = cw ∧ i.wellFormed = true := by
  unfold decodeA at h
  split_ifs at h with hring hlen
  split at h <;> cases h
  all_goals exact ⟨packWord_eq_iff.mpr ⟨hc, eq_ofNat_of_toNat (by assumption), hz, not_not.mp hring,
    not_not.mp hlen⟩, rfl⟩

theorem encode_of_decodeE (hz : zField cw = 0#7) (hc : clsField cw = 3#4) (h : decodeE cw = .ok i) :
    encode i = cw ∧ i.wellFormed = true := by
  unfold decodeE at h
  split at h
  · cases h
  · rename_i hring
    replace hring := not_not.mp hring
    split at h
    · rename_i hop
      split_ifs at h with hlen
      cases h
      exact ⟨packWord_eq_iff.mpr ⟨hc, eq_ofNat_of_toNat hop, hz, hring, not_not.mp hlen⟩, rfl⟩
    · rename_i hop
      cases h
      exact ⟨packWord_eq_iff.mpr ⟨hc, eq_ofNat_of_toNat hop, hz, hring, by simp⟩, decide_eq_true (lenField cw).isLt⟩
    · rename_i hop
      split_ifs at h with hlen
      cases h
      exact ⟨packWord_eq_iff.mpr ⟨hc, eq_ofNat_of_toNat hop, hz, hring, not_not.mp hlen⟩, rfl⟩
    · cases h

theorem encode_of_decodeI (hz : zField cw = 0#7) (hc : clsField cw = 4#4) (h : decodeI cw = .ok i) :
    encode i = cw ∧ i.wellFormed = true := by
  unfold decodeI at h
  split_ifs at h with hring hlen
  split at h <;> cases h
  exact ⟨packWord_eq_iff.mpr ⟨hc, eq_ofNat_of_toNat (by assumption), hz, not_not.mp hring, not_not.mp hlen⟩, rfl⟩

theorem encode_of_decode (h : decode cw = .ok i) : encode i = cw ∧ i.wellFormed = true := by
  unfold decode at h
  split_ifs at h with hz
  replace hz := not_not.mp hz
  split at h
  · exact encode_of_decodeR hz (eq_ofNat_of_toNat (by assumption)) h
  · exact encode_of_decodeA hz (eq_ofNat_of_toNat (by assumption)) h
  · exact encode_of_decodeE hz (eq_ofNat_of_toNat (by assumption)) h
  · exact encode_of_decodeI hz (eq_ofNat_of_toNat (by assumption)) h
  · cases h

end

/-- Settles O2: each format's decoder fixes every field of the word, and the encoder packs those fields again. -/
theorem aDecodedWordIsItsCommandsOnlyWord : Obligations.ADecodedWordIsItsCommandsOnlyWord := fun _ _ =>
  encode_of_decode

/-! ### The opcode map (R99) -/

/-- A row whose value has only a class and an operation selects by mask and match in each field. -/
theorem OpcodeRow.selects_iff {name : String} {c o : BitVec 4} {mask cw : Word} :
    OpcodeRow.selects ⟨name, packWord c o 0#1 0#16, mask⟩ cw = true ↔
      clsField cw &&& clsField mask = c ∧ opField cw &&& opField mask = o ∧ zField cw &&& zField mask = 0#7 ∧
        ringField cw &&& ringField mask = 0#1 ∧ lenField cw &&& lenField mask = 0#16 := by
  rw [OpcodeRow.selects, beq_iff_eq, eq_comm, packWord_eq_iff]
  simp only [clsField, opField, zField, ringField, lenField, BitVec.extractLsb'_and]

/-- The rows without operands: one word each. -/
theorem OpcodeRow.selects_exact_iff {name : String} {c o : BitVec 4} {cw : Word} :
    OpcodeRow.selects ⟨name, packWord c o 0#1 0#16, 0xFFFFFFFF#32⟩ cw = true ↔ packWord c o 0#1 0#16 = cw := by
  rw [OpcodeRow.selects, beq_iff_eq, eq_comm]
  change _ = cw &&& BitVec.allOnes 32 ↔ _
  rw [BitVec.and_allOnes]

/-- The R-format rows leave the ring bit free. -/
theorem OpcodeRow.selects_ring_iff {name : String} {c o : BitVec 4} {cw : Word} :
    OpcodeRow.selects ⟨name, packWord c o 0#1 0#16, 0xFFFEFFFF#32⟩ cw = true ↔
      packWord c o (bitOfRing (ringOfBit (ringField cw))) 0#16 = cw := by
  have hc : clsField 0xFFFEFFFF#32 = BitVec.allOnes 4 := by decide
  have ho : opField 0xFFFEFFFF#32 = BitVec.allOnes 4 := by decide
  have hz : zField 0xFFFEFFFF#32 = BitVec.allOnes 7 := by decide
  have hr : ringField 0xFFFEFFFF#32 = 0#1 := by decide
  have hl : lenField 0xFFFEFFFF#32 = BitVec.allOnes 16 := by decide
  simp only [OpcodeRow.selects_iff, packWord_eq_iff, hc, ho, hz, hr, hl, BitVec.and_allOnes, BitVec.and_zero,
    bitOfRing_ringOfBit]

/-- The row of `EVT.OUT_COMPLETE` leaves the byte count free. -/
theorem OpcodeRow.selects_len_iff {name : String} {c o : BitVec 4} {cw : Word} :
    OpcodeRow.selects ⟨name, packWord c o 0#1 0#16, 0xFFFF0000#32⟩ cw = true ↔
      packWord c o 0#1 (BitVec.ofNat 16 (lenField cw).toNat) = cw := by
  have hc : clsField 0xFFFF0000#32 = BitVec.allOnes 4 := by decide
  have ho : opField 0xFFFF0000#32 = BitVec.allOnes 4 := by decide
  have hz : zField 0xFFFF0000#32 = BitVec.allOnes 7 := by decide
  have hr : ringField 0xFFFF0000#32 = BitVec.allOnes 1 := by decide
  have hl : lenField 0xFFFF0000#32 = 0#16 := by decide
  simp only [OpcodeRow.selects_iff, packWord_eq_iff, hc, ho, hz, hr, hl, BitVec.and_allOnes, BitVec.and_zero,
    BitVec.ofNat_toNat, BitVec.setWidth_eq]

/-- A word that a row selects decodes to that row's command. -/
theorem OpcodeRow.selects_sound {row : OpcodeRow} {cw : Word} (hrow : row ∈ opcodeMap) (h : row.selects cw = true) :
    ∃ i, decode cw = .ok i ∧ i.mnemonic = row.mnemonic := by
  suffices ∃ i : Instr, encode i = cw ∧ i.wellFormed = true ∧ i.mnemonic = row.mnemonic by
    obtain ⟨i, rfl, hwf, hname⟩ := this
    exact ⟨i, decode_encode hwf, hname⟩
  simp only [opcodeMap, List.mem_cons, List.not_mem_nil, or_false] at hrow
  rcases hrow with rfl | rfl | rfl | rfl | rfl | rfl | rfl | rfl | rfl | rfl | rfl | rfl | rfl
  · exact ⟨.rbInit _, OpcodeRow.selects_ring_iff.mp h, rfl, rfl⟩
  · exact ⟨.rbInsert _, OpcodeRow.selects_ring_iff.mp h, rfl, rfl⟩
  · exact ⟨.rbPop _, OpcodeRow.selects_ring_iff.mp h, rfl, rfl⟩
  · exact ⟨.rbCount _, OpcodeRow.selects_ring_iff.mp h, rfl, rfl⟩
  · exact ⟨.rbFlush _, OpcodeRow.selects_ring_iff.mp h, rfl, rfl⟩
  · exact ⟨.appReadCount, OpcodeRow.selects_exact_iff.mp h, rfl, rfl⟩
  · exact ⟨.appRead, OpcodeRow.selects_exact_iff.mp h, rfl, rfl⟩
  · exact ⟨.appWrite, OpcodeRow.selects_exact_iff.mp h, rfl, rfl⟩
  · exact ⟨.appFlush, OpcodeRow.selects_exact_iff.mp h, rfl, rfl⟩
  · exact ⟨.evtInComplete, OpcodeRow.selects_exact_iff.mp h, rfl, rfl⟩
  · exact ⟨.evtOutComplete (lenField cw).toNat, OpcodeRow.selects_len_iff.mp h, decide_eq_true (lenField cw).isLt, rfl⟩
  · exact ⟨.evtOutNak, OpcodeRow.selects_exact_iff.mp h, rfl, rfl⟩
  · exact ⟨.xptInit, OpcodeRow.selects_exact_iff.mp h, rfl, rfl⟩

/-- A command's word is selected by its own row. -/
theorem OpcodeRow.selects_encode (i : Instr) :
    ∀ row ∈ opcodeMap, row.mnemonic = i.mnemonic → row.selects (encode i) = true := by
  cases i with
  | rbInit r | rbInsert r | rbPop r | rbCount r | rbFlush r => cases r <;> decide
  | appReadCount | appRead | appWrite | appFlush | evtInComplete | evtOutNak | xptInit => decide
  | evtOutComplete len =>
    intro row hrow hname
    have honly : ∀ row ∈ opcodeMap, row.mnemonic = "EVT.OUT_COMPLETE" →
        row = ⟨"EVT.OUT_COMPLETE", packWord 3#4 1#4 0#1 0#16, 0xFFFF0000#32⟩ := by decide
    rw [honly row hrow hname, OpcodeRow.selects_len_iff, encode, lenField_packWord, BitVec.ofNat_toNat,
      BitVec.setWidth_eq]

/-- The rows that select a word that decodes are the rows of its command. -/
theorem OpcodeRow.selects_iff_mnemonic {row : OpcodeRow} {cw : Word} {i : Instr} (hrow : row ∈ opcodeMap)
    (h : decode cw = .ok i) : row.selects cw = true ↔ row.mnemonic = i.mnemonic := by
  constructor
  · intro hsel
    obtain ⟨j, hj, hname⟩ := OpcodeRow.selects_sound hrow hsel
    rw [h] at hj
    cases hj
    exact hname.symm
  · intro hname
    rw [← (encode_of_decode h).1]
    exact OpcodeRow.selects_encode i row hrow hname

/-- Each command has one row in the map. -/
theorem mnemonic_of_filter_opcodeMap (i : Instr) :
    (opcodeMap.filter fun row => row.mnemonic = i.mnemonic).map (fun row => row.mnemonic) = [i.mnemonic] := by
  cases i <;> rfl

/-- Settles O3: on a word that decodes, the rows that select it are its command's, which is one; a row that selects an
illegal word would name a command it decodes to. -/
theorem everyWordIsOneCommandOrIllegal : Obligations.EveryWordIsOneCommandOrIllegal := by
  intro cw
  split
  · rename_i i h
    rw [← mnemonic_of_filter_opcodeMap i]
    refine congrArg _ (List.filter_congr fun row hrow => Bool.eq_iff_iff.mpr ?_)
    rw [decide_eq_true_iff]
    exact OpcodeRow.selects_iff_mnemonic hrow h
  · rename_i e h
    refine List.filter_eq_nil_iff.mpr fun row hrow hsel => ?_
    obtain ⟨i, hi, _⟩ := OpcodeRow.selects_sound hrow hsel
    rw [h] at hi
    cases hi

/-- Settles O4: the decoder computes its answer on each of the sample words. -/
theorem sampleWordsDecodeAsTabulated : Obligations.SampleWordsDecodeAsTabulated := by
  unfold Obligations.SampleWordsDecodeAsTabulated
  and_intros <;> rfl

end Sys2Proof

namespace Sys2Proof.Machine

/-! ### A word refused at its port (R100, R201) -/

theorem acceptWord_of_illegal {port : Port} {cw : Word} {e : DecodeError} (h : decode cw = .error e) :
    acceptWord port cw = .error (.illegal e) := by
  simp only [acceptWord, h]

theorem acceptWord_of_wrongPort {port : Port} {cw : Word} {i : Instr} (h : decode cw = .ok i) (hp : portOf i ≠ port) :
    acceptWord port cw = .error .wrongPort := by
  simp only [acceptWord, h, hp, if_false]

/-- No event is held back while commands are preemptible, before `XPT.INIT` or with no command in progress (R204). -/
theorem eventHeld_eq_false {port : Port} {s : State}
    (h : port = .event → s.inited = true → s.cfg.appPreemptible = false → s.app.cmd = .idle) :
    eventHeld port s = false := by
  rw [Bool.eq_false_iff]
  intro hheld
  simp only [eventHeld, Bool.and_eq_true, Bool.not_eq_true', decide_eq_true_eq] at hheld
  obtain ⟨⟨⟨hport, hpre⟩, hinit⟩, hcmd⟩ := hheld
  exact hcmd (h hport hinit hpre)

/-- Settles O6: the step ends in the refusal with which the port rejects the word. -/
theorem stepRefusesIllegalAndMisdirectedWords : Obligations.StepRefusesIllegalAndMisdirectedWords := by
  intro s port cw ops rest hin hfree
  have hheld := eventHeld_eq_false hfree
  exact ⟨fun _ he => step_reject hin hheld (acceptWord_of_illegal he),
    fun _ hi hp => step_reject hin hheld (acceptWord_of_wrongPort hi hp)⟩

end Sys2Proof.Machine

/-!
PROOFS. The ring primitives as commands at a ring port (40_ring_primitives.md R121 to R125): what each does to its ring, and
that it leaves everything else.
-/

namespace Sys2Proof.Machine

/-- New registers for ring `r` and a new return leave every other field. -/
theorem setRb_ringReturn_frame (s : State) (r : Ring) (q : RingRegs) (out : Response) :
    (s.setRb r q).ringReturn out =
      { s with rbIn := (s.setRb r q).rbIn, rbOut := (s.setRb r q).rbOut, ringOut := out } := by
  cases r <;> rfl

theorem setRb_ringReturn_rb_same (s : State) (r : Ring) (q : RingRegs) (out : Response) :
    ((s.setRb r q).ringReturn out).rb r = q := by
  rw [ringReturn_rb, setRb_rb_same]

theorem setRb_ringReturn_rb_other (s : State) (r : Ring) (q : RingRegs) (out : Response) (r' : Ring) (h : r' ≠ r) :
    ((s.setRb r q).ringReturn out).rb r' = s.rb r' := by
  rw [ringReturn_rb, setRb_rb_other s r r' q h]

/-- Settles O14: `initRing` writes the registers of ring `r` only. -/
theorem ringInitSetsTheRingRegisters : Obligations.RingInitSetsTheRingRegisters := fun _ _ hi haddr =>
  ⟨_, execRbInit_next.mpr ⟨hi, haddr, rfl⟩, setRb_ringReturn_rb_same _ _ _ _, setRb_ringReturn_rb_other _ _ _ _,
    setRb_ringReturn_frame _ _ _ _⟩

/-- Settles O15: the write covers the slot at `head`, and the registers are those of `regsAfterInsert`. -/
theorem insertWritesTheHeadSlotAndAdvances : Obligations.InsertWritesTheHeadSlotAndAdvances := by
  intro r s hi hm hlen hin
  refine ⟨_, execRbInsert_next.mpr ⟨hi, hlen, _, insertFrame_eq r _ s (hlen ▸ hin), rfl⟩,
    setRb_ringReturn_rb_same _ _ _ _, fun k hk => ?inside, fun a ha => ?outside, setRb_ringReturn_rb_other _ _ _ _, ?frame⟩
  case inside =>
    rw [ringReturn_wm, setRb_wm]
    exact Memory.read_writeBytes_inside _ _ _ _ hm hk
  case outside =>
    rw [ringReturn_wm, setRb_wm]
    exact Memory.read_writeBytes_outside _ _ _ _ (hlen ▸ ha)
  case frame => cases r <;> rfl

/-- Settles O16: an empty ring answers 0 unchanged, and otherwise `regsAfterPop` moves the registers of ring `r` only. -/
theorem popReturnsTheTailSlotOrZero : Obligations.PopReturnsTheTailSlotOrZero := fun r s hi =>
  ⟨fun hz => execRbPop_next.mpr ⟨hi, _, popFrame_empty r s hz, rfl⟩,
    fun hz hin => ⟨_, execRbPop_next.mpr ⟨hi, _, popFrame_eq r s hz hin, rfl⟩, setRb_ringReturn_rb_same _ _ _ _,
      setRb_ringReturn_rb_other _ _ _ _, setRb_ringReturn_frame _ _ _ _⟩⟩

/-- Settles O17: `RB.COUNT` reads `count` and writes its return only. -/
theorem countReturnsTheFramesHeld : Obligations.CountReturnsTheFramesHeld := fun _ _ hi =>
  execRbCount_next.mpr ⟨hi, rfl⟩

/-- Settles O18: `flushRing` writes the registers of ring `r` only. -/
theorem flushZeroesPointersAndCount : Obligations.FlushZeroesPointersAndCount := fun _ _ hi =>
  ⟨_, execRbFlush_next.mpr ⟨hi, rfl⟩, setRb_ringReturn_rb_same _ _ _ _, setRb_ringReturn_rb_other _ _ _ _,
    setRb_ringReturn_frame _ _ _ _⟩

end Sys2Proof.Machine

/-!
PROOFS. A ring as a bounded lossy queue (40_ring_primitives.md R127, R128): a simulation, operation by operation, and the
queue's own runs.
-/

namespace Sys2Proof.Machine

/-! ### The simulation -/

/-- A ring that a test bench can drive: pointers in order, storage inside a canonical memory, after initialisation. -/
structure RingReady (r : Ring) (s : State) : Prop where
  inited : s.inited = true
  config : s.cfg.wf
  memory : s.wm.wf
  pointers : (s.rb r).ok (capacity s.cfg r)
  storage : StorageInside s r

/-- A move of the ring's registers keeps the ring ready. -/
theorem RingReady.moved {r : Ring} {s u : State} (hs : RingReady r s) (hi : u.inited = s.inited) (hc : u.cfg = s.cfg)
    (hm : u.wm.wf) (hmove : RingMove (capacity s.cfg r) (s.rb r) (u.rb r)) : RingReady r u where
  inited := hi.trans hs.inited
  config := hc ▸ hs.config
  memory := hm
  pointers := hc ▸ hmove.ok (capacity_pos hs.config r) hs.pointers
  storage := by
    rw [StorageInside, hc, hmove.base]
    exact hs.storage

/-- A slot of a ready ring lies inside memory (R126). -/
theorem RingReady.slot {r : Ring} {s : State} (hs : RingReady r s) {i : Nat} (hi : i < capacity s.cfg r) :
    slotAddr s r i + s.cfg.frameSize ≤ 2 ^ s.cfg.addrW :=
  (slot_inside hi).trans hs.storage

/-- The state `u` after the operation `op` on ring `r` of `s` returns and holds what the queue does, and is ready for the
next. -/
structure Simulates (r : Ring) (s : State) (op : RingOp) (u : State) : Prop where
  ready : RingReady r u
  config : u.cfg = s.cfg
  output : u.ringOut.rdata = queueOut (contents s r) op
  frames : contents u r = queueAfter (capacity s.cfg r) (contents s r) op

@[simp] theorem latch_slotAddr (s : State) (ops : Operands) (r : Ring) (i : Nat) :
    slotAddr (s.latch ops) r i = slotAddr s r i := by
  simp [slotAddr]

/-- An insert joins the frame at the end, and the oldest leaves a full ring (R122, R128). -/
theorem RingReady.insert {r : Ring} {s : State} (hs : RingReady r s) {f : Bytes} (hf : f.length = s.cfg.frameSize) :
    ∃ u, ringOpExec r s (.insert f) = .next u ∧ Simulates r s (.insert f) u := by
  obtain ⟨hhead, _⟩ := hs.pointers
  have hin : slotAddr s r (s.rb r).head + f.length ≤ 2 ^ s.cfg.addrW := hf ▸ hs.slot hhead
  refine ⟨_, execRbInsert_next.mpr ⟨hs.inited, hf, _, insertFrame_eq r f _ hin, rfl⟩, ?_⟩
  exact {
    ready := hs.moved (by simp) (by simp) (by simpa using Memory.writeBytes_wf _ _ _ hs.memory)
      (by simpa using RingMove.insert)
    config := by simp
    output := rfl
    frames := (contents_same (by simp) (by simp) (by simp)).trans (contents_insert s r f hs.memory hs.pointers hf) }

/-- A pop takes the oldest frame, and nothing from an empty ring (R123). -/
theorem RingReady.pop {r : Ring} {s : State} (hs : RingReady r s) :
    ∃ u, ringOpExec r s .pop = .next u ∧ Simulates r s .pop u := by
  by_cases hz : (s.rb r).count = 0
  · refine ⟨_, execRbPop_next.mpr ⟨hs.inited, _, popFrame_empty r s hz, rfl⟩, ?_⟩
    exact {
      ready := hs.moved rfl rfl hs.memory .stay
      config := rfl
      output := by simp [queueOut, contents_of_empty hz]
      frames := (contents_same rfl rfl rfl).trans (contents_drop_of_empty hz) }
  · obtain ⟨_, htail, _⟩ := hs.pointers
    refine ⟨_, execRbPop_next.mpr ⟨hs.inited, _, popFrame_eq r s hz (hs.slot htail), rfl⟩, ?_⟩
    exact {
      ready := hs.moved (by simp) (by simp) (by simpa using hs.memory) (by simpa using RingMove.pop hz)
      config := by simp
      output := by rw [contents_eq_cons hs.pointers hz]; rfl
      frames := contents_of_pop hz (by simp) (by simp) (by simp) }

/-- A flush empties the ring (R125). -/
theorem RingReady.flush {r : Ring} {s : State} (hs : RingReady r s) :
    ∃ u, ringOpExec r s .flush = .next u ∧ Simulates r s .flush u := by
  refine ⟨_, execRbFlush_next.mpr ⟨hs.inited, rfl⟩, ?_⟩
  exact {
    ready := hs.moved (by simp [flushRing]) (by simp [flushRing]) (by simpa [flushRing] using hs.memory)
      (by simpa [flushRing] using RingMove.flush)
    config := by simp [flushRing]
    output := rfl
    frames := (contents_same rfl rfl rfl).trans (contents_flush s r) }

/-- Every operation of a test bench is simulated by the queue's. -/
theorem RingReady.simulates {r : Ring} {s : State} (hs : RingReady r s) (op : RingOp)
    (hf : ∀ f, op = .insert f → f.length = s.cfg.frameSize) :
    ∃ u, ringOpExec r s op = .next u ∧ Simulates r s op u := by
  cases op with
  | insert f => exact hs.insert (hf f rfl)
  | pop => exact hs.pop
  | flush => exact hs.flush

/-- Settles O19, by induction on the operations, the ring kept ready and its frames kept equal to the queue. -/
theorem ringActsAsALossyQueue : Obligations.RingActsAsALossyQueue := by
  intro r s ops hi hc hm hp hst hlen
  have hs : RingReady r s := ⟨hi, hc, hm, hp, hst⟩
  clear hi hc hm hp hst
  induction ops generalizing s with
  | nil => exact ⟨s, rfl, rfl⟩
  | cons op ops ih =>
    obtain ⟨u, hu, hsim⟩ := hs.simulates op (hlen op List.mem_cons_self)
    obtain ⟨t, ht, hcont⟩ := ih u
      (by rw [hsim.config]; exact fun op' hop' => hlen op' (List.mem_cons_of_mem _ hop')) hsim.ready
    rw [hsim.config, hsim.frames] at ht hcont
    refine ⟨t, ?_, hcont⟩
    simp only [ringRun, hu, ht, andThen_next, hsim.output, queueRun]

/-! ### Runs of the queue -/

/-- A run of two sequences is the run of the first and then of the second from what it left. -/
theorem queueRun_append (cap : Nat) (q : List Bytes) (ops ops' : List RingOp) :
    queueRun cap q (ops ++ ops') =
      ((queueRun cap q ops).1 ++ (queueRun cap (queueRun cap q ops).2 ops').1,
        (queueRun cap (queueRun cap q ops).2 ops').2) := by
  induction ops generalizing q with
  | nil => rfl
  | cons op ops ih => simp only [List.cons_append, queueRun, ih]

/-- Inserts that fit return nothing and join in order (R127). -/
theorem queueRun_inserts {cap : Nat} {q fs : List Bytes} (h : q.length + fs.length ≤ cap) :
    queueRun cap q (fs.map RingOp.insert) = (List.replicate fs.length none, q ++ fs) := by
  induction fs generalizing q with
  | nil => simp [queueRun]
  | cons f fs ih =>
    rw [List.length_cons] at h
    have hins : queueInsert cap q f = q ++ [f] := if_neg (by omega)
    have hrest := ih (q := q ++ [f]) (by simp only [List.length_append, List.length_singleton]; omega)
    simp only [List.map_cons, queueRun, queueAfter, queueOut, hins, hrest, List.length_cons, List.replicate_succ,
      List.append_assoc, List.singleton_append]

/-- As many pops as the queue holds frames return them in order and leave none (R127). -/
theorem queueRun_pops (cap : Nat) (q : List Bytes) :
    queueRun cap q (List.replicate q.length .pop) = (q.map some, []) := by
  induction q with
  | nil => rfl
  | cons f q ih => simp only [List.length_cons, List.replicate_succ, queueRun, queueAfter, queueOut, List.drop_one,
      List.tail_cons, ih, List.head?_cons, List.map_cons]

/-- Settles O20: the ring does what the queue does (O19), and the queue is long enough for every insert. -/
theorem framesWithinCapacityComeOutInOrder : Obligations.FramesWithinCapacityComeOutInOrder := by
  intro r s fs hi hc hm hp hz hst hle hlen
  have hops : ∀ op ∈ fs.map RingOp.insert ++ List.replicate fs.length RingOp.pop, ∀ f, op = .insert f →
      f.length = s.cfg.frameSize := by
    rintro _ hop f rfl
    exact hlen f (by simpa [List.mem_replicate] using hop)
  have hqueue : queueRun (capacity s.cfg r) [] (fs.map RingOp.insert ++ List.replicate fs.length RingOp.pop) =
      (List.replicate fs.length none ++ fs.map some, []) := by
    rw [queueRun_append, queueRun_inserts (by simpa using hle), List.nil_append, queueRun_pops]
  obtain ⟨t, ht, hcont⟩ := ringActsAsALossyQueue r s _ hi hc hm hp hst hops
  rw [contents_of_empty hz, hqueue] at ht hcont
  exact ⟨t, ht, by rw [← contents_length, hcont, List.length_nil]⟩

end Sys2Proof.Machine

/-!
PROOFS. The transmit path (42_application_interface.md R163, R166, 70_reset_and_hazards.md R240): the frames sent, staged and
queued, across each case of a step.
-/

namespace Sys2Proof.Machine

/-! ### The path -/

theorem sentFrames_append (l l' : List HwReq) : sentFrames (l ++ l') = sentFrames l ++ sentFrames l' := by
  induction l with
  | nil => rfl
  | cons q l ih => cases q <;> simp [sentFrames, ih]

@[simp] theorem sentFrames_append_write (l : List HwReq) (ep : Nat) (d : Bytes) :
    sentFrames (l ++ [.write ep d]) = sentFrames l ++ [d] := sentFrames_append _ _

@[simp] theorem sentFrames_append_rdreq (l : List HwReq) (ep max : Nat) :
    sentFrames (l ++ [.rdreq ep max]) = sentFrames l := by
  rw [sentFrames_append]
  exact List.append_nil _

/-- The path depends on the log, the staged frame and the outbound frames only. -/
theorem transmitPath_congr {s t : State} (hlog : sentFrames t.hwLog = sentFrames s.hwLog)
    (hstaged : stagedFrame t = stagedFrame s) (hcont : contents t .outbound = contents s .outbound) :
    transmitPath t = transmitPath s := by
  rw [transmitPath, hlog, hstaged, hcont, transmitPath]

/-! ### The phases -/

/-- The frame sent by the phase that the sequencer is at (R163). -/
def phaseSent (s : State) : List Bytes :=
  match s.app.cmd, s.app.phase with
  | .write, 5 => stagedFrame s
  | _, _ => []

/-- What the phase that the sequencer is at makes of the outbound queue, but for the pop into the TX staging buffer, which
keeps the frame on the path (R163, R164). -/
def phaseQueue (s : State) : List Bytes :=
  match s.app.cmd, s.app.phase with
  | .write, 1 => queueInsert s.cfg.outCapacity (contents s .outbound) s.app.frame
  | .flush, 2 => []
  | _, _ => contents s .outbound

theorem PhaseStep.sent {s t : State} (h : PhaseStep s t) : sentFrames t.hwLog = sentFrames s.hwLog ++ phaseSent s := by
  cases h with
  | writeIssue hc hp =>
    simp only [phaseSent, hc, hp]
    rw [stagedFrame_of_write hc (.inr hp)]
    exact sentFrames_append_write _ _ _
  | idle hc => simp only [phaseSent, hc, List.append_nil]
  | _ => simp [phaseSent, *, flushRing]

/-- A phase hands the staged frame on to the log and the oldest queued frame on to the staging buffer, or neither. -/
theorem phase_handsOn (s : State) :
    phaseSent s ++ phaseStaged s ++ phaseOutbound s = stagedFrame s ++ phaseQueue s := by
  unfold phaseSent phaseStaged phaseOutbound phaseQueue stagedFrame
  cases hc : s.app.cmd with
  | write =>
    match s.app.phase with
    | 3 => simpa using List.take_append_drop 1 (contents s .outbound)
    | 0 | 1 | 2 | 4 | 5 | n + 6 => simp
  | flush => by_cases hp : s.app.phase = 2 <;> simp [hp]
  | idle | readCount | read => simp

/-- Across a phase the path changes as the queue does (R163, R164). -/
theorem PhaseStep.transmitPath {s t : State} (h : PhaseStep s t) (hs : Operating s) :
    transmitPath t = sentFrames s.hwLog ++ stagedFrame s ++ phaseQueue s := by
  rw [Machine.transmitPath, h.sent, h.staged hs, h.outbound hs]
  simp only [List.append_assoc, ← phase_handsOn s]

/-- The outbound queue after a phase, as `outboundAfter` says it. -/
theorem outboundAfter_of_phase {s : State} (ha : nextAction s = .phase s.app.cmd s.app.phase) :
    outboundAfter s = phaseQueue s := by
  simp only [outboundAfter, ha, phaseQueue]
  split <;> simp_all

/-! ### Whole commands -/

/-- Past its first phase no command but `APP.FLUSH` adds or drops an outbound frame. -/
theorem phaseQueue_of_past_first {s : State} (hne : s.app.cmd ≠ .flush) (h : s.app.cmd = .idle ∨ 2 ≤ s.app.phase) :
    phaseQueue s = contents s .outbound := by
  have hfirst : s.app.cmd = .idle ∨ s.app.phase ≠ 1 := h.imp id (by omega)
  simp only [phaseQueue]
  split
  · simp_all
  · simp_all
  · rfl

/-- A command other than `APP.FLUSH` past its first phase, which left the path as `path`. -/
structure PastFirst (path : List Bytes) (s : State) : Prop where
  operating : Operating s
  cmd : s.app.cmd ≠ .flush
  phase : s.app.cmd = .idle ∨ 2 ≤ s.app.phase
  path_eq : transmitPath s = path

/-- The first phase of a command other than `APP.FLUSH`. -/
theorem PhaseStep.pastFirst {s t : State} (h : PhaseStep s t) (hs : Operating s) (hne : s.app.cmd ≠ .flush) :
    PastFirst (sentFrames s.hwLog ++ stagedFrame s ++ phaseQueue s) t where
  operating := h.operating hs
  cmd := by rcases h.cmd with hc | hc <;> simp [hc, hne]
  phase := h.past_first
  path_eq := h.transmitPath hs

/-- Its later phases leave the path. -/
theorem PastFirst.step {path : List Bytes} {s t : State} (hs : PastFirst path s) (h : PhaseStep s t) :
    PastFirst path t := by
  rw [← hs.path_eq, transmitPath, ← phaseQueue_of_past_first hs.cmd hs.phase]
  exact h.pastFirst hs.operating hs.cmd

/-- Every command but `APP.FLUSH`, run as a whole, changes the path as its first phase does (R204). -/
theorem runPhases_transmitPath {n : Nat} {s t : State} (hidle : s.app.cmd ≠ .idle) (hne : s.app.cmd ≠ .flush)
    (hs : Operating s) (h : runPhases (n + 1) s = .next t) :
    transmitPath t = sentFrames s.hwLog ++ stagedFrame s ++ phaseQueue s := by
  simp only [runPhases, hidle, if_false, andThen_eq_next] at h
  obtain ⟨u, hu, h⟩ := h
  have hlast := runPhases_keeps (PastFirst _) (fun _ _ => PastFirst.step) n u t ((appPhase_step hu).pastFirst hs hne) h
  exact hlast.path_eq

/-- `APP.FLUSH` run as a whole (R164, R204). -/
theorem runPhases_flush (s : State) : runPhases maxPhases (s.issue .flush) =
    .next ((flushRing .outbound ((flushRing .inbound (s.issue .flush)).toPhase 2)).appReturn Response.nothing) := rfl

/-- What the command `c` as a whole makes of the outbound queue (R163, R164). -/
def commandQueue (c : AppCmd) (s : State) : List Bytes :=
  match c with
  | .write => queueInsert s.cfg.outCapacity (contents s .outbound) s.app.frame
  | .flush => []
  | _ => contents s .outbound

/-- An issued command leaves the path until its phases run, and changes it as `commandQueue` says where they run at once
(R203 a, R204). -/
theorem startCommand_transmitPath {c : AppCmd} {s t : State} (hne : c ≠ .idle) (hidle : s.app.cmd = .idle)
    (hs : Operating (s.issue c)) (h : startCommand c s = .next t) :
    transmitPath t = sentFrames s.hwLog ++ stagedFrame s ++
      if s.cfg.appPreemptible then contents s .outbound else commandQueue c s := by
  have hstaged : stagedFrame (s.issue c) = stagedFrame s := by
    rw [stagedFrame_of_not (by simp), stagedFrame_of_not (by simp [hidle])]
  rcases startCommand_next h with ⟨hpre, rfl⟩ | ⟨hpre, h⟩
  · rw [if_pos hpre]
    exact transmitPath_congr rfl hstaged (contents_same rfl rfl rfl)
  · rw [hpre, ← hstaged]
    cases c with
    | idle => exact absurd rfl hne
    | flush =>
      rw [runPhases_flush] at h
      cases h
      exact (PhaseStep.flushOut rfl rfl).transmitPath ((PhaseStep.flushIn rfl rfl).operating hs)
    | readCount | read | write => exact runPhases_transmitPath (by simp) (by simp) hs h

/-! ### The events -/

/-- An IN-complete sends the oldest outbound frame, if there is one (R141, R145). -/
theorem inCompleteHandler_sent {s t : State} (hs : Operating s) (h : inCompleteHandler s = .next t) :
    sentFrames t.hwLog = sentFrames s.hwLog ++ (contents s .outbound).take 1 := by
  rcases inCompleteHandler_next h with ⟨hz, rfl⟩ | ⟨hz, _, _, _, rfl, rfl⟩
  · rw [contents_of_empty (r := .outbound) hz]
    exact (List.append_nil _).symm
  · rw [contents_eq_cons (hs.pointers .outbound) hz, sentFrames_append_write,
      readBytes_written hs.memory (Memory.readBytes_length _ _ _)]
    rfl

/-- An IN-complete outside the sending phases of `APP.WRITE` leaves the path: its frame joins those sent as it leaves the
queue (R141, R240). -/
theorem inCompleteHandler_transmitPath {s t : State} (hs : Operating s) (hns : ¬ sending s.app)
    (h : inCompleteHandler s = .next t) : transmitPath t = transmitPath s := by
  have happ : t.app = s.app := by rw [inCompleteHandler_frame h]
  have hnone {v : State} (hv : v.app = s.app) : stagedFrame v = [] :=
    stagedFrame_of_not (hv ▸ fun ⟨hc, hp⟩ => hns ⟨hc, .inr hp⟩)
  rw [transmitPath, transmitPath, inCompleteHandler_sent hs h, inCompleteHandler_outbound hs h, hnone happ, hnone rfl]
  simp only [List.append_nil, List.append_assoc, List.take_append_drop]

/-- A delivery leaves the path (R142, R144). -/
theorem deliver_transmitPath {data : Bytes} {s u : State} (hs : Operating s)
    (hle : data.length ≤ s.cfg.rxStagingSize) (h : deliver data s = .next u) : transmitPath u = transmitPath s :=
  transmitPath_congr (by rw [deliver_frame h]) (deliver_staged hs hle h) (deliver_outbound hs hle h)

theorem closeDelivery_transmitPath (u : State) : transmitPath (closeDelivery u) = transmitPath u := by
  rw [closeDelivery_frame]
  rfl

/-! ### The step -/

/-- Settles O49: an `APP.WRITE` or `APP.FLUSH` changes the queue as `outboundAfter` says, an IN-complete finds no frame staged
(ENV1, R42), and every other move hands frames on in order. -/
theorem transmitPathKeepsEveryFrameInOrder : Obligations.TransmitPathKeepsEveryFrameInOrder := by
  rintro s t hi hok ⟨henv, hbench, h⟩
  obtain ⟨rest, ⟨ha, rfl⟩ | ⟨ha, _, _, h⟩ | ⟨i, ha, h⟩⟩ := step_cases h
  · simp only [outboundAfter, ha]
    rfl
  · have hs : Operating { s with inputs := rest } := { hok.operating hi with }
    rw [outboundAfter_of_phase ha]
    exact (appPhase_step h).transmitPath hs
  · have hs : Operating { s with inputs := rest, opnd := nextOperands s } := { hok.operating hi with }
    obtain ⟨_, hlen, _⟩ := hs.app
    simp only [outboundAfter, ha]
    cases i
    case appReadCount =>
      obtain ⟨_, hidle, h⟩ := execAppReadCount_next.mp h
      rw [startCommand_transmitPath (by decide) hidle (hs.issue hlen .readCount) h]
      exact congrArg (sentFrames s.hwLog ++ stagedFrame s ++ ·) (ite_self _)
    case appRead =>
      obtain ⟨_, hidle, h⟩ := execAppRead_next.mp h
      rw [startCommand_transmitPath (by decide) hidle (hs.issue hlen .read) h]
      exact congrArg (sentFrames s.hwLog ++ stagedFrame s ++ ·) (ite_self _)
    case appWrite =>
      obtain ⟨_, hidle, hw, h⟩ := execAppWrite_next.mp h
      exact startCommand_transmitPath (by decide) (by exact hidle) (hs.issue hw .write) h
    case appFlush =>
      obtain ⟨_, hidle, h⟩ := execAppFlush_next.mp h
      exact startCommand_transmitPath (by decide) hidle (hs.issue hlen .flush) h
    case evtInComplete =>
      obtain ⟨_, h⟩ := execEvtInComplete_next.mp h
      obtain ⟨hns, _⟩ := hok.tx.outstanding hi (by simpa [env1, ha] using henv)
      exact (inCompleteHandler_transmitPath hs hns h :)
    case evtOutComplete len =>
      obtain ⟨_, h⟩ := execEvtOutComplete_next.mp h
      obtain ⟨hle, rfl, u, hu, rfl⟩ := outCompleteHandler_next.mp h
      rw [closeDelivery_transmitPath]
      exact (deliver_transmitPath hs hle hu :)
    case evtOutNak =>
      obtain ⟨_, h⟩ := execEvtOutNak_next.mp h
      rcases outNakHandler_next.mp h with ⟨hm, rfl⟩ | ⟨hm, hle, havail, u, hu, rfl⟩
      · rfl
      · have harmed : Operating (emitRdreq { s with inputs := rest, opnd := nextOperands s }) := { hs with }
        refine (deliver_transmitPath harmed (havail ▸ hle) hu :).trans ?_
        exact transmitPath_congr (sentFrames_append_rdreq _ _ _) rfl rfl
    case xptInit =>
      obtain ⟨hni, _⟩ := execXptInit_frame h
      exact absurd (hni.symm.trans hi) (by decide)
    all_goals exact absurd rfl (noTestBench_format hbench ha)

end Sys2Proof.Machine

/-!
PROOFS. The event handler (41_event_handler.md R141 to R149): what an IN-complete sends, what a delivery writes and inserts,
and how the receive flags move.
-/

namespace Sys2Proof.Machine

/-! ### IN-complete (R141) -/

/-- A flag cleared and set again is set, and the other flags are as they were (R70). -/
theorem set_after_clear (v : BitVec 4) (f : Flag) :
    v &&& ~~~(1#4 <<< flagBit f) ||| 1#4 <<< flagBit f = v ||| 1#4 <<< flagBit f := by
  refine flags_ext fun g => ?_
  by_cases h : g = f
  · rw [h, flagOf_set_same, flagOf_set_same]
  · rw [flagOf_set_other _ _ _ h, flagOf_set_other _ _ _ h, flagOf_clear_other _ _ _ h]

/-- Settles O21: an empty ring ends at the start state of the handler; otherwise the frame written to the TX staging buffer
is the one read back for the request. -/
theorem inCompleteSendsTheOldestFrameOrGoesIdle : Obligations.InCompleteSendsTheOldestFrameOrGoesIdle := by
  refine fun s hi => ⟨fun hz => ?idle, fun hz hm hslot hstage => ?send⟩
  case idle => exact ⟨_, execEvtInComplete_next.mpr ⟨hi, inCompleteHandler_empty s hz⟩, rfl, fun _ => rfl⟩
  case send =>
    have hlen := Memory.readBytes_length s.wm (slotAddr s .outbound s.rbOut.tail) s.cfg.frameSize
    obtain ⟨t, h⟩ := inCompleteHandler_send s hz hslot hstage
    refine ⟨t, execEvtInComplete_next.mpr ⟨hi, h⟩, ?_⟩
    rcases inCompleteHandler_next h with ⟨hz', _⟩ | ⟨_, _, _, _, rfl, rfl⟩
    · exact absurd hz' hz
    · refine ⟨readBytes_written hm hlen, fun a ha => ?outside, ?frame, Nat.sub_add_cancel⟩
      case outside => exact Memory.read_writeBytes_outside _ _ _ _ (by rwa [hlen])
      case frame =>
        have hflags : s.flags &&& ~~~(1#4 <<< flagBit .txBusy) ||| 1#4 <<< flagBit .txBusy = s.flags ||| 0b0010#4 :=
          set_after_clear s.flags .txBusy
        rw [readBytes_written hm hlen, ← hflags]
        rfl

/-! ### Consecutive IN-completes (R145) -/

/-- What keeps the transmit side running from one IN-complete to the next: canonical memory, the layout and the pointers of
the outbound ring, after initialisation. -/
structure TransmitReady (s : State) : Prop where
  inited : s.inited = true
  config : s.cfg.wf
  memory : s.wm.wf
  layout : LayoutOk s
  pointers : s.rbOut.ok s.cfg.outCapacity

theorem TransmitReady.inComplete {s t : State} (hs : TransmitReady s) (h : inCompleteHandler s = .next t) :
    TransmitReady t := by
  have hset := inCompleteHandler_keepsSetup h
  have ⟨hc, hkept⟩ := hset
  exact {
    inited := (hkept hs.inited).1
    config := hc ▸ hs.config
    memory := inCompleteHandler_memory_wf hs.memory h
    layout := hs.layout.congr hset hs.inited fun r => (inCompleteHandler_ringMove h r).base
    pointers := hc ▸ (inCompleteHandler_ringMove h .outbound).ok (capacity_pos hs.config .outbound) hs.pointers }

/-- The event took the oldest frame from the outbound queue of `s` and sent it. -/
structure Sends (s t : State) : Prop where
  count : t.rbOut.count + 1 = s.rbOut.count
  sent : sentFrames t.hwLog = sentFrames s.hwLog ++ (contents s .outbound).take 1
  queue : contents t .outbound = (contents s .outbound).drop 1
  log : t.hwLog.length = s.hwLog.length + 1
  busy : txState t = .busy

/-- An IN-complete with a frame queued sends it (R141, by O21). -/
theorem TransmitReady.sends {s : State} (hs : TransmitReady s) (hz : s.rbOut.count ≠ 0) :
    ∃ t, exec .evtInComplete s = .next t ∧ TransmitReady t ∧ Sends s t := by
  obtain ⟨_, htail, _⟩ := hs.pointers
  obtain ⟨_, htx, hin, hout⟩ := hs.layout
  have hsize : s.cfg.txStagingSize = s.cfg.frameSize := rfl
  have hslot : slotAddr s .outbound s.rbOut.tail + s.cfg.frameSize ≤ s.rbOut.base + ringBytes s.cfg .outbound :=
    slot_inside htail
  obtain ⟨t, h, _, hread, ht, _⟩ := (inCompleteSendsTheOldestFrameOrGoesIdle s hs.inited).2 hz hs.memory
    (by omega) (by omega)
  obtain ⟨_, hhandler⟩ := execEvtInComplete_next.mp h
  refine ⟨t, h, hs.inComplete hhandler, ?_⟩
  have hrb : t.rbOut = regsAfterPop s.cfg.outCapacity s.rbOut := by rw [ht]; rfl
  have hlog := congrArg State.hwLog ht
  have hcons := contents_eq_cons (s := s) (r := .outbound) hs.pointers hz
  refine {
    count := by rw [hrb]; exact Nat.succ_pred hz
    sent := ?sent
    queue := ?queue
    log := by rw [hlog]; simp
    busy := ?busy }
  case sent =>
    rw [hlog, hcons]
    exact sentFrames_append_write _ _ _
  case queue =>
    rw [← contents_of_pop (u := s.setRb .outbound t.rbOut) (r := .outbound) hz rfl hrb rfl]
    refine contents_congr (by rw [ht]; rfl) rfl (capacity_pos hs.config .outbound) fun a ha => hread a (.inr ?_)
    have := inStorage_true.mp ha
    simp only [setRb_rb_same, hrb, regsAfterPop_base] at this
    omega
  case busy =>
    have hflag : t.flag .txBusy = true := by rw [ht]; exact flagOf_set_same s.flags .txBusy
    rw [txState, if_pos hflag]

/-- With the outbound ring empty it leaves TX idle and sends nothing. -/
theorem TransmitReady.goesIdle {s : State} (hs : TransmitReady s) (hz : s.rbOut.count = 0) :
    ∃ u, exec .evtInComplete s = .next u ∧ txState u = .idle ∧ u.hwLog = s.hwLog :=
  ⟨_, execEvtInComplete_next.mpr ⟨hs.inited, inCompleteHandler_empty s hz⟩, by simp [inCompleteStart, txState], rfl⟩

/-- `n` IN-completes with as many frames queued send the oldest `n`, in order, one each; TX is busy after them, or with none
of them if it was busy before. -/
theorem TransmitReady.completions {n : Nat} {s : State} (hs : TransmitReady s) (hn : n ≤ s.rbOut.count) :
    ∃ t, completions n s = .next t ∧ TransmitReady t ∧
      sentFrames t.hwLog = sentFrames s.hwLog ++ (contents s .outbound).take n ∧
      contents t .outbound = (contents s .outbound).drop n ∧ t.hwLog.length = s.hwLog.length + n ∧
      (0 < n ∨ txState s = .busy → txState t = .busy) := by
  induction n generalizing s with
  | zero => exact ⟨s, rfl, hs, by simp, rfl, rfl, by simp⟩
  | succ n ih =>
    obtain ⟨t, h, ht, hsend⟩ := hs.sends (by omega)
    obtain ⟨u, hrun, hu, hsent, hqueue, hlog, hbusy⟩ := ih ht (by have := hsend.count; omega)
    refine ⟨u, by rw [Machine.completions, h, andThen_next, hrun], hu, ?_, ?_, ?_, fun _ => hbusy (.inr hsend.busy)⟩
    · rw [hsent, hsend.sent, hsend.queue, List.append_assoc, Nat.add_comm n 1, List.take_add]
    · rw [hqueue, hsend.queue, List.drop_drop, Nat.add_comm]
    · rw [hlog, hsend.log, Nat.add_right_comm, Nat.add_assoc]

/-- Settles O22, by induction on the number of events. -/
theorem consecutiveCompletionsDrainTheQueue : Obligations.ConsecutiveCompletionsDrainTheQueue := by
  intro s n hi hc hm hl hp
  have hs : TransmitReady s := ⟨hi, hc, hm, hl, hp⟩
  constructor
  · intro hn
    obtain ⟨t, hrun, _, hsent, hqueue, hlog, hbusy⟩ := hs.completions hn
    exact ⟨t, hrun, hsent, hqueue, hlog, fun h => hbusy (.inl h)⟩
  · intro hn
    obtain ⟨t, hrun, ht, _, hqueue, _⟩ := hs.completions hn.le
    have hz : t.rbOut.count = 0 := by
      rw [← rb_outbound, ← contents_length, hqueue, List.length_drop, contents_length, rb_outbound]
      omega
    obtain ⟨u, h, hidle, hlog⟩ := ht.goesIdle hz
    exact ⟨t, u, hrun, h, hidle, hlog⟩

/-! ### The bytes a delivery writes (R142, R143) -/

/-- The address `a` lies in none of the `n` slots of the inbound ring from `head` on. -/
def ApartFromHeadSlots (s : State) (n a : Nat) : Prop :=
  ∀ j, j < n → a < slotAddr s .inbound ((s.rbIn.head + j) % s.cfg.inCapacity) ∨
    slotAddr s .inbound ((s.rbIn.head + j) % s.cfg.inCapacity) + s.cfg.frameSize ≤ a

/-- An address below the ring's storage lies in no slot. -/
theorem ApartFromHeadSlots.of_lt {s : State} {n a : Nat} (h : a < s.rbIn.base) : ApartFromHeadSlots s n a :=
  fun _ _ => .inl (h.trans_le (Nat.le_add_right _ _))

/-- An insert at `head` leaves an address apart from the slots that follow. -/
theorem ApartFromHeadSlots.inserted {s u : State} {n a : Nat} (h : ApartFromHeadSlots s (n + 1) a) (hc : u.cfg = s.cfg)
    (hr : u.rbIn = regsAfterInsert s.cfg.inCapacity s.rbIn) : ApartFromHeadSlots u n a := by
  intro j hj
  have hnext := h (j + 1) (by omega)
  simp only [slotAddr, rb_inbound, hc, hr, regsAfterInsert_base, regsAfterInsert_head, incIndex, Nat.mod_add_mod] at hnext ⊢
  rwa [Nat.add_assoc, Nat.add_comm 1]

/-- The loop writes one slot from `head` on for each whole frame pending, and no other byte. -/
theorem extractLoop_read_apart {fuel i : Nat} {s t : State} {a : Nat} (h : extractLoop fuel i s = .next t)
    (hfs : 1 ≤ s.cfg.frameSize) (hhead : s.rbIn.head < s.cfg.inCapacity)
    (ha : ApartFromHeadSlots s (s.rxPending / s.cfg.frameSize) a) : t.wm.read a = s.wm.read a := by
  induction fuel generalizing i s with
  | zero => cases h; rfl
  | succ fuel ih =>
    simp only [extractLoop] at h
    split at h
    · rename_i hle
      simp only [andThen_eq_next, load_next] at h
      obtain ⟨f, ⟨_, hf⟩, u, hu, h⟩ := h
      obtain ⟨_, rfl⟩ := insertFrame_next.mp hu
      rw [Nat.div_eq_sub_div hfs hle] at ha
      have hslot := ha 0 (Nat.succ_pos _)
      rw [Nat.add_zero, Nat.mod_eq_of_lt hhead] at hslot
      refine (ih h hfs ?_ (ha.inserted rfl rfl)).trans ?_
      · exact (regsAfterInsert_head _ _).trans_lt (incIndex_lt (Nat.zero_lt_of_lt hhead))
      · exact Memory.read_writeBytes_outside _ _ _ _ (by rwa [← hf, Memory.readBytes_length])
    · cases h; rfl

/-- A delivery writes the delivered bytes and those slots, and no other byte. -/
theorem deliver_read_apart_slots {data : Bytes} {s t : State} {a : Nat} (h : deliver data s = .next t)
    (hfs : 1 ≤ s.cfg.frameSize) (hhead : s.rbIn.head < s.cfg.inCapacity)
    (hstage : a < s.rxStageBase ∨ s.rxStageBase + data.length ≤ a)
    (ha : ApartFromHeadSlots s (data.length / s.cfg.frameSize) a) : t.wm.read a = s.wm.read a := by
  obtain ⟨_, hloop, _⟩ := deliver_next h
  refine (extractLoop_read_apart hloop hfs hhead ha).trans ?_
  exact Memory.read_writeBytes_outside _ _ _ _ hstage

/-- Settles O25: an ignored OUT-NAK writes nothing, and both events that deliver end in flags only. -/
theorem deliveryWritesOnlyStagingAndHeadSlots : Obligations.DeliveryWritesOnlyStagingAndHeadSlots := by
  rintro s t _ n hc hhead (rfl | ⟨rfl, rfl⟩) h a hstage ha
  · obtain ⟨_, h⟩ := execEvtOutComplete_next.mp h
    obtain ⟨_, rfl, u, hu, rfl⟩ := outCompleteHandler_next.mp h
    rw [closeDelivery_wm]
    exact deliver_read_apart_slots hu (frameSize_pos hc) hhead hstage ha
  · obtain ⟨_, h⟩ := execEvtOutNak_next.mp h
    rcases outNakHandler_next.mp h with ⟨_, rfl⟩ | ⟨_, _, havail, u, hu, rfl⟩
    · rfl
    · rw [← havail] at hstage ha
      exact (deliver_read_apart_slots hu (frameSize_pos hc) hhead hstage ha :)

/-! ### A whole delivery (R142, R143, R146) -/

/-- What the delivery of `data` leads to from `s`. -/
structure Delivered (data : Bytes) (s t : State) : Prop where
  frames : contents t .inbound =
    queueInsertAll s.cfg.inCapacity (contents s .inbound) (framesOf s.cfg.frameSize data)
  regs : t.rbIn = regsAfterInserts s.cfg.inCapacity s.rbIn (data.length / s.cfg.frameSize)
  pending : t.rxPending = data.length % s.cfg.frameSize
  staged : t.wm.readBytes s.rxStageBase data.length = data
  outside : ∀ a, inSpan s.rxStageBase data.length a = false → inStorage s .inbound a = false →
    t.wm.read a = s.wm.read a
  frame : t = { s with rbIn := t.rbIn, wm := t.wm, rxPending := t.rxPending }

theorem Delivered.frame_flags {data : Bytes} {s t : State} (h : Delivered data s t) (v : BitVec 4) :
    { t with flags := v } = { s with rbIn := t.rbIn, wm := t.wm, rxPending := t.rxPending, flags := v } := by
  conv_lhs => rw [h.frame]

/-- The inserted slots stand above the RX staging buffer, so the delivered bytes stay there (R62). -/
theorem deliver_readBytes {data : Bytes} {s t : State} (hc : s.cfg.wf) (hm : s.wm.wf)
    (hhead : s.rbIn.head < s.cfg.inCapacity) (hbelow : s.rxStageBase + data.length ≤ s.rbIn.base)
    (h : deliver data s = .next t) : t.wm.readBytes s.rxStageBase data.length = data := by
  obtain ⟨_, hloop, _⟩ := deliver_next h
  calc t.wm.readBytes s.rxStageBase data.length
      = (s.wm.writeBytes s.rxStageBase data).readBytes s.rxStageBase data.length :=
        Memory.readBytes_congr fun k hk =>
          extractLoop_read_apart hloop (frameSize_pos hc) hhead (.of_lt (show s.rxStageBase + k < s.rbIn.base by omega))
    _ = data := Memory.readBytes_writeBytes_same _ _ _ hm

/-- Under the layout of R181 a delivery of no more than the staging buffer holds runs. -/
theorem deliver_delivered {data : Bytes} {s : State} (hc : s.cfg.wf) (hm : s.wm.wf) (hl : LayoutOk s)
    (ho : s.rbIn.ok s.cfg.inCapacity) (hd : data.length ≤ s.cfg.rxStagingSize) :
    ∃ t, deliver data s = .next t ∧ Delivered data s t := by
  obtain ⟨t, h, _, _, _, hframes, _, hpending, houtside, hframe⟩ := deliver_run hc hm ho hl hd
  have ⟨hhead, _⟩ := ho
  have ⟨hrx, htx, _⟩ := hl
  exact ⟨t, h, {
    frames := hframes
    regs := deliver_regs (frameSize_pos hc) ho h
    pending := hpending
    staged := deliver_readBytes hc hm hhead (by omega) h
    outside := houtside
    frame := hframe }⟩

/-- More than the RX staging buffer holds is refused (R142, R144). -/
theorem withDelivery_refused {s : State} {n : Nat} (h : s.cfg.rxStagingSize < n) (data : Bytes)
    (k : Bytes → Result State) : withDelivery s n data k = .refused .envProtocol := by
  simp only [withDelivery, h, if_true]

/-- The flags at the end of OUT-complete (R142). -/
theorem closeDelivery_flags (s : State) : (closeDelivery s).flags =
    if s.flag .rxBufferQueued then
      if 0 < s.rxPending then (s.flags &&& 0b0111#4) ||| 0b0100#4 else s.flags &&& 0b0111#4
    else s.flags := by
  simp only [closeDelivery]
  split
  · split <;> rfl
  · rfl

/-- Settles O23: a delivery, and then the flags. -/
theorem outCompleteSplitsTheTransferIntoFrames : Obligations.OutCompleteSplitsTheTransferIntoFrames := by
  refine fun len s hi => ⟨fun hlt => ?refused, fun hc hm hl ho hle hlen => ?delivered⟩
  case refused => exact (whenInited_eq _ hi).trans (withDelivery_refused hlt _ _)
  case delivered =>
    subst hlen
    obtain ⟨u, hu, hd⟩ := deliver_delivered hc hm hl ho hle
    refine ⟨closeDelivery u, execEvtOutComplete_next.mpr ⟨hi, outCompleteHandler_next.mpr ⟨hle, rfl, u, hu, rfl⟩⟩, ?_⟩
    have hp : (closeDelivery u).rxPending = u.rxPending := by rw [closeDelivery_frame]
    have hrb : (closeDelivery u).rbIn = u.rbIn := closeDelivery_rb u .inbound
    have hflags : u.flags = s.flags := by rw [hd.frame]
    rw [closeDelivery_contents, hrb, hp, closeDelivery_wm]
    refine ⟨hd.frames, hd.regs, hd.pending, ?flags, hd.staged, hd.outside, closeDelivery_deliver_frame hu⟩
    rw [closeDelivery_flags, State.flag, hflags, hd.pending]
    rfl

/-- Settles O24: either flag stops the handler; otherwise it delivers, after its request and before it sets its flag. -/
theorem outNakArmsOrDoesNothing : Obligations.OutNakArmsOrDoesNothing := by
  refine fun s hi => ⟨fun hset => ?ignored, fun hfull hqueued hlt => ?refused,
    fun hfull hqueued hc hm hl ho hle hlen => ?armed⟩
  case ignored =>
    have hno : mayArm s.flags = false := by
      rw [Bool.eq_false_iff, ne_eq, mayArm_iff]
      rintro ⟨hf, hq⟩
      simp [hf, hq] at hset
    exact execEvtOutNak_next.mpr ⟨hi, outNakHandler_next.mpr (.inl ⟨hno, rfl⟩)⟩
  case refused =>
    refine (whenInited_eq _ hi).trans ?_
    rw [outNakHandler, if_pos ((mayArm_iff s).mpr ⟨hfull, hqueued⟩), withDelivery_refused hlt]
  case armed =>
    have hmay := (mayArm_iff s).mpr ⟨hfull, hqueued⟩
    obtain ⟨u, hu, hd⟩ := deliver_delivered (s := emitRdreq s) hc hm hl ho (hlen ▸ hle)
    refine ⟨u.setFlag .rxBufferQueued,
      execEvtOutNak_next.mpr ⟨hi, outNakHandler_next.mpr (.inr ⟨hmay, hle, hlen, u, hu, rfl⟩)⟩, ?_⟩
    have hlog : (u.setFlag .rxBufferQueued).hwLog = s.hwLog ++ [.rdreq s.cfg.epOut s.cfg.rxStagingSize] := by
      rw [setFlag_hwLog, hd.frame]
      rfl
    have hflags : (u.setFlag .rxBufferQueued).flags = s.flags ||| 0b1000#4 := by
      rw [setFlag_flags, hd.frame]
      rfl
    rw [← hlen, hlog]
    exact ⟨rfl, hd.frames, hd.regs, hd.pending, hflags, hd.staged, hd.outside, hd.frame_flags _⟩

/-! ### The receive states (R149) -/

theorem rxState_armable {s : State} :
    rxState s = some .armable ↔ s.flag .rxBufferFull = false ∧ s.flag .rxBufferQueued = false := by
  simp only [rxState]; split <;> simp_all

theorem rxState_armed {s : State} :
    rxState s = some .armed ↔ s.flag .rxBufferFull = false ∧ s.flag .rxBufferQueued = true := by
  simp only [rxState]; split <;> simp_all

theorem rxState_full {s : State} :
    rxState s = some .full ↔ s.flag .rxBufferFull = true ∧ s.flag .rxBufferQueued = false := by
  simp only [rxState]; split <;> simp_all

/-- The receive state depends on the two receive flags only. -/
theorem rxState_congr {s t : State} (hf : t.flag .rxBufferFull = s.flag .rxBufferFull)
    (hq : t.flag .rxBufferQueued = s.flag .rxBufferQueued) : rxState t = rxState s := by
  simp only [rxState, hf, hq]

/-- OUT-NAK arms from ARMABLE (R144). -/
theorem evtOutNak_rxState_armable {s t : State} (h : exec .evtOutNak s = .next t) (hs : rxState s = some .armable) :
    rxState t = some .armed := by
  obtain ⟨_, h⟩ := execEvtOutNak_next.mp h
  have hmay := (mayArm_iff s).mpr (rxState_armable.mp hs)
  rcases outNakHandler_next.mp h with ⟨hno, _⟩ | ⟨_, _, _, u, hu, rfl⟩
  · exact absurd (hno.symm.trans hmay) (by decide)
  · obtain ⟨hfull, _⟩ := rxState_armable.mp hs
    have hu_full : u.flag .rxBufferFull = false := by rw [deliver_frame hu]; exact hfull
    exact rxState_armed.mpr (by simp [hu_full])

/-- OUT-NAK leaves every other receive state (R147). -/
theorem evtOutNak_rxState_other {s t : State} (h : exec .evtOutNak s = .next t) (hs : rxState s ≠ some .armable) :
    rxState t = rxState s := by
  obtain ⟨_, h⟩ := execEvtOutNak_next.mp h
  rcases outNakHandler_next.mp h with ⟨_, rfl⟩ | ⟨hmay, _⟩
  · rfl
  · exact absurd (rxState_armable.mpr ((mayArm_iff s).mp hmay)) hs

/-- OUT-complete ends ARMED, by whether bytes remain (R142, C2). -/
theorem evtOutComplete_rxState_armed {len : Nat} {s t : State} (hc : s.cfg.wf) (h : exec (.evtOutComplete len) s = .next t)
    (hs : rxState s = some .armed) : rxState t = if len % s.cfg.frameSize = 0 then some .armable else some .full := by
  obtain ⟨_, h⟩ := execEvtOutComplete_next.mp h
  obtain ⟨_, rfl, u, hu, rfl⟩ := outCompleteHandler_next.mp h
  obtain ⟨hfull, hqueued⟩ := rxState_armed.mp hs
  have hu_queued : u.flag .rxBufferQueued = true := by rw [deliver_frame hu]; exact hqueued
  have hu_full : u.flag .rxBufferFull = false := by rw [deliver_frame hu]; exact hfull
  have hpending := deliver_pending (frameSize_pos hc) hu
  split
  · rename_i hz
    exact rxState_armable.mpr (by simp [closeDelivery_flag, hu_queued, hu_full, hpending, hz])
  · rename_i hz
    exact rxState_full.mpr (by simp [closeDelivery_flag, hu_queued, hu_full, hpending, Nat.pos_of_ne_zero hz])

/-- OUT-complete with `rx_buffer_queued` clear changes no flag (R142). -/
theorem evtOutComplete_rxState_unqueued {len : Nat} {s t : State} (h : exec (.evtOutComplete len) s = .next t)
    (hs : s.flag .rxBufferQueued = false) : rxState t = rxState s := by
  obtain ⟨_, h⟩ := execEvtOutComplete_next.mp h
  obtain ⟨_, _, u, hu, rfl⟩ := outCompleteHandler_next.mp h
  have hflag : ∀ f, u.flag f = s.flag f := fun f => by rw [deliver_frame hu]; rfl
  exact rxState_congr (by simp [closeDelivery_flag, hflag, hs]) (by simp [closeDelivery_flag, hflag, hs])

/-- Settles O28: one lemma for each event and each group of states that it treats alike. -/
theorem receiveStateFollowsItsTransitions : Obligations.ReceiveStateFollowsItsTransitions := by
  refine fun s t hc => ⟨evtOutNak_rxState_armable, fun h hs => ?_, fun h hs => ?_,
    fun _ => evtOutComplete_rxState_armed hc, fun _ h hs => ?_, fun _ h hs => ?_, fun h => ?_⟩
  · exact (evtOutNak_rxState_other h (by simp [hs])).trans hs
  · exact (evtOutNak_rxState_other h (by simp [hs])).trans hs
  · obtain ⟨_, hqueued⟩ := rxState_armable.mp hs
    exact (evtOutComplete_rxState_unqueued h hqueued).trans hs
  · obtain ⟨_, hqueued⟩ := rxState_full.mp hs
    exact (evtOutComplete_rxState_unqueued h hqueued).trans hs
  · obtain ⟨_, h⟩ := execEvtInComplete_next.mp h
    exact rxState_congr (inCompleteHandler_flag h _ (by decide)) (inCompleteHandler_flag h _ (by decide))

end Sys2Proof.Machine

/-!
PROOFS. The application interface (42_application_interface.md R160 to R164): the issue of a command, its phases one by one,
their bounded completion, and the race of an IN-complete with the busy test of `APP.WRITE`.
-/

namespace Sys2Proof.Machine

/-! ### The issue (R160, R203 a) -/

/-- An A-format command is refused while another is in progress (R160). -/
theorem whenIdle_busy {s : State} (k : State → Result State) (hi : s.inited = true) (hc : s.app.cmd ≠ .idle) :
    whenIdle s k = .refused .appBusy :=
  (whenInited_eq _ hi).trans (if_neg hc)

/-- Where commands are preemptible the issue is all that an accepted command does at once (R203 a). -/
theorem startCommand_preemptible {s : State} (c : AppCmd) (h : s.cfg.appPreemptible = true) :
    startCommand c s = .next (s.issue c) :=
  if_pos h

/-- Settles O10: the four commands are accepted through `whenIdle`. -/
theorem applicationCommandWhileBusyIsRefused : Obligations.ApplicationCommandWhileBusyIsRefused := by
  intro i s hf hi hc
  cases i with
  | appReadCount | appRead | appWrite | appFlush =>
    simp only [exec, execAppReadCount, execAppRead, execAppWrite, execAppFlush, whenIdle_busy _ hi hc]
  | _ => cases hf

/-- Settles O29: an accepted command is issued and no more. -/
theorem issueLatchesTheCommand : Obligations.IssueLatchesTheCommand := fun _ hi hc hpre =>
  ⟨execAppReadCount_next.mpr ⟨hi, hc, startCommand_preemptible _ hpre⟩,
    execAppRead_next.mpr ⟨hi, hc, startCommand_preemptible _ hpre⟩,
    execAppFlush_next.mpr ⟨hi, hc, startCommand_preemptible _ hpre⟩,
    fun hlen => execAppWrite_next.mpr ⟨hi, hc, hlen, startCommand_preemptible _ hpre⟩⟩

/-! ### The phases one by one (R161 to R164) -/

/-- The phase relation is the phase function for every command but `APP.WRITE`, whatever the frame size (R203 b). -/
theorem PhaseStep.appPhase_eq_of_not_write {s t : State} (hne : s.app.cmd ≠ .write) (h : PhaseStep s t) :
    appPhase s = .next t := by
  cases h with
  | idle hc => simp only [appPhase, hc]
  | readEmpty hc hp hz =>
    simp only [appPhase, hc, hp, readPhase1, popFrame_empty .inbound s hz]
    rfl
  | readPop hc hp hz hin =>
    simp only [appPhase, hc, hp, readPhase1, popFrame_eq .inbound s hz hin]
    rfl
  | readCount hc hp | readClear hc hp | flushIn hc hp | flushOut hc hp =>
    simp only [appPhase, hc, hp]
    rfl
  | _ => contradiction

/-- Settles O30: each phase is a case of the phase relation. -/
theorem readCountAndFlushPhases : Obligations.ReadCountAndFlushPhases := by
  refine fun s => ⟨fun hc hp => ?count, fun hc hp => ?flushIn, fun hc hp => ?flushOut⟩
  case count => exact ⟨_, (PhaseStep.readCount hc hp).appPhase_eq_of_not_write (by simp [hc]), rfl, rfl⟩
  case flushIn => exact (PhaseStep.flushIn hc hp).appPhase_eq_of_not_write (by simp [hc])
  case flushOut => exact ⟨_, (PhaseStep.flushOut hc hp).appPhase_eq_of_not_write (by simp [hc]), rfl, rfl⟩

/-- Settles O31: the pop finds a frame or none, and the second phase clears the flag in either case. -/
theorem readPopsThenClearsTheFullFlag : Obligations.ReadPopsThenClearsTheFullFlag := by
  intro s hc
  have hne : s.app.cmd ≠ .write := by simp [hc]
  refine ⟨fun hp hz => ?empty, fun hp hz hin => ?pop, fun hp => ?clear⟩
  case empty => exact (PhaseStep.readEmpty hc hp hz).appPhase_eq_of_not_write hne
  case pop => exact (PhaseStep.readPop hc hp hz hin).appPhase_eq_of_not_write hne
  case clear => exact ⟨_, (PhaseStep.readClear hc hp).appPhase_eq_of_not_write hne, rfl, rfl⟩

/-- The test of `APP.WRITE` phase 2 fails on either flag (R163). -/
theorem mayStartTransfer_eq_false {s : State} :
    mayStartTransfer s.flags = false ↔ s.flag .txBusy = true ∨ s.flag .txConnected = false := by
  rw [Bool.eq_false_iff, ne_eq, mayStartTransfer_iff, not_and_or, Bool.not_eq_false, Bool.not_eq_true]

/-- Settles O32: each phase is a case of the phase relation; a frame written reads back, and other bytes are as before. -/
theorem writeRunsItsFivePhases : Obligations.WriteRunsItsFivePhases := by
  intro s hc hfs
  refine ⟨fun hp hm hlen hin => ?insert, fun hp hb hconn => ?start, fun hp hno => ?stay, fun hp hz => ?empty,
    fun hp hz hm hin hst => ?pop, fun hp => ?busy, fun hp hst => ?issue⟩
  case insert =>
    exact ⟨_, (PhaseStep.writeInsert hc hp (hlen ▸ hin)).appPhase_eq hfs, readBytes_written hm hlen,
      fun a ha => Memory.read_writeBytes_outside _ _ _ _ (hlen ▸ ha), rfl⟩
  case start => exact (PhaseStep.writeGo hc hp ((mayStartTransfer_iff s).mpr ⟨hb, hconn⟩)).appPhase_eq hfs
  case stay =>
    exact ⟨_, (PhaseStep.writeStay hc hp (mayStartTransfer_eq_false.mpr hno)).appPhase_eq hfs, rfl, rfl⟩
  case empty => exact ⟨_, (PhaseStep.writeEmpty hc hp hz).appPhase_eq hfs, rfl, rfl⟩
  case pop =>
    have hlen := Memory.readBytes_length s.wm (slotAddr s .outbound s.rbOut.tail) s.cfg.frameSize
    exact ⟨_, (PhaseStep.writePop hc hp hz (Nat.ne_of_gt hfs) hin hst).appPhase_eq hfs, readBytes_written hm hlen,
      fun a ha => Memory.read_writeBytes_outside _ _ _ _ (by rwa [hlen]), rfl⟩
  case busy => exact (PhaseStep.writeBusy hc hp).appPhase_eq hfs
  case issue => exact ⟨_, (PhaseStep.writeIssue hc hp hst).appPhase_eq hfs, rfl, rfl⟩

/-! ### Bounded completion (R160, R249) -/

/-- The last phase of a command (R161 to R164). -/
def lastPhase : AppCmd → Nat
  | .idle => 0
  | .readCount => 1
  | .read => 2
  | .write => 5
  | .flush => 2

/-- What the phases need in order to run: the pointers and the storage of both rings, the TX staging buffer inside memory, a
position that names a phase, and a frame to insert where `APP.WRITE` has not inserted it yet. -/
structure PhasesReady (s : State) : Prop where
  config : s.cfg.wf
  pointers : PointersOk s
  storage : ∀ r, StorageInside s r
  staging : s.txStageBase + s.cfg.frameSize ≤ 2 ^ s.cfg.addrW
  phase : s.app.cmd = .idle ∨ (1 ≤ s.app.phase ∧ s.app.phase ≤ lastPhase s.app.cmd)
  frame : (s.app.cmd = .idle ∨ 2 ≤ s.app.phase) ∨ s.app.frame.length = s.cfg.frameSize

/-- A phase step ends the command or leads to its next phase, which there is (R161 to R164). -/
theorem PhaseStep.next_phase {s t : State} (h : PhaseStep s t) : t.app.cmd = .idle ∨
    (t.app.cmd = s.app.cmd ∧ t.app.phase = s.app.phase + 1 ∧ t.app.phase ≤ lastPhase s.app.cmd) := by
  cases h with
  | idle hc => exact .inl hc
  | readEmpty hc hp | readPop hc hp | writeInsert hc hp | writeGo hc hp | writePop hc hp | writeBusy hc hp
  | flushIn hc hp => exact .inr (by simp [flushRing, lastPhase, hc, hp])
  | _ => exact .inl rfl

/-- Every phase keeps the phases ready. -/
theorem PhaseStep.phasesReady {s t : State} (h : PhaseStep s t) (hs : PhasesReady s) : PhasesReady t where
  config := h.cfg_eq ▸ hs.config
  pointers := hs.pointers.of_moves hs.config h.cfg_eq h.ringMove
  storage r := by
    rw [StorageInside, h.cfg_eq, (h.ringMove r).base]
    exact hs.storage r
  staging := by
    rw [h.frame]
    exact hs.staging
  phase := h.next_phase.imp_right fun ⟨hc, hp, hle⟩ => ⟨by omega, hc ▸ hle⟩
  frame := .inl h.past_first

/-- A slot lies inside memory (R126). -/
theorem PhasesReady.slot {s : State} (hs : PhasesReady s) {r : Ring} {i : Nat} (hi : i < capacity s.cfg r) :
    slotAddr s r i + s.cfg.frameSize ≤ 2 ^ s.cfg.addrW :=
  (slot_inside hi).trans (hs.storage r)

/-- No phase waits and none faults (R160). -/
theorem PhasesReady.runs {s : State} (hs : PhasesReady s) : ∃ t, PhaseStep s t := by
  obtain ⟨_, htailIn, _⟩ := hs.pointers .inbound
  obtain ⟨hhead, htailOut, _⟩ := hs.pointers .outbound
  obtain hidle | ⟨hfirst, hlast⟩ := hs.phase
  · exact ⟨_, .idle hidle⟩
  cases hc : s.app.cmd with
  | idle => exact ⟨_, .idle hc⟩
  | readCount =>
    have hp : s.app.phase = 1 := by rw [hc, lastPhase] at hlast; omega
    exact ⟨_, .readCount hc hp⟩
  | read =>
    obtain hp | hp : s.app.phase = 1 ∨ s.app.phase = 2 := by rw [hc, lastPhase] at hlast; omega
    · by_cases hz : s.rbIn.count = 0
      · exact ⟨_, .readEmpty hc hp hz⟩
      · exact ⟨_, .readPop hc hp hz (hs.slot htailIn)⟩
    · exact ⟨_, .readClear hc hp⟩
  | write =>
    obtain hp | hp | hp | hp | hp : s.app.phase = 1 ∨ s.app.phase = 2 ∨ s.app.phase = 3 ∨ s.app.phase = 4 ∨
        s.app.phase = 5 := by rw [hc, lastPhase] at hlast; omega
    · have hlen : s.app.frame.length = s.cfg.frameSize := hs.frame.resolve_left (by simp [hc, hp])
      exact ⟨_, .writeInsert hc hp (hlen ▸ hs.slot hhead)⟩
    · cases hm : mayStartTransfer s.flags with
      | true => exact ⟨_, .writeGo hc hp hm⟩
      | false => exact ⟨_, .writeStay hc hp hm⟩
    · by_cases hz : s.rbOut.count = 0
      · exact ⟨_, .writeEmpty hc hp hz⟩
      · exact ⟨_, .writePop hc hp hz (Nat.ne_of_gt (frameSize_pos hs.config)) (hs.slot htailOut) hs.staging⟩
    · exact ⟨_, .writeBusy hc hp⟩
    · exact ⟨_, .writeIssue hc hp hs.staging⟩
  | flush =>
    obtain hp | hp : s.app.phase = 1 ∨ s.app.phase = 2 := by rw [hc, lastPhase] at hlast; omega
    · exact ⟨_, .flushIn hc hp⟩
    · exact ⟨_, .flushOut hc hp⟩

/-- As many phases as are left end the command, by induction on their number. -/
theorem PhasesReady.completes {n : Nat} {s : State} (hs : PhasesReady s)
    (hn : s.app.cmd = .idle ∨ lastPhase s.app.cmd < s.app.phase + n) :
    ∃ t, runPhases n s = .next t ∧ t.app.cmd = .idle := by
  induction n generalizing s with
  | zero => exact ⟨s, rfl, hn.elim id fun hlt => hs.phase.resolve_right fun ⟨_, hle⟩ => Nat.not_lt_of_le hle hlt⟩
  | succ n ih =>
    by_cases hidle : s.app.cmd = .idle
    · exact ⟨s, if_pos hidle, hidle⟩
    · obtain ⟨u, hu⟩ := hs.runs
      have hleft : u.app.cmd = .idle ∨ lastPhase u.app.cmd < u.app.phase + n :=
        hu.next_phase.imp_right fun ⟨hc, hp, _⟩ => by
          have := hn.resolve_left hidle
          rw [hc, hp]
          omega
      obtain ⟨t, ht, htidle⟩ := ih (hu.phasesReady hs) hleft
      refine ⟨t, ?_, htidle⟩
      rw [runPhases, if_neg hidle, hu.appPhase_eq (frameSize_pos hs.config), andThen_next, ht]

/-- Settles O35: a command issued stands at phase 1, with as many phases left as its last one counts. -/
theorem applicationCommandCompletesInItsPhases : Obligations.ApplicationCommandCompletesInItsPhases := by
  intro s hcfg hr hi hin hout hst hlen hp
  have hcompletes {c : AppCmd} (hc : s.app.cmd = c) (hlast : 1 ≤ lastPhase c) :
      ∃ t, runPhases (lastPhase c) s = .next t ∧ t.app.cmd = .idle := by
    have hs : PhasesReady s := {
      config := hcfg
      pointers := ringsOk_iff.mp hr hi
      storage := fun | .inbound => hin | .outbound => hout
      staging := hst
      phase := .inr (by rw [hp, hc]; exact ⟨Nat.le_refl 1, hlast⟩)
      frame := .inr hlen }
    exact hs.completes (.inr (by rw [hp, hc]; omega))
  exact ⟨fun hc => hcompletes hc (by decide), fun hc => hcompletes hc (by decide), fun hc => hcompletes hc (by decide),
    fun hc => hcompletes hc (by decide)⟩

/-! ### An IN-complete at the busy test (R163) -/

/-- With `tx_busy` set the test of phase 2 ends the command, whatever the frame size (R163). -/
theorem appPhase_write_busy {s : State} (hc : s.app.cmd = .write) (hp : s.app.phase = 2) (hb : s.flag .txBusy = true) :
    appPhase s = .next { s with
      app := { s.app with cmd := .idle, t := false }
      appOut := ⟨some s.cfg.frameSize, none⟩ } := by
  simp only [appPhase, hc, hp, writePhase2, mayStartTransfer_eq_false.mpr (.inl hb)]
  rfl

/-- An IN-complete neither reads nor writes the sequencer and the application port's return (R141, R197). -/
theorem inCompleteHandler_withSequencer {s t : State} (a : AppSeq) (out : Response) (h : inCompleteHandler s = .next t) :
    inCompleteHandler { s with app := a, appOut := out } = .next { t with app := a, appOut := out } := by
  rcases inCompleteHandler_next h with ⟨hz, rfl⟩ | ⟨hz, hin, hst, _, rfl, rfl⟩
  · exact inCompleteHandler_empty { s with app := a, appOut := out } hz
  · obtain ⟨u, hu⟩ := inCompleteHandler_send { s with app := a, appOut := out } hz hin hst
    rcases inCompleteHandler_next hu with ⟨hz', _⟩ | ⟨_, _, _, _, rfl, rfl⟩
    · exact absurd hz' hz
    · exact hu

/-- An IN-complete with a frame queued leaves `tx_busy` set (R141). -/
theorem inCompleteHandler_busy {s t : State} (hz : s.rbOut.count ≠ 0) (h : inCompleteHandler s = .next t) :
    t.flag .txBusy = true := by
  rcases inCompleteHandler_next h with ⟨hz', _⟩ | ⟨_, _, _, _, _, rfl⟩
  · exact absurd hz' hz
  · exact flagOf_set_same _ _

/-- Settles O53: the event leaves `tx_busy` set as it finds it, so the test ends the command in either order, and the event
takes no notice of that. -/
theorem inCompleteAndTheBusyTestCommute : Obligations.InCompleteAndTheBusyTestCommute := by
  intro s hi hc hp hb hz hin hst
  obtain ⟨t, ht⟩ := inCompleteHandler_send s hz hin hst
  have happ : t.app = s.app := by rw [inCompleteHandler_frame ht]
  have hcfg : t.cfg = s.cfg := by rw [inCompleteHandler_frame ht]
  refine ⟨{ t with app := { s.app with cmd := .idle, t := false }, appOut := ⟨some s.cfg.frameSize, none⟩ },
    andThen_eq_next.mpr ⟨t, execEvtInComplete_next.mpr ⟨hi, ht⟩, ?eventFirst⟩,
    andThen_eq_next.mpr ⟨_, appPhase_write_busy hc hp hb, execEvtInComplete_next.mpr ⟨hi, ?testFirst⟩⟩⟩
  case eventFirst =>
    rw [← happ, ← hcfg]
    exact appPhase_write_busy (happ ▸ hc) (happ ▸ hp) (inCompleteHandler_busy hz ht)
  case testFirst => exact inCompleteHandler_withSequencer _ _ ht

end Sys2Proof.Machine

/-!
PROOFS. Initialisation (43_initialisation.md R180 to R184): what is refused before it and what it refuses itself; what it
leaves and returns.
-/

namespace Sys2Proof.Machine

/-! ### Refusals (R183, R184) -/

/-- A command accepted through `whenInited` is refused while `inited = 0` (R184). -/
theorem whenInited_refused {s : State} (k : State → Result State) (h : s.inited = false) :
    whenInited s k = .refused .notInited := by
  simp [whenInited, h]

/-- Settles O9: every other command is accepted through `whenInited`. -/
theorem uninitialisedBlockRefusesEveryOtherCommand : Obligations.UninitialisedBlockRefusesEveryOtherCommand := by
  intro i s hi hne
  cases i with
  | xptInit => exact absurd rfl hne
  | rbInit | rbInsert | rbPop | rbCount | rbFlush =>
    simp only [exec, execRbInit, execRbInsert, execRbPop, execRbCount, execRbFlush, whenInited_refused _ hi]
  | appReadCount | appRead | appWrite | appFlush =>
    simp only [exec, execAppReadCount, execAppRead, execAppWrite, execAppFlush, whenIdle, whenInited_refused _ hi]
  | evtInComplete | evtOutComplete | evtOutNak => exact whenInited_refused _ hi

/-- `XPT.INIT` runs once (R183 b). -/
theorem execXptInit_alreadyInited {s : State} (h : s.inited = true) : exec .xptInit s = .refused .alreadyInited :=
  if_pos h

/-- Carved regions that do not fit in the region given or pass the top of memory are refused (R183 a). -/
theorem execXptInit_noMemory {s : State} (hi : s.inited = false) (hA : s.opnd.opndA < 2 ^ s.cfg.addrW)
    (hB : s.opnd.opndB < 2 ^ s.cfg.addrW)
    (h : s.opnd.opndB < (carve s.cfg s.opnd.opndA).a4 - s.opnd.opndA ∨ 2 ^ s.cfg.addrW < (carve s.cfg s.opnd.opndA).a4) :
    exec .xptInit s = .refused .noMemory := by
  have hroom : noRoom s.cfg (carve s.cfg s.opnd.opndA) s.opnd.opndA s.opnd.opndB = true := by
    simpa only [noRoom, Bool.or_eq_true, decide_eq_true_eq] using h
  simp [exec, execXptInit, withRegionOperand, fitsAddr, hi, hA, hB, hroom]

/-- Settles O11: addresses that meet R181 are the carved ones, and `noRoom` is the test of R183 on their end. -/
theorem initialisationRefusedWithoutRoomOrTwice : Obligations.InitialisationRefusedWithoutRoomOrTwice := by
  intro s _
  refine ⟨execXptInit_alreadyInited, fun a0 a1 a2 a3 a4 hi hA hB h0 h1 h2 h3 h4 hno => ?_⟩
  have hcarve := carve_eq_of_alignedUp h0 h1 h2 h3 h4
  exact execXptInit_noMemory hi hA hB (by rwa [hcarve])

/-! ### Completion (R180, R181) -/

/-- `ret_a` has `ADDR_W` bits (R98), the free value of log 16 included. -/
theorem returnRegion_address_fits {a4 b ra rb : Nat} {s : State} (h : (returnRegion a4 b s).cfgOut = some (ra, rb)) :
    ra < 2 ^ s.cfg.addrW := by
  simp only [returnRegion, fitsAddr, decide_eq_true_eq] at h
  split at h <;> cases h
  case isTrue hfits => exact hfits
  case isFalse => exact Nat.mod_lt _ (Nat.two_pow_pos _)

/-- Settles O12: the step ends in `initialise` on the carved addresses, and `returnRegion` adds its return. -/
theorem initialisationLeavesTheInitialState : Obligations.InitialisationLeavesTheInitialState := by
  intro s a0 a1 a2 a3 a4 _ hi hA hB h0 h1 h2 h3 h4 hsize htop
  have hcarve := carve_eq_of_alignedUp h0 h1 h2 h3 h4
  have hexec := execXptInit_next.mpr ⟨hi, hA, hB, by rwa [hcarve], by rwa [hcarve], rfl⟩
  rw [hcarve] at hexec
  obtain ⟨ra, hout, hra⟩ := returnRegion_cfgOut a4 (s.opnd.opndB - (a4 - s.opnd.opndA))
    (initialise ⟨a0, a1, a2, a3, a4⟩ s)
  have hlt := returnRegion_address_fits hout
  have hframe := returnRegion_frame a4 (s.opnd.opndB - (a4 - s.opnd.opndA)) (initialise ⟨a0, a1, a2, a3, a4⟩ s)
  generalize returnRegion a4 _ _ = t at hexec hout hframe
  have happ : t.app = { s.app with cmd := .idle } := by rw [hframe]; rfl
  refine ⟨t, ra, hexec, by rw [happ], ?_, hlt, hra⟩
  rw [happ, ← hout]
  exact hframe

end Sys2Proof.Machine

/-!
PROOFS. The step by its stimulus (60_exceptions.md R203, R204): a presented command, the application's turn, and an event
held back while an indivisible command is in progress.
-/

namespace Sys2Proof.Machine

/-! ### The stimulus decides (R203) -/

theorem acceptWord_of_command {port : Port} {cw : Word} {i : Instr} (h : decode cw = .ok i) (hp : portOf i = port) :
    acceptWord port cw = .ok i := by
  simp only [acceptWord, h, hp, if_true]

/-- Settles O5: no event is held back, and the port accepts the word as its command. -/
theorem stepRunsThePresentedCommand : Obligations.StepRunsThePresentedCommand :=
  fun _ _ _ _ _ _ hin hdec hport hfree =>
    step_command hin (eventHeld_eq_false hfree) (acceptWord_of_command hdec hport)

theorem appTurn_of_open {s : State} (hi : s.inited = true) (hc : s.app.cmd ≠ .idle) : appTurn s = appPhase s :=
  if_pos (by simp [hi, hc])

theorem appTurn_of_idle {s : State} (hc : s.app.cmd = .idle) : appTurn s = .next s := if_neg (by simp [hc])

/-- Settles O7: with the turn taken off the schedule or no stimulus left, the step is the application's turn. -/
theorem applicationTurnRunsThePhaseInProgress : Obligations.ApplicationTurnRunsThePhaseInProgress := fun _ _ =>
  ⟨fun hin hi hc => (step_appTurn hin).trans (appTurn_of_open hi hc),
    fun hin hc => (step_appTurn hin).trans (appTurn_of_idle hc),
    fun hin hi hc => (step_nil hin).trans (appTurn_of_open hi hc),
    fun hin hc => (step_nil hin).trans (appTurn_of_idle hc)⟩

theorem eventHeld_eq_true {s : State} (hi : s.inited = true) (hpre : s.cfg.appPreemptible = false)
    (hc : s.app.cmd ≠ .idle) : eventHeld .event s = true := by
  simp [eventHeld, hi, hpre, hc]

/-- Settles O8: the event is held back, whatever its word. -/
theorem eventWaitsWhileCommandIsIndivisible : Obligations.EventWaitsWhileCommandIsIndivisible :=
  fun _ _ _ _ hin hi hpre hc => step_held hin (eventHeld_eq_true hi hpre hc)

end Sys2Proof.Machine

/-!
PROOFS. Events and the application sequencer (60_exceptions.md R197, R198): an event neither writes it nor reads it.
-/

namespace Sys2Proof.Machine

/-! ### Events do not write the sequencer -/

/-- What an event can change: the rings' registers, `FLAGS`, the pending count, memory and the log with its count of
transfers (R141, R142, R144). -/
theorem exec_event_frame {i : Instr} {s t : State} (hf : i.format = .E) (h : exec i s = .next t) :
    t = { s with
      rbIn := t.rbIn, rbOut := t.rbOut, flags := t.flags, rxPending := t.rxPending, wm := t.wm, hwLog := t.hwLog
      hwTxInflight := t.hwTxInflight } := by
  cases i with
  | evtInComplete =>
    obtain ⟨_, h⟩ := execEvtInComplete_next.mp h
    rw [inCompleteHandler_frame h]
  | evtOutComplete len =>
    obtain ⟨_, h⟩ := execEvtOutComplete_next.mp h
    obtain ⟨_, _, u, hu, rfl⟩ := outCompleteHandler_next.mp h
    rw [closeDelivery_deliver_frame hu]
  | evtOutNak =>
    obtain ⟨_, h⟩ := execEvtOutNak_next.mp h
    rcases outNakHandler_next.mp h with ⟨_, rfl⟩ | ⟨_, _, _, u, hu, rfl⟩
    · rfl
    · rw [deliver_frame hu]
      rfl
  | _ => cases hf

/-- Settles O26: none of these fields is among those that an event can change. -/
theorem eventsLeaveTheApplicationSequencer : Obligations.EventsLeaveTheApplicationSequencer := by
  intro i s t hf h
  rw [exec_event_frame hf h]
  exact ⟨rfl, rfl, rfl, rfl, rfl, rfl, rfl, rfl⟩

/-! ### Events do not read the sequencer -/

/-- The state with the sequencer `a`. -/
def State.withApp (a : AppSeq) (s : State) : State := { s with app := a }

/-- What an operation yields, changed by `g`; a fault or a refusal stays. -/
def mapNext {α β : Type} (g : α → β) (o : Result α) : Result β := andThen o fun x => .next (g x)

/-- Where the first part yields the same but for `g`, and the second carries `g` over to `g'`, so does the sequence. -/
theorem andThen_mapNext {α β : Type} {g : α → α} {g' : β → β} {k k' : α → Result β} {o o' : Result α}
    (ho : o' = mapNext g o) (hk : ∀ x, k' (g x) = mapNext g' (k x)) : andThen o' k' = mapNext g' (andThen o k) := by
  subst ho
  cases o with
  | next x => exact hk x
  | fault | refused => rfl

/-- A first part that does not know of `g` is passed over. -/
theorem andThen_eq_mapNext {α β : Type} {g : β → β} {k k' : α → Result β} {o : Result α}
    (hk : ∀ x, k' x = mapNext g (k x)) : andThen o k' = mapNext g (andThen o k) :=
  andThen_mapNext (g := id) (by cases o <;> rfl) hk

/-- A test that does not depend on `g` selects parts that differ by `g` only. -/
theorem ite_mapNext {α β : Type} {c : Prop} [Decidable c] {g : α → β} {o₁ o₂ : Result α} {o₁' o₂' : Result β}
    (h₁ : o₁' = mapNext g o₁) (h₂ : o₂' = mapNext g o₂) :
    (if c then o₁' else o₂') = mapNext g (if c then o₁ else o₂) := by
  split
  · exact h₁
  · exact h₂

theorem store_withApp (a : AppSeq) (x : Nat) (v : Bytes) (s : State) :
    store x v (s.withApp a) = mapNext (State.withApp a) (store x v s) :=
  ite_mapNext rfl rfl

theorem insertFrame_withApp (a : AppSeq) (r : Ring) (f : Bytes) (s : State) :
    insertFrame r f (s.withApp a) = mapNext (State.withApp a) (insertFrame r f s) := by
  cases r <;> exact andThen_mapNext (store_withApp a _ f s) fun _ => rfl

theorem popFrame_withApp (a : AppSeq) (r : Ring) (s : State) :
    popFrame r (s.withApp a) = mapNext (Prod.map id (State.withApp a)) (popFrame r s) := by
  cases r <;> exact ite_mapNext rfl (andThen_eq_mapNext fun _ => rfl)

theorem popToStaging_withApp (a : AppSeq) (s : State) :
    popToStaging (s.withApp a) = mapNext (Prod.map id (State.withApp a)) (popToStaging s) := by
  refine andThen_mapNext (popFrame_withApp a .outbound s) fun p => ?_
  obtain ⟨_ | f, t⟩ := p
  · rfl
  · exact andThen_mapNext (store_withApp a t.txStageBase f t) fun _ => rfl

theorem emitWrite_withApp (a : AppSeq) (s : State) :
    emitWrite (s.withApp a) = mapNext (State.withApp a) (emitWrite s) :=
  andThen_eq_mapNext fun _ => rfl

/-- The extraction loop, by induction on its fuel. -/
theorem extractLoop_withApp (a : AppSeq) (fuel i : Nat) (s : State) :
    extractLoop fuel i (s.withApp a) = mapNext (State.withApp a) (extractLoop fuel i s) := by
  induction fuel generalizing i s with
  | zero => rfl
  | succ fuel ih =>
    refine ite_mapNext (andThen_eq_mapNext fun f => ?_) rfl
    exact andThen_mapNext (insertFrame_withApp a .inbound f s) fun t =>
      ih (i + 1) { t with rxPending := t.rxPending - t.cfg.frameSize }

theorem deliver_withApp (a : AppSeq) (data : Bytes) (s : State) :
    deliver data (s.withApp a) = mapNext (State.withApp a) (deliver data s) :=
  andThen_mapNext (store_withApp a s.rxStageBase data s) fun t =>
    extractLoop_withApp a _ 0 { t with rxPending := data.length }

theorem closeDelivery_withApp (a : AppSeq) (s : State) : closeDelivery (s.withApp a) = (closeDelivery s).withApp a := by
  have hflag : (s.withApp a).flag .rxBufferQueued = s.flag .rxBufferQueued := rfl
  have hpending : (s.withApp a).rxPending = s.rxPending := rfl
  simp only [closeDelivery, hflag, hpending]
  split
  · split <;> rfl
  · rfl

/-- The acceptance of a delivery does not depend on the sequencer. -/
theorem withDelivery_withApp {a : AppSeq} {n : Nat} {data : Bytes} {k k' : Bytes → Result State} {s : State}
    (hk : k' data = mapNext (State.withApp a) (k data)) :
    withDelivery (s.withApp a) n data k' = mapNext (State.withApp a) (withDelivery s n data k) :=
  ite_mapNext rfl (ite_mapNext hk rfl)

theorem inCompleteHandler_withApp (a : AppSeq) (s : State) :
    inCompleteHandler (s.withApp a) = mapNext (State.withApp a) (inCompleteHandler s) :=
  ite_mapNext rfl (andThen_mapNext (popToStaging_withApp a (inCompleteStart s)) fun p =>
    emitWrite_withApp a (p.2.setFlag .txBusy))

theorem outCompleteHandler_withApp (a : AppSeq) (len : Nat) (s : State) :
    outCompleteHandler len (s.withApp a) = mapNext (State.withApp a) (outCompleteHandler len s) :=
  withDelivery_withApp (andThen_mapNext (deliver_withApp a _ s) fun t =>
    congrArg Host.Outcome.next (closeDelivery_withApp a t))

theorem outNakHandler_withApp (a : AppSeq) (s : State) :
    outNakHandler (s.withApp a) = mapNext (State.withApp a) (outNakHandler s) :=
  ite_mapNext (withDelivery_withApp (andThen_mapNext (deliver_withApp a _ (emitRdreq s)) fun _ => rfl)) rfl

theorem dispatchEvent_withApp {a : AppSeq} {handler : State → Result State} {s : State}
    (h : handler (s.withApp a) = mapNext (State.withApp a) (handler s)) :
    dispatchEvent handler (s.withApp a) = mapNext (State.withApp a) (dispatchEvent handler s) :=
  ite_mapNext h rfl

/-- Settles O27: each handler is made of operations that carry a changed sequencer along unread. -/
theorem eventsDoNotReadTheApplicationSequencer : Obligations.EventsDoNotReadTheApplicationSequencer := by
  intro i s a hf
  cases i with
  | evtInComplete => exact dispatchEvent_withApp (inCompleteHandler_withApp a s)
  | evtOutComplete len => exact dispatchEvent_withApp (outCompleteHandler_withApp a len s)
  | evtOutNak => exact dispatchEvent_withApp (outNakHandler_withApp a s)
  | _ => cases hf

end Sys2Proof.Machine

/-!
PROOFS. Whole runs of the composed block (60_exceptions.md R203, R209): the invariant in every reachable state, and the run
in which phase 3 of `APP.WRITE` finds the outbound ring empty.
-/

namespace Sys2Proof.Machine

/-! ### The invariant along a run -/

/-- Safe steps keep the invariant of the composed block, so safe runs do (O42). -/
theorem SafeRun.machineOk {s t : State} (hs : MachineOk s) (h : SafeRun s t) : MachineOk t := by
  induction h with
  | start => exact hs
  | snoc _ last ih => exact everySafeStepKeepsTheMachineInvariant _ _ ih last

/-- The one transfer there can be is outstanding with `tx_busy` set (R42). -/
theorem TxOk.atMostOne {s : State} (hs : TxOk s) :
    s.hwTxInflight ≤ 1 ∧ (s.hwTxInflight = 1 → s.flag .txBusy = true) := by
  by_cases hnone : s.hwTxInflight = 0
  · exact ⟨by omega, by omega⟩
  · have hi : s.inited = true := by
      by_contra hi
      exact hnone ((txOk_uninitialised (Bool.not_eq_true _ ▸ hi)).mp hs)
    obtain ⟨hns, hone⟩ := hs.outstanding hi (Nat.pos_of_ne_zero hnone)
    have hpaired := (txOk_paired hi hns).mp hs
    obtain ⟨_, hbusy⟩ := hpaired.resolve_left fun ⟨hz, _⟩ => hnone hz
    exact ⟨hone.le, fun _ => hbusy⟩

/-- Settles O43: a power-on state meets the invariant (O37), and a safe run keeps it. -/
theorem atMostOneTransferInEveryReachableState : Obligations.AtMostOneTransferInEveryReachableState := by
  intro s t hc hs hrun
  obtain ⟨_, _, hpower⟩ := powerOnMeetsTheInvariants
  exact (hrun.machineOk (hpower s hc hs)).tx.atMostOne

/-! ### A run that empties the ring under `APP.WRITE` (R163 corner case e) -/

/-- The state a safe step leads to, if the next step is one. -/
def safeNext (s : State) : Option State := if env1 s && noTestBench s then nextOf (step s) else none

theorem safeStep_of_safeNext {s t : State} (h : safeNext s = some t) : SafeStep s t := by
  simp only [safeNext] at h
  split at h
  · rename_i hsafe
    obtain ⟨henv, hbench⟩ := Bool.and_eq_true_iff.mp hsafe
    cases ho : step s with
    | next u =>
      rw [ho] at h
      cases h
      exact ⟨henv, hbench, ho⟩
    | fault | refused => rw [ho] at h; cases h
  · cases h

/-- As many safe steps as are computed make a safe run. -/
theorem SafeRun.of_iterate {s t : State} (n : Nat) (h : (·.bind safeNext)^[n] (some s) = some t) : SafeRun s t := by
  induction n generalizing t with
  | zero => cases h; exact .start
  | succ n ih =>
    rw [Function.iterate_succ_apply'] at h
    obtain ⟨u, hu, hlast⟩ := Option.bind_eq_some_iff.mp h
    exact .snoc (ih hu) (safeStep_of_safeNext hlast)

/-- Initialisation; a write run through, which leaves its transfer outstanding; a second write up to its insert; the two
IN-completes that send its frame and then find nothing left to send; and phase 2, which reads `tx_busy` clear. -/
def overtakenWrite : List Stimulus :=
  let write := Stimulus.present .app 0x22000000#32 { Operands.zero with wdata := List.replicate 8 0x11#8 }
  let inComplete := Stimulus.present .event 0x30000000#32 Operands.zero
  [.present .config 0x40000000#32 { Operands.zero with opndA := 0x1000, opndB := 0x100 },
    write, .appTurn, .appTurn, .appTurn, .appTurn, .appTurn,
    write, .appTurn, inComplete, inComplete, .appTurn]

/-- Refutes O44: the twelve safe steps of `overtakenWrite` lead from power-on to phase 3 with the outbound ring empty. -/
theorem not_writePhaseThreeNeverFindsTheRingEmpty : ¬ Obligations.WritePhaseThreeNeverFindsTheRingEmpty := by
  intro h
  have hend : ((·.bind safeNext)^[12] (some (powerOn Config.cfgT overtakenWrite))).any (fun t =>
      decide (t.app.cmd = .write ∧ t.app.phase = 3 ∧ t.rbOut.count = 0)) = true := by decide +kernel
  obtain ⟨t, ht, hend⟩ := (Option.any_eq_true _ _).mp hend
  obtain ⟨hcmd, hphase, hempty⟩ := of_decide_eq_true hend
  exact h _ t (by decide +kernel) (by decide +kernel) (.of_iterate 12 ht) hcmd hphase hempty

end Sys2Proof.Machine

/-!
PROOFS. The composed block never faults (60_exceptions.md R190): no command and no phase of a block in operation copies past
the address space or stands at a phase that there is not.
-/

namespace Sys2Proof.Machine

/-- The outcome is a next state or a refusal. -/
def NoFault {α : Type} (o : Result α) : Prop := ∀ f, o ≠ .fault f

theorem noFault_next {α : Type} (a : α) : NoFault (.next a : Result α) := fun _ h => nomatch h

theorem noFault_refused {α : Type} (r : Refusal) : NoFault (.refused r : Result α) := fun _ h => nomatch h

theorem noFault_of_runs {α : Type} {o : Result α} (h : ∃ a, o = .next a) : NoFault o := by
  obtain ⟨a, rfl⟩ := h
  exact noFault_next a

/-- A test whose branches do not fault, each under what the test found. -/
theorem noFault_ite {α : Type} {c : Prop} [Decidable c] {o o' : Result α} (h : c → NoFault o) (h' : ¬ c → NoFault o') :
    NoFault (if c then o else o') := by
  split
  · exact h ‹_›
  · exact h' ‹_›

/-! ### The application interface -/

theorem Operating.appPhase_runs {s : State} (hs : Operating s) : ∃ t, appPhase s = .next t :=
  Machine.appPhase_runs hs.inited (ringsOk_iff.mpr fun _ => hs.pointers) (fun _ => hs.layout) hs.app

/-- Phases run back to back, each from a state in operation (R204). -/
theorem Operating.runPhases_noFault {s : State} (hs : Operating s) (n : Nat) : NoFault (runPhases n s) := by
  induction n generalizing s with
  | zero => exact noFault_next s
  | succ n ih =>
    refine noFault_ite (fun _ => noFault_next s) fun _ => ?_
    obtain ⟨t, ht⟩ := hs.appPhase_runs
    rw [ht]
    exact ih ((appPhase_step ht).operating hs)

/-- A command issued with a frame of the right length (R203 a, R204). -/
theorem Operating.startCommand_noFault {s : State} (hs : Operating s) {f : Bytes} (hf : f.length = s.cfg.frameSize)
    (c : AppCmd) : NoFault (startCommand c { s with app := { s.app with frame := f } }) :=
  noFault_ite (fun _ => noFault_next _) fun _ => (hs.issue hf c).runPhases_noFault maxPhases

/-! ### The events -/

/-- Where the next transfer is staged, and the oldest outbound frame, lie inside memory (R141). -/
theorem Operating.inCompleteHandler_runs {s : State} (hs : Operating s) : ∃ t, inCompleteHandler s = .next t := by
  obtain ⟨_, htail, _⟩ := hs.pointers .outbound
  have hslot := slot_inside htail
  obtain ⟨_, htx, hin, hout⟩ := hs.layout
  have hsize : s.cfg.txStagingSize = s.cfg.frameSize := rfl
  by_cases hz : s.rbOut.count = 0
  · exact ⟨_, inCompleteHandler_empty s hz⟩
  · simp only [rb_outbound] at hslot
    exact inCompleteHandler_send s hz (by omega) (by omega)

/-- A delivery within the RX staging buffer runs (R142, R144). -/
theorem Operating.deliver_runs {s : State} (hs : Operating s) {data : Bytes} (hle : data.length ≤ s.cfg.rxStagingSize) :
    ∃ u, deliver data s = .next u := by
  obtain ⟨u, hu, _⟩ := deliver_run hs.config hs.memory (hs.pointers .inbound) hs.layout hle
  exact ⟨u, hu⟩

/-- A delivery is handled only within the RX staging buffer (R142, R144). -/
theorem noFault_withDelivery {s : State} {n : Nat} {data : Bytes} {k : Bytes → Result State}
    (hk : data.length ≤ s.cfg.rxStagingSize → NoFault (k data)) : NoFault (withDelivery s n data k) :=
  noFault_ite (fun _ => noFault_refused _) fun hn =>
    noFault_ite (fun hlen => hk (hlen ▸ Nat.le_of_not_lt hn)) fun _ => noFault_refused _

theorem Operating.outCompleteHandler_noFault {s : State} (hs : Operating s) (len : Nat) :
    NoFault (outCompleteHandler len s) :=
  noFault_withDelivery fun hle => by
    obtain ⟨u, hu⟩ := hs.deliver_runs hle
    rw [hu]
    exact noFault_next _

theorem Operating.outNakHandler_noFault {s : State} (hs : Operating s) : NoFault (outNakHandler s) :=
  noFault_ite
    (fun _ => noFault_withDelivery fun hle => by
      have harmed : Operating (emitRdreq s) := { hs with }
      obtain ⟨u, hu⟩ := harmed.deliver_runs hle
      rw [hu]
      exact noFault_next _)
    fun _ => noFault_next s

/-! ### The commands and the step -/

theorem noFault_whenInited {s : State} {k : State → Result State} (hk : s.inited = true → NoFault (k s)) :
    NoFault (whenInited s k) :=
  noFault_ite hk fun _ => noFault_refused _

theorem noFault_whenIdle {s : State} {k : State → Result State} (hk : s.inited = true → NoFault (k s)) :
    NoFault (whenIdle s k) :=
  noFault_whenInited fun hi => noFault_ite (fun _ => hk hi) fun _ => noFault_refused _

/-- Initialisation copies no bytes: it completes or is refused (R180, R183). -/
theorem execXptInit_noFault (s : State) : NoFault (exec .xptInit s) :=
  noFault_ite (fun _ => noFault_refused _) fun _ =>
    noFault_ite (fun _ => noFault_ite (fun _ => noFault_refused _) fun _ => noFault_next _) fun _ => noFault_refused _

/-- No command of the composed block faults. -/
theorem exec_noFault {i : Instr} {s : State} (hf : i.format ≠ .R) (hs : s.inited = true → Operating s) :
    NoFault (exec i s) := by
  have hframe (hi : s.inited = true) : s.app.frame.length = s.cfg.frameSize := by
    obtain ⟨_, hlen, _⟩ := (hs hi).app
    exact hlen
  cases i with
  | appReadCount => exact noFault_whenIdle fun hi => (hs hi).startCommand_noFault (hframe hi) .readCount
  | appRead => exact noFault_whenIdle fun hi => (hs hi).startCommand_noFault (hframe hi) .read
  | appFlush => exact noFault_whenIdle fun hi => (hs hi).startCommand_noFault (hframe hi) .flush
  | appWrite =>
    rw [exec, execAppWrite]
    refine noFault_whenIdle fun hi => ?_
    exact noFault_ite (fun hlen => (hs hi).startCommand_noFault hlen .write) fun _ => noFault_refused _
  | evtInComplete => exact noFault_whenInited fun hi => noFault_of_runs (hs hi).inCompleteHandler_runs
  | evtOutComplete len => exact noFault_whenInited fun hi => (hs hi).outCompleteHandler_noFault len
  | evtOutNak => exact noFault_whenInited fun hi => (hs hi).outNakHandler_noFault
  | xptInit => exact execXptInit_noFault s
  | _ => exact absurd rfl hf

/-- The application's turn runs a phase after initialisation only (R203). -/
theorem appTurn_noFault {s : State} (hs : s.inited = true → Operating s) : NoFault (appTurn s) := by
  refine noFault_ite (fun hturn => ?_) fun _ => noFault_next s
  obtain ⟨hi, _⟩ := Bool.and_eq_true_iff.mp hturn
  exact noFault_of_runs (hs hi).appPhase_runs

/-- Settles O55: the step is the application's turn, a phase while an event is held, a refusal or a command. -/
theorem noStepOfTheComposedBlockFaults : Obligations.NoStepOfTheComposedBlockFaults := by
  intro s f hok hbench
  revert f
  change NoFault (step s)
  have hs (rest : List Stimulus) (ops : Operands) (hi : s.inited = true) :
      Operating { s with inputs := rest, opnd := ops } := { hok.operating hi with }
  obtain ⟨stims, hin⟩ : ∃ stims, s.inputs = stims := ⟨_, rfl⟩
  match stims with
  | [] =>
    rw [step_nil hin]
    exact appTurn_noFault hok.operating
  | .appTurn :: rest =>
    rw [step_appTurn hin]
    exact appTurn_noFault (hs rest s.opnd)
  | .present port cw ops :: rest =>
    cases hheld : eventHeld port s with
    | true =>
      rw [step_held hin hheld]
      simp only [eventHeld, Bool.and_eq_true] at hheld
      obtain ⟨⟨_, hi⟩, _⟩ := hheld
      exact noFault_of_runs (hok.operating hi).appPhase_runs
    | false =>
      cases hword : acceptWord port cw with
      | error r =>
        rw [step_reject hin hheld hword]
        exact noFault_refused r
      | ok i =>
        have hi : nextAction s = .command i := by simp [nextAction, hin, hheld, hword]
        rw [step_command hin hheld hword]
        exact exec_noFault (noTestBench_format hbench hi) (hs rest ops)

end Sys2Proof.Machine

/-!
PROOFS. Indivisible application commands (60_exceptions.md R204): with `APP_PREEMPTIBLE = false` the phases of a command
run back to back in the step that issues it.
-/

namespace Sys2Proof.Machine

/-! ### Phases back to back -/

/-- Where commands are indivisible an accepted command runs its phases at once (R204). -/
theorem startCommand_indivisible {s : State} (c : AppCmd) (h : s.cfg.appPreemptible = false) :
    startCommand c s = runPhases maxPhases (s.issue c) :=
  if_neg (by simp [h])

theorem runPhases_of_idle {s : State} (n : Nat) (hc : s.app.cmd = .idle) : runPhases n s = .next s := by
  cases n with
  | zero => rfl
  | succ n => exact if_pos hc

/-- One phase, and then the others. -/
theorem PhaseStep.runPhases_succ {s t : State} {n : Nat} (h : PhaseStep s t) (hfs : 1 ≤ s.cfg.frameSize)
    (hc : s.app.cmd ≠ .idle) : runPhases (n + 1) s = runPhases n t := by
  rw [runPhases, if_neg hc, h.appPhase_eq hfs, andThen_next]

/-- A phase that ends the command is the last. -/
theorem PhaseStep.runPhases_last {s t : State} {n : Nat} (h : PhaseStep s t) (hfs : 1 ≤ s.cfg.frameSize)
    (hc : s.app.cmd ≠ .idle) (hidle : t.app.cmd = .idle) : runPhases (n + 1) s = .next t :=
  (h.runPhases_succ hfs hc).trans (runPhases_of_idle n hidle)

/-! ### `APP.READ_COUNT`, `APP.READ` and `APP.FLUSH` -/

/-- The whole of `APP.READ` is its pop, whatever that finds, and the return of phase 2 (R162). -/
theorem execAppRead_indivisible {s u : State} {out : Response} (hi : s.inited = true) (hc : s.app.cmd = .idle)
    (hpre : s.cfg.appPreemptible = false) (hfs : 1 ≤ s.cfg.frameSize) (h : PhaseStep (s.issue .read) u)
    (hcu : u.app.cmd = .read) (hpu : u.app.phase = 2)
    (hout : ⟨some u.app.n, if u.app.n = 0 then none else some u.app.frame⟩ = out) :
    exec .appRead s = .next ((u.clearFlag .rxBufferFull).appReturn out) := by
  have hfsu : 1 ≤ u.cfg.frameSize := h.cfg_eq ▸ hfs
  refine execAppRead_next.mpr ⟨hi, hc, ?_⟩
  rw [startCommand_indivisible _ hpre, ← hout]
  exact (h.runPhases_succ hfs (by simp)).trans ((PhaseStep.readClear hcu hpu).runPhases_last hfsu (by simp [hcu]) rfl)

/-- Settles O33: the phases of each command, one after the other. -/
theorem indivisibleReadsAndFlush : Obligations.IndivisibleReadsAndFlush := by
  refine fun s hi hc hpre hfs => ⟨?count, fun hz => ?readEmpty, fun hz hin => ?readPop, ?flush⟩
  case count =>
    have hrun := (PhaseStep.readCount (s := s.issue .readCount) rfl rfl).runPhases_last (n := 4) hfs (by simp) rfl
    exact ⟨_, execAppReadCount_next.mpr ⟨hi, hc, (startCommand_indivisible _ hpre).trans hrun⟩, rfl, rfl⟩
  case readEmpty =>
    exact ⟨_, execAppRead_indivisible hi hc hpre hfs (.readEmpty rfl rfl hz) rfl rfl rfl, rfl, rfl⟩
  case readPop =>
    exact ⟨_, execAppRead_indivisible hi hc hpre hfs (.readPop rfl rfl hz hin) rfl rfl
      (congrArg (Response.mk _) (if_neg (Nat.ne_of_gt hfs))), rfl, rfl⟩
  case flush =>
    exact ⟨_, execAppFlush_next.mpr ⟨hi, hc, (startCommand_indivisible _ hpre).trans (runPhases_flush s)⟩, rfl, rfl⟩

/-! ### The phases of `APP.WRITE` together -/

/-- The outbound ring and memory after the insert of `f` (R163 phase 1). -/
def queueFrame (f : Bytes) (s : State) : State :=
  { s with
    wm := s.wm.writeBytes (slotAddr s .outbound s.rbOut.head) f
    rbOut := regsAfterInsert s.cfg.outCapacity s.rbOut }

/-- The oldest outbound frame (R123). -/
def oldestFrame (s : State) : Bytes := s.wm.readBytes (slotAddr s .outbound s.rbOut.tail) s.cfg.frameSize

/-- The oldest outbound frame in the TX staging buffer (R163 phase 3). -/
def stageOldest (s : State) : State :=
  { s with
    rbOut := regsAfterPop s.cfg.outCapacity s.rbOut
    wm := s.wm.writeBytes s.txStageBase (oldestFrame s) }

/-- `tx_busy` set and the TX staging buffer requested to be sent (R163 phases 4 and 5). -/
def requestStaged (s : State) : State :=
  { s.setFlag .txBusy with
    hwLog := s.hwLog ++ [.write s.cfg.epIn (s.wm.readBytes s.txStageBase s.cfg.frameSize)]
    hwTxInflight := s.hwTxInflight + 1 }

/-- `APP.WRITE` returns from `u` with the sequencer left at `a` but for its position (R163). -/
def writeReturned (a : AppSeq) (u : State) : State := (u.withApp a).appReturn (writeResponse u)

/-- From phase 2 on, where no transfer may be started. -/
theorem runPhases_write_stay {u : State} {a : AppSeq} {n : Nat} (hc : a.cmd = .write) (hp : a.phase = 2)
    (hfs : 1 ≤ u.cfg.frameSize) (hm : mayStartTransfer u.flags = false) :
    ∃ b, runPhases (n + 1) (u.withApp a) = .next (writeReturned b u) :=
  ⟨{ a with t := false },
    (PhaseStep.writeStay (s := u.withApp a) hc hp hm).runPhases_last hfs (ne_of_eq_of_ne hc (by decide)) rfl⟩

/-- From phase 2 on, where a transfer is started. -/
theorem runPhases_write_send {u : State} {a : AppSeq} {n : Nat} (hc : a.cmd = .write) (hp : a.phase = 2)
    (hfs : 1 ≤ u.cfg.frameSize) (hm : mayStartTransfer u.flags = true) (hz : u.rbOut.count ≠ 0)
    (hin : slotAddr u .outbound u.rbOut.tail + u.cfg.frameSize ≤ 2 ^ u.cfg.addrW)
    (hst : u.txStageBase + u.cfg.frameSize ≤ 2 ^ u.cfg.addrW) :
    ∃ b, runPhases (n + 4) (u.withApp a) = .next (writeReturned b (requestStaged (stageOldest u))) := by
  have hopen : a.cmd ≠ .idle := ne_of_eq_of_ne hc (by decide)
  have h2 := PhaseStep.writeGo (s := u.withApp a) hc hp hm
  have h3 := PhaseStep.writePop (s := u.withApp { a with t := true, phase := 3 }) hc rfl hz (Nat.ne_of_gt hfs) hin hst
  have h4 := PhaseStep.writeBusy
    (s := (stageOldest u).withApp { a with t := true, n := u.cfg.frameSize, phase := 4 }) hc rfl
  have h5 := PhaseStep.writeIssue
    (s := ((stageOldest u).setFlag .txBusy).withApp { a with t := true, n := u.cfg.frameSize, phase := 5 }) hc rfl hst
  exact ⟨{ a with t := true, n := u.cfg.frameSize, phase := 5 },
    calc runPhases (n + 4) (u.withApp a)
      _ = runPhases (n + 3) _ := h2.runPhases_succ hfs hopen
      _ = runPhases (n + 2) _ := h3.runPhases_succ hfs hopen
      _ = runPhases (n + 1) _ := h4.runPhases_succ hfs hopen
      _ = _ := h5.runPhases_last hfs hopen rfl⟩

/-! ### What `APP.WRITE` leaves -/

/-- The outbound slots lie inside memory (R126). -/
theorem TransmitReady.slot {s : State} (hs : TransmitReady s) {i : Nat} (hi : i < s.cfg.outCapacity) :
    slotAddr s .outbound i + s.cfg.frameSize ≤ 2 ^ s.cfg.addrW := by
  obtain ⟨_, _, _, htop⟩ := hs.layout
  exact (slot_inside hi).trans htop

/-- The TX staging buffer lies inside memory, below the storage of both rings (R62). -/
theorem TransmitReady.staging {s : State} (hs : TransmitReady s) (r : Ring) :
    s.txStageBase + s.cfg.frameSize ≤ (s.rb r).base ∧ s.txStageBase + s.cfg.frameSize ≤ 2 ^ s.cfg.addrW := by
  obtain ⟨_, htx, hin, hout⟩ := hs.layout
  have hsize : s.cfg.txStagingSize = s.cfg.frameSize := rfl
  cases r
  · exact ⟨htx, by omega⟩
  · exact ⟨by rw [rb_outbound]; omega, by omega⟩

theorem TransmitReady.queueFrame {s : State} (hs : TransmitReady s) (f : Bytes) : TransmitReady (queueFrame f s) where
  inited := hs.inited
  config := hs.config
  memory := Memory.writeBytes_wf _ _ _ hs.memory
  layout := hs.layout.congr (t := Machine.queueFrame f s) ⟨rfl, fun hi => ⟨hi, rfl, rfl, rfl⟩⟩ hs.inited
    fun | .inbound => rfl | .outbound => regsAfterInsert_base _ _
  pointers := RingRegs.ok_insert hs.pointers

/-- The insert joins the frame to the outbound queue (R122, R128). -/
theorem TransmitReady.queueFrame_outbound {s : State} (hs : TransmitReady s) {f : Bytes}
    (hf : f.length = s.cfg.frameSize) :
    contents (Machine.queueFrame f s) .outbound = queueInsert s.cfg.outCapacity (contents s .outbound) f :=
  contents_insert s .outbound f hs.memory hs.pointers hf

/-- The inbound storage stands below the outbound slots (R62). -/
theorem TransmitReady.queueFrame_inbound {s : State} (hs : TransmitReady s) (f : Bytes) :
    contents (Machine.queueFrame f s) .inbound = contents s .inbound := by
  refine contents_of_write_apart (capacity_pos hs.config _) rfl rfl rfl (.inr ?_)
  obtain ⟨_, _, hout, _⟩ := hs.layout
  exact hout.trans (Nat.le_add_right _ _)

theorem TransmitReady.queueFrame_read {s : State} (hs : TransmitReady s) {f : Bytes} (hf : f.length = s.cfg.frameSize)
    {a : Nat} (ha : inStorage s .outbound a = false) : (Machine.queueFrame f s).wm.read a = s.wm.read a := by
  obtain ⟨hhead, _⟩ := hs.pointers
  exact read_outside_storage (s := s) (r := .outbound) hhead hf ha

/-- A ring holds a frame after an insert (R122). -/
theorem regsAfterInsert_count_ne_zero {cap : Nat} (q : RingRegs) (hcap : 1 ≤ cap) :
    (regsAfterInsert cap q).count ≠ 0 := by
  simp only [regsAfterInsert]
  split
  · rename_i hfull; simp only [hfull]; omega
  · exact Nat.succ_ne_zero _

/-- Staging takes the oldest frame off the outbound queue (R123, R163). -/
theorem TransmitReady.stageOldest_outbound {s : State} (hs : TransmitReady s) (hz : s.rbOut.count ≠ 0) :
    contents s .outbound = oldestFrame s :: contents (stageOldest s) .outbound := by
  have hpop : contents (s.setRb .outbound (stageOldest s).rbOut) .outbound = (contents s .outbound).drop 1 :=
    contents_of_pop (r := .outbound) hz rfl rfl rfl
  obtain ⟨hbelow, _⟩ := hs.staging .outbound
  have hstage : contents (stageOldest s) .outbound = contents (s.setRb .outbound (stageOldest s).rbOut) .outbound :=
    contents_of_write_apart (capacity_pos hs.config .outbound) rfl rfl rfl
      (.inl (by rw [oldestFrame, Memory.readBytes_length]; exact hbelow))
  rw [hstage, hpop]
  exact contents_eq_cons hs.pointers hz

theorem TransmitReady.stageOldest_inbound {s : State} (hs : TransmitReady s) :
    contents (stageOldest s) .inbound = contents s .inbound := by
  obtain ⟨hbelow, _⟩ := hs.staging .inbound
  exact contents_of_write_apart (capacity_pos hs.config _) rfl rfl rfl
    (.inl (by rw [oldestFrame, Memory.readBytes_length]; exact hbelow))

theorem stageOldest_read {s : State} {a : Nat} (ha : inSpan s.txStageBase s.cfg.txStagingSize a = false) :
    (stageOldest s).wm.read a = s.wm.read a :=
  Memory.read_writeBytes_outside _ _ _ _ (by rw [oldestFrame, Memory.readBytes_length]; exact inSpan_false.mp ha)

/-- The request sends the frame just staged (R207). -/
theorem requestStaged_log {s : State} (hm : s.wm.wf) :
    (requestStaged (stageOldest s)).hwLog = s.hwLog ++ [.write s.cfg.epIn (oldestFrame s)] :=
  congrArg (fun d => s.hwLog ++ [HwReq.write s.cfg.epIn d]) (readBytes_written hm (Memory.readBytes_length _ _ _))

/-- The whole of `APP.WRITE` is the insert and the phases from 2 on (R163, R204). -/
theorem execAppWrite_indivisible {s : State} (hs : TransmitReady s) (hc : s.app.cmd = .idle)
    (hpre : s.cfg.appPreemptible = false) (hlen : s.opnd.wdata.length = s.cfg.frameSize) :
    ∃ a, a.cmd = .write ∧ a.phase = 2 ∧
      exec .appWrite s = runPhases 4 ((Machine.queueFrame s.opnd.wdata s).withApp a) := by
  obtain ⟨hhead, _⟩ := hs.pointers
  have hinsert := PhaseStep.writeInsert (s := (s.withApp { s.app with frame := s.opnd.wdata }).issue .write) rfl rfl
    (hlen.symm ▸ hs.slot hhead)
  refine ⟨{ s.app with cmd := .write, phase := 2, frame := s.opnd.wdata }, rfl, rfl, ?_⟩
  calc exec .appWrite s
    _ = startCommand .write (s.withApp { s.app with frame := s.opnd.wdata }) :=
      by simp [exec, execAppWrite, whenIdle, whenInited, withFrameOperand, State.withApp, hs.inited, hc, hlen]
    _ = runPhases maxPhases _ := startCommand_indivisible .write hpre
    _ = runPhases 4 _ := hinsert.runPhases_succ (frameSize_pos hs.config) (by simp)

/-- Settles O34: the flags decide after the insert whether the oldest frame is staged and requested. -/
theorem indivisibleWriteQueuesAndMayStart : Obligations.IndivisibleWriteQueuesAndMayStart := by
  rintro s q hi hc hpre hcfg hm hl ho hlen rfl
  have hs : TransmitReady s := ⟨hi, hcfg, hm, hl, ho⟩
  have hfs := frameSize_pos hcfg
  obtain ⟨a, hac, hap, hexec⟩ := execAppWrite_indivisible hs hc hpre hlen
  have hu := hs.queueFrame s.opnd.wdata
  have hqueued := hs.queueFrame_outbound hlen
  have hinbound := hs.queueFrame_inbound s.opnd.wdata
  have hread := fun x => hs.queueFrame_read hlen (a := x)
  have hz : (queueFrame s.opnd.wdata s).rbOut.count ≠ 0 :=
    regsAfterInsert_count_ne_zero s.rbOut (capacity_pos hcfg .outbound)
  cases hmay : mayStartTransfer s.flags with
  | false =>
    have hno : ¬ (s.flag .txBusy = false ∧ s.flag .txConnected = true) := by
      rw [← mayStartTransfer_iff, hmay]; decide
    obtain ⟨b, hrun⟩ := runPhases_write_stay (u := queueFrame s.opnd.wdata s) (n := 3) hac hap hfs hmay
    exact ⟨_, hexec.trans hrun, rfl, rfl, fun h => absurd h hno, fun _ => ⟨rfl, hqueued, rfl, rfl, rfl⟩, hinbound,
      fun x _ hx => hread x hx, rfl⟩
  | true =>
    have hno : ¬ (s.flag .txBusy = true ∨ s.flag .txConnected = false) := by
      rw [← mayStartTransfer_eq_false, hmay]; decide
    obtain ⟨_, htail, _⟩ := hu.pointers
    obtain ⟨_, hst⟩ := hu.staging .outbound
    obtain ⟨b, hrun⟩ := runPhases_write_send (u := queueFrame s.opnd.wdata s) (n := 0) hac hap hfs hmay hz
      (hu.slot htail) hst
    exact ⟨writeReturned b (requestStaged (stageOldest (queueFrame s.opnd.wdata s))), hexec.trans hrun, rfl, rfl,
      fun _ => ⟨rfl, _, _, hqueued.symm.trans (hu.stageOldest_outbound hz), rfl, rfl, requestStaged_log hu.memory, rfl⟩,
      fun h => absurd h hno, hu.stageOldest_inbound.trans hinbound,
      fun x hstage hx => (stageOldest_read (s := queueFrame s.opnd.wdata s) hstage).trans (hread x hx), rfl⟩

end Sys2Proof.Machine

/-!
PROOFS. Reset and the hazards between contexts (70_reset_and_hazards.md R230, R235, R238).
-/

namespace Sys2Proof.Machine

/-! ### The power-on state (R230) -/

/-- Settles O36: `State.reset` gives these fields the values of R44. -/
theorem powerOnState : Obligations.PowerOnState := ⟨rfl, rfl, rfl, rfl⟩

/-! ### The inbound count (R235) -/

/-- An insert into a full queue gives up one frame for the new one, so no insert shortens a queue (R128). -/
theorem length_le_queueInsert (cap : Nat) (q : List Bytes) (f : Bytes) : q.length ≤ (queueInsert cap q f).length := by
  rw [queueInsert]
  split
  · rw [List.length_append, List.length_drop, List.length_singleton]
    omega
  · rw [List.length_append]
    omega

theorem length_le_queueInsertAll (cap : Nat) (fs q : List Bytes) : q.length ≤ (queueInsertAll cap q fs).length := by
  induction fs generalizing q with
  | nil => exact Nat.le_refl _
  | cons f fs ih => exact (length_le_queueInsert cap q f).trans (ih (queueInsert cap q f))

/-- Only the pop of `APP.READ` and the flush of `APP.FLUSH` shorten the inbound queue (R162, R164). -/
theorem inboundAfter_shorter {s : State} (h : (inboundAfter s).length < (contents s .inbound).length) :
    nextAction s = .phase .read 1 ∨ nextAction s = .phase .flush 1 ∨
      (s.cfg.appPreemptible = false ∧ (nextAction s = .command .appRead ∨ nextAction s = .command .appFlush)) := by
  rw [inboundAfter] at h
  split at h
  · next ha => exact .inl ha
  · next ha => exact .inr (.inl ha)
  · next ha =>
    split at h
    · exact absurd h (Nat.lt_irrefl _)
    · next hpre => exact .inr (.inr ⟨Bool.eq_false_iff.mpr hpre, .inl ha⟩)
  · next ha =>
    split at h
    · exact absurd h (Nat.lt_irrefl _)
    · next hpre => exact .inr (.inr ⟨Bool.eq_false_iff.mpr hpre, .inr ha⟩)
  · exact absurd h (Nat.not_lt.mpr (length_le_queueInsertAll _ _ _))
  · split at h
    · exact absurd h (Nat.not_lt.mpr (length_le_queueInsertAll _ _ _))
    · exact absurd h (Nat.lt_irrefl _)
  · exact absurd h (Nat.lt_irrefl _)

/-- Settles O51: the count is the length of the inbound queue, which changes as `inboundAfter` says (O50). -/
theorem onlyTheApplicationLowersTheInboundCount : Obligations.OnlyTheApplicationLowersTheInboundCount := by
  intro s t hi hok hstep hlt
  refine inboundAfter_shorter ?_
  rw [← receivePathKeepsEveryFrameInOrder s t hi hok hstep, contents_length, contents_length]
  exact hlt

/-! ### The flag set inside a read (R238) -/

@[simp] theorem closeDelivery_rxPending (u : State) : (closeDelivery u).rxPending = u.rxPending := by
  rw [closeDelivery_frame]

/-- OUT-complete leaves the bytes that fill no frame pending (R142). -/
theorem evtOutComplete_pending {len : Nat} {s t : State} (hc : s.cfg.wf) (h : exec (.evtOutComplete len) s = .next t) :
    t.rxPending = len % s.cfg.frameSize := by
  obtain ⟨_, h⟩ := execEvtOutComplete_next.mp h
  obtain ⟨_, rfl, u, hu, rfl⟩ := outCompleteHandler_next.mp h
  exact (closeDelivery_rxPending u).trans (deliver_pending (frameSize_pos hc) hu)

/-- Phase 2 of `APP.READ` makes FULL ARMABLE and keeps the pending bytes (R149, R162). -/
theorem readClear_of_full {t u : State} (hc : t.app.cmd = .read) (hp : t.app.phase = 2) (hfull : rxState t = some .full)
    (h : appPhase t = .next u) : rxState u = some .armable ∧ u.rxPending = t.rxPending := by
  rw [(PhaseStep.readClear hc hp).appPhase_eq_of_not_write (by simp [hc])] at h
  cases h
  obtain ⟨_, hqueued⟩ := rxState_full.mp hfull
  exact ⟨rxState_armable.mpr (by simp [hqueued]), rfl⟩

/-- Settles O54: the remainder makes ARMED FULL (O28), the event leaves the sequencer in phase 2 (O26), and that phase clears
the flag. -/
theorem fullFlagSetInsideAReadIsLost : Obligations.FullFlagSetInsideAReadIsLost := by
  intro s t u len hcfg hc hp harmed hevent hrem hphase
  have hfull : rxState t = some .full := by
    rw [evtOutComplete_rxState_armed hcfg hevent harmed, if_neg (Nat.pos_iff_ne_zero.mp hrem)]
  obtain ⟨happ, _⟩ := eventsLeaveTheApplicationSequencer _ s t rfl hevent
  rw [← happ] at hc hp
  obtain ⟨harmable, hpending⟩ := readClear_of_full hc hp hfull hphase
  exact ⟨hfull, harmable, hpending.trans (evtOutComplete_pending hcfg hevent)⟩

end Sys2Proof.Machine
